-- ==== Sys2Proof/Word.lean ====
section
/-! DEFINITION. The plain value types of HRC: 32-bit register words, bytes of the text buffer, the 256-bit operand
register's value, bit sequences and characters (00_scope.md R9, R10, R12). -/
namespace Sys2Proof

/-- A register word (R66: registers are 32-bit words). -/
abbrev Word := BitVec 32

/-- One element of the text buffer, 0 to 255 (R12 `Byte`). -/
abbrev Byte := BitVec 8

/-- The value of the operand and result register W (R27). -/
abbrev Wide := BitVec 256

/-- A bit sequence; index 0 is the first bit (R10 `Bits`). -/
abbrev Bits := List Bool

/-- A valid input code point, 0 to 126 (R12 `Char`). The sentinel 127 is no value of this type (DEDUCED,
log entry 7). -/
abbrev Chr := Fin 127

end Sys2Proof
end

