-- ==== Sys2Proof/Config.lean ====
section
/-! DEFINITION. The constants the document fixes (R7), the parameters it leaves open (R8, 92_eei_decisions.md), and the
one free value of the model. -/
namespace Sys2Proof

/-- R7 `SENTINEL`: the reserved code point WORD_SEP. -/
def sentinel : Nat := 127

/-- R7 `SPACE`: the word separator of word mode. -/
def space : Chr := 32

/-- R7 `CHAR_W`. -/
def charW : Nat := 7

/-- R7 `MODE_W`. -/
def modeW : Nat := 1

/-- R7 `FWID_W`. -/
def fwidW : Nat := 8

/-- R7 `PLEN_W`. -/
def plenW : Nat := 8

/-- R7 `XLEN_W`. -/
def xlenW : Nat := 8

/-- The largest value of an 8-bit length field (`P`, `freq_width`, `X`: R161, R181, R211). -/
def maxField8 : Nat := 255

/-- R8 `HOST_W`: the largest width of one host BB_APPEND or BB_READ. -/
def hostW : Nat := 255

/-- R8 `X_MIN`: the smallest `X` the encoder writes. -/
def xMin : Nat := 1

/-- R8, D6: where a merged node enters the list before the stable re-sort. -/
inductive InsertPos where
  | back
  | front
  deriving DecidableEq, Repr

/-- R8, D7: the order of the entries of a built CodeMap. -/
inductive TableOrder where
  | walk
  | firstOccurrence
  deriving DecidableEq, Repr

/-- The open parameters of the spec (R8, R69, 92_eei_decisions.md "The model takes these as arguments"). Plain data that
State carries and no step changes (DESIGN CHOICE, log entry 1). -/
structure Config where
  /-- `TXT_CAP`, in bytes. -/
  txtCap : Fin 4294967296
  /-- `BB_CAP`, in bits, of each bit buffer. -/
  bbCap : Fin 4294967296
  insertPos : InsertPos
  tableOrder : TableOrder
  /-- R69, D9: the word `BASE` is, any word-aligned address being four times one (log entry 6). -/
  baseWord : Nat
  deriving DecidableEq, Repr

/-- R69 `BASE`: the byte address of the register window in the host's address space. -/
def Config.base (cfg : Config) : Nat := 4 * cfg.baseWord

/-- The values this spec takes (R8, 92_eei_decisions.md "Open parameters in one place"). For BASE it says "none needed":
0 is the model's (DESIGN CHOICE, log entry 6). -/
def Config.standard : Config :=
  { txtCap := 4294967295, bbCap := 4294967295, insertPos := .back, tableOrder := .walk, baseWord := 0 }

/-- FREE VALUE (DESIGN CHOICE, log entry 9). R131: "`SymEnc(0, y)` is defined only for one-character symbols". R35 makes
every other symbol unreachable in character mode; the bits such a symbol would have are left without a value. -/
opaque Config.symEncUndefined : List Chr → Bits

end Sys2Proof
end

