-- ==== Sys2Proof/Syntax.lean ====
section
/-! DEFINITION. The 21 commands of 30_encoding.md R83, one constructor per row of spec/opcode_table.json. -/
namespace Sys2Proof

/-- R80 field `b`: the bit buffer a command names. -/
inductive BufSel where
  | b0
  | b1
  deriving DecidableEq, Repr

/-- The commands of R83 with their operands (R82). A width or count is a number of bits, `txtPut`'s operand a byte. -/
inductive Instr where
  | nop
  | bbClear (b : BufSel)
  | bbAppend (b : BufSel) (width : Nat)
  | bbAppendl (b : BufSel)
  | bbRead (b : BufSel) (count : Nat)
  | bbRewind (b : BufSel)
  | txtClear
  | txtPut (v : Byte)
  | tokenize
  | freq
  | runs
  | detok
  | huffBuild
  | tblSer
  | tblDes
  | rleEnc
  | rleDec
  | ascEnc
  | ascDec
  | hufEnc
  | hufDec
  deriving DecidableEq, Repr

end Sys2Proof
end

