-- ==== Sys2Proof/WellFormed.lean ====
section
/-! DEFINITION. Which terms of Instr are commands: those whose operands fit the fields of the command word. -/
namespace Sys2Proof

/-- R84: BB_APPEND and BB_READ accept widths 0 to 255 (`HOST_W`); every other operand fits its field by its type. -/
def Instr.wellFormed : Instr → Bool
  | .bbAppend _ width => decide (width ≤ hostW)
  | .bbRead _ count => decide (count ≤ hostW)
  | .nop | .bbClear _ | .bbAppendl _ | .bbRewind _ | .txtClear | .txtPut _ | .tokenize | .freq | .runs | .detok
  | .huffBuild | .tblSer | .tblDes | .rleEnc | .rleDec | .ascEnc | .ascDec | .hufEnc | .hufDec => true

/-- The same check as a proposition `decide` runs on. -/
abbrev Instr.WellFormed (i : Instr) : Prop := i.wellFormed = true

end Sys2Proof
end

