-- ==== Sys2Proof/Decode.lean ====
section
/-! DEFINITION. The command word: its fields (R80), the four formats (R81), the opcode map (R83), the decoder and its
refusals (R84), and the encoder. -/
namespace Sys2Proof

/-- R80: `op = c[7:0]`. -/
def opOf (c : Word) : BitVec 8 := c.extractLsb' 0 8

/-- R80: `imm8 = c[15:8]`. -/
def imm8Of (c : Word) : BitVec 8 := c.extractLsb' 8 8

/-- R82: `b = c[16]`, 0 = BB[0], 1 = BB[1]. -/
def selOf (c : Word) : BufSel := if c.getLsbD 16 then .b1 else .b0

/-- The bit of the field `b` that names a buffer (R80). -/
def BufSel.bit : BufSel → BitVec 1
  | .b0 => 0
  | .b1 => 1

/-- R81: which fields a command uses. -/
inductive Format where
  | N
  | I
  | B
  | BI
  deriving DecidableEq, Repr

/-- R81, the column "Mask". -/
def Format.mask : Format → Word
  | .N => 0xFFFFFFFF
  | .I => 0xFFFF00FF
  | .B => 0xFFFEFFFF
  | .BI => 0xFFFE00FF

/-- One row of R83. `build` makes the command from the fields its format uses. -/
structure Row where
  mnemonic : String
  op : BitVec 8
  format : Format
  build : BufSel → BitVec 8 → Instr

/-- R83: "since unused fields are 0 it equals the opcode". -/
def Row.pattern (r : Row) : Word := r.op.setWidth 32

/-- R81: a word selects the row whose pattern equals the word under the format's mask. -/
def Row.selects (r : Row) (c : Word) : Bool := c &&& r.format.mask == r.pattern

/-- R83, the BitBuffer and system rows. -/
def bitBufferRows : List Row :=
  [ ⟨"NOP", 0x00, .N, fun _ _ => .nop⟩,
    ⟨"BB_CLEAR", 0x01, .B, fun b _ => .bbClear b⟩,
    ⟨"BB_APPEND", 0x02, .BI, fun b imm => .bbAppend b imm.toNat⟩,
    ⟨"BB_APPENDL", 0x03, .B, fun b _ => .bbAppendl b⟩,
    ⟨"BB_READ", 0x04, .BI, fun b imm => .bbRead b imm.toNat⟩,
    ⟨"BB_REWIND", 0x05, .B, fun b _ => .bbRewind b⟩ ]

/-- R83, the SymbolModel rows. -/
def symbolModelRows : List Row :=
  [ ⟨"TXT_CLEAR", 0x10, .N, fun _ _ => .txtClear⟩,
    ⟨"TXT_PUT", 0x11, .I, fun _ imm => .txtPut imm⟩,
    ⟨"TOKENIZE", 0x12, .N, fun _ _ => .tokenize⟩,
    ⟨"FREQ", 0x13, .N, fun _ _ => .freq⟩,
    ⟨"RUNS", 0x14, .N, fun _ _ => .runs⟩,
    ⟨"DETOK", 0x15, .N, fun _ _ => .detok⟩ ]

/-- R83, the tree, table, codec and container rows. -/
def codecRows : List Row :=
  [ ⟨"HUFF_BUILD", 0x20, .N, fun _ _ => .huffBuild⟩,
    ⟨"TBL_SER", 0x28, .N, fun _ _ => .tblSer⟩,
    ⟨"TBL_DES", 0x29, .N, fun _ _ => .tblDes⟩,
    ⟨"RLE_ENC", 0x30, .N, fun _ _ => .rleEnc⟩,
    ⟨"RLE_DEC", 0x31, .N, fun _ _ => .rleDec⟩,
    ⟨"ASC_ENC", 0x38, .N, fun _ _ => .ascEnc⟩,
    ⟨"ASC_DEC", 0x39, .N, fun _ _ => .ascDec⟩,
    ⟨"HUF_ENC", 0x40, .N, fun _ _ => .hufEnc⟩,
    ⟨"HUF_DEC", 0x41, .N, fun _ _ => .hufDec⟩ ]

/-- R83, the 21 rows. -/
def opcodeTable : List Row := bitBufferRows ++ symbolModelRows ++ codecRows

/-- R84: why a word is illegal. -/
inductive IllegalWord where
  /-- Its `op` is not one of the 21 opcodes. -/
  | unassignedOpcode
  /-- A field its format must hold at 0 (`rsv` among them) is not 0. -/
  | fieldNotZero
  deriving DecidableEq, Repr

/-- R81, R84: the row a word selects gives the command; a word that selects none is illegal. -/
def decode (c : Word) : Except IllegalWord Instr :=
  match opcodeTable.find? (fun r => r.selects c) with
  | some r => .ok (r.build (selOf c) (imm8Of c))
  | none =>
    if opcodeTable.any (fun r => r.op == opOf c) then .error .fieldNotZero else .error .unassignedOpcode

/-- R83: the opcode of a command. -/
def Instr.opcode : Instr → BitVec 8
  | .nop => 0x00
  | .bbClear _ => 0x01
  | .bbAppend _ _ => 0x02
  | .bbAppendl _ => 0x03
  | .bbRead _ _ => 0x04
  | .bbRewind _ => 0x05
  | .txtClear => 0x10
  | .txtPut _ => 0x11
  | .tokenize => 0x12
  | .freq => 0x13
  | .runs => 0x14
  | .detok => 0x15
  | .huffBuild => 0x20
  | .tblSer => 0x28
  | .tblDes => 0x29
  | .rleEnc => 0x30
  | .rleDec => 0x31
  | .ascEnc => 0x38
  | .ascDec => 0x39
  | .hufEnc => 0x40
  | .hufDec => 0x41

/-- R82: the `imm8` field of a command, 0 where its format does not use it. -/
def Instr.imm8 : Instr → BitVec 8
  | .bbAppend _ width => BitVec.ofNat 8 width
  | .bbRead _ count => BitVec.ofNat 8 count
  | .txtPut v => v
  | .nop | .bbClear _ | .bbAppendl _ | .bbRewind _ | .txtClear | .tokenize | .freq | .runs | .detok
  | .huffBuild | .tblSer | .tblDes | .rleEnc | .rleDec | .ascEnc | .ascDec | .hufEnc | .hufDec => 0

/-- R82: the `b` field of a command, 0 where its format does not use it. -/
def Instr.selBit : Instr → BitVec 1
  | .bbClear b | .bbAppend b _ | .bbAppendl b | .bbRead b _ | .bbRewind b => b.bit
  | .nop | .txtClear | .txtPut _ | .tokenize | .freq | .runs | .detok
  | .huffBuild | .tblSer | .tblDes | .rleEnc | .rleDec | .ascEnc | .ascDec | .hufEnc | .hufDec => 0

/-- R80, R90: the command word, fields from bit 31 down: `rsv`, `b`, `imm8`, `op`. -/
def encode (i : Instr) : Word := (0 : BitVec 15) ++ i.selBit ++ i.imm8 ++ i.opcode

/-- The instruction the decoder reads from a table word of `nbits` bits (the host's own question); the bits from
`nbits` up are 0. -/
def decodeTableWord (nbits w : Nat) : Option Instr := (decode (BitVec.ofNat 32 (w % 2 ^ nbits))).toOption

end Sys2Proof
end

