-- ==== Sys2Proof/Machine/State.lean ====
section
/-! DEFINITION. The data model (00_scope.md R12), the whole state of HRC (10_state.md R20), its reset value (R38), and
the reasons a step can stop. -/
namespace Sys2Proof.Machine

/-- R12 `Mode`, the value of the one-bit register MODE (R25). -/
inductive Mode where
  | character
  | word
  deriving DecidableEq, Repr

/-- R12 `Symbol`: one character, or a word. -/
abbrev Symbol := List Chr

/-- R12 `FrequencyTable`. -/
abbrev FreqTab := List (Symbol × Nat)

/-- R12 `CodeMap`: entries (symbol, codeword). -/
abbrev CodeMap := List (Symbol × Bits)

/-- R12 `RunList`. -/
abbrev RunList := List (Symbol × Nat)

/-- R12 `BitBuffer`: the bits and the read cursor. -/
structure BitBuf where
  bits : Bits
  cur : Nat
  deriving DecidableEq, Repr

/-- R104: a fresh buffer, `([], 0)`. -/
def BitBuf.empty : BitBuf := { bits := [], cur := 0 }

/-- R240: the error kinds. The register ERR holds none of them (code 0) or one. -/
inductive ErrKind where
  | invalidSymbol
  | insufficientBits
  | malformedTable
  | truncatedStream
  | fieldOverflow
  | capacityExceeded
  | illegalCommand
  deriving DecidableEq, Repr

/-- R270, R278: what the outside can do between two commands. Accesses name byte addresses of the host's address space, in
which the register window starts at BASE (R69). A write to the address of CMD issues a command (R22). -/
inductive HostEvent where
  /-- The platform applies reset (R270). -/
  | reset
  /-- The host reads the 32-bit word at a byte address. -/
  | read (addr : Nat)
  /-- The host writes the 32-bit word at a byte address. -/
  | write (addr : Nat) (v : Word)
  /-- A byte or half-word access, which the interface does not offer (R66). -/
  | subWord (addr : Nat)
  deriving DecidableEq, Repr

/-- R20: the architectural state, and three fields of the model's own: the parameters, the events the host has yet to
issue, and the values its reads returned (DESIGN CHOICE, log entries 1 and 2). -/
structure State where
  /-- R25. -/
  mode : Mode
  /-- R28. -/
  txt : List Byte
  /-- R29, the artifact buffer BB[0]. -/
  bb0 : BitBuf
  /-- R29, the segment buffer BB[1]. -/
  bb1 : BitBuf
  /-- R30. -/
  syms : List Symbol
  /-- R31. -/
  ft : FreqTab
  /-- R32. -/
  cm : CodeMap
  /-- R33. -/
  rl : RunList
  /-- R27. -/
  w : Wide
  /-- R24; none is the code 0. -/
  err : Option ErrKind
  /-- R24. -/
  errInfo : Word
  /-- R23. -/
  done : Bool
  /-- R23. -/
  degen : Bool
  /-- R28, TXT_ADDR. -/
  txtAddr : Word
  /-- R34, TSEL. -/
  tsel : BitVec 2
  /-- R34, TIDX. -/
  tidx : Word
  /-- R34, TCHI. -/
  tchi : Word
  /-- R8, R69: the parameters. Configuration; no step writes it. -/
  cfg : Config
  /-- R278: the host events of the run not yet performed, oldest first. -/
  pending : List HostEvent
  /-- R278: the values the host's reads returned, oldest first. -/
  replies : List Word
  deriving DecidableEq, Repr

/-- R38: every state element after reset; the parameters at their standard values and no host event yet. -/
def State.reset : State :=
  { mode := .character, txt := [], bb0 := BitBuf.empty, bb1 := BitBuf.empty,
    syms := [], ft := [], cm := [], rl := [],
    w := 0, err := none, errInfo := 0, done := false, degen := false,
    txtAddr := 0, tsel := 0, tidx := 0, tchi := 0,
    cfg := Config.standard, pending := [], replies := [] }

/-- Why a step stops with a fault. No command does: its errors are recorded in ERR (R243) and HRC never halts (R278). -/
inductive Fault where
  /-- Raised by a host read or write below BASE or past BASE + 0xFF: the register window has 256 bytes from BASE (R21,
  R60, R69), so no such register exists. Safe: the machine has no behaviour there. -/
  | outsideWindow (addr : Nat)
  deriving DecidableEq, Repr

/-- Why a step is refused. -/
inductive Refusal where
  /-- Raised by an arm of exec whose instruction has no meaning yet. Safe. -/
  | notModelled (mnemonic : String)
  /-- Raised by a host access at an address that is no multiple of 4: "it is refused, not defined" (R66). Safe. -/
  | misalignedAccess (addr : Nat)
  /-- Raised by a byte or half-word host access: "it is refused, not defined" (R66). Safe. -/
  | subWordAccess (addr : Nat)
  deriving DecidableEq, Repr

/-- The three outcomes of a step of this machine. -/
abbrev Outcome := Host.Outcome State Fault Refusal

/-- R13 `raise E(info)`: what ends a command early. -/
structure Raise where
  kind : ErrKind
  info : Nat
  deriving DecidableEq, Repr

/-- The result of a command's pseudocode: a value, or the first raise it reaches (R13, R244). -/
abbrev Result (α : Type) := Except Raise α

end Sys2Proof.Machine
end

