-- ==== Sys2Proof/Machine/Bits.lean ====
section
/-! DEFINITION. Bit sequences and numbers (00_scope.md R9, R10) and the byte view of a bit sequence (20_memory.md R62
to R64). -/
namespace Sys2Proof.Machine

/-- R10 `Bits(v, w)`: the `w` bits of `v`, most significant first. R10 defines it for `v < 2^w` only; that a larger `v`
gives its low `w` bits is the model's choice (DESIGN CHOICE, log entry 16). -/
def bits (v : Nat) : Nat → Bits
  | 0 => []
  | w + 1 => v.testBit w :: bits v w

/-- R10 `Val(s)`: the number whose most significant bit is the first. -/
def val (s : Bits) : Nat := s.foldl (fun n b => 2 * n + b.toNat) 0

/-- R10 `s[i ..< j]`. R10 gives it for indices of `s`; that a `j` past the end gives the elements up to the end is the
model's choice (DESIGN CHOICE, log entry 17). -/
def slice {α : Type} (s : List α) (i j : Nat) : List α := (s.drop i).take (j - i)

/-- R9 `bit_length(n)`. -/
def bitLength (n : Nat) : Nat := if n = 0 then 0 else Nat.log2 n + 1

/-- R62: the sequence followed by zero bits up to a multiple of 8. -/
def padded (s : Bits) : Bits := s ++ List.replicate ((8 - s.length % 8) % 8) false

/-- R62 `Bytes(s)`: the first bit is bit 7 of byte 0. -/
def bytesOf (s : Bits) : List Byte :=
  (List.range ((s.length + 7) / 8)).map fun k => BitVec.ofNat 8 (val (slice (padded s) (8 * k) (8 * k + 8)))

/-- R63 `Unbytes(bytes, n)`: the first `n` bits of the bytes. R63 defines it for `n <= 8 * |bytes|` only; that a larger `n`
gives all the bits of the bytes is the model's choice (DESIGN CHOICE, log entry 15). -/
def unbytes (bytes : List Byte) (n : Nat) : Bits := (bytes.flatMap fun b => bits b.toNat 8).take n

/-- R64: the artifact a bit sequence stands for, its bytes and its exact length in bits. -/
def artifact (s : Bits) : List Byte × Nat := (bytesOf s, s.length)

/-- A number read as a character of the input domain: 127 and above are none (R12, R89). -/
def chr? (n : Nat) : Option Chr := if h : n < 127 then some ⟨n, h⟩ else none

/-- A character as a byte of the text buffer. -/
def chrByte (c : Chr) : Byte := BitVec.ofNat 8 c.val

end Sys2Proof.Machine
end

