-- ==== Sys2Proof/Machine/Flags.lean ====
section
/-! DEFINITION. The status flags (10_state.md R23, R40) and the codes of the error register (60_exceptions.md R240). -/
namespace Sys2Proof.Machine

/-- R240: the code written to `ERR[7:0]`. -/
def ErrKind.code : ErrKind → BitVec 8
  | .invalidSymbol => 1
  | .insufficientBits => 2
  | .malformedTable => 3
  | .truncatedStream => 4
  | .fieldOverflow => 5
  | .capacityExceeded => 6
  | .illegalCommand => 7

/-- R24: the value of `ERR[7:0]`, 0 when no error is recorded. -/
def errCode (s : State) : BitVec 8 :=
  match s.err with
  | none => 0
  | some k => k.code

/-- R23 ERRF: 1 exactly when ERR is not 0. -/
def errFlag (s : State) : Bool := s.err.isSome

/-- R23 BUSY: a command is one atomic step, so no host read sees 1 (R273; DEDUCED, log entry 13). -/
def busyFlag (_s : State) : Bool := false

/-- R23: the word STATUS reads as, [0] BUSY, [1] DONE, [2] ERRF, [3] DEGEN. -/
def statusWord (s : State) : Word :=
  BitVec.ofNat 32
    ((busyFlag s).toNat + 2 * s.done.toNat + 4 * (errFlag s).toNat + 8 * s.degen.toNat)

/-- R148, R212: DEGEN is 1 exactly when the frequency table used has one entry. -/
def degenOf (ft : FreqTab) : Bool := ft.length == 1

/-- R25: the bit of MODE. -/
def Mode.bit : Mode → Nat
  | .character => 0
  | .word => 1

/-- R25: `MODE <- v[0]`. -/
def modeOf (bit : Bool) : Mode := if bit then .word else .character

end Sys2Proof.Machine
end

