-- ==== Sys2Proof/Machine/Operands.lean ====
section
/-! DEFINITION. The operands of the commands (30_encoding.md R82): the buffer select, the register W and its words
(10_state.md R27), and the widening of a read value. -/
namespace Sys2Proof.Machine

/-- R82: the buffer `BB[b]`. -/
def State.bb (s : State) : BufSel → BitBuf
  | .b0 => s.bb0
  | .b1 => s.bb1

/-- The state with the buffer `BB[b]` replaced. -/
def State.setBB (s : State) : BufSel → BitBuf → State
  | .b0, B => { s with bb0 := B }
  | .b1, B => { s with bb1 := B }

/-- R82: `1 − b`, the source of BB_APPENDL b. -/
def otherBuf : BufSel → BufSel
  | .b0 => .b1
  | .b1 => .b0

/-- R82: the value operand of BB_APPEND is the whole 256-bit register W. -/
def appendValue (s : State) : Nat := s.w.toNat

/-- R107: `zext_256(v)`, what BB_READ writes to W. -/
def zext256 (v : Nat) : Wide := BitVec.ofNat 256 v

/-- R27: `Wk = W[32k+31 : 32k]`. -/
def wideWord (w : Wide) (k : Fin 8) : Word := w.extractLsb' (32 * k.val) 32

/-- R27: the value of W after a host write of its word `Wk`. -/
def setWideWord (w : Wide) (k : Fin 8) (v : Word) : Wide :=
  (w &&& ~~~((0xFFFFFFFF : Wide) <<< (32 * k.val))) ||| (v.setWidth 256 <<< (32 * k.val))

end Sys2Proof.Machine
end

