-- ==== Sys2Proof/Machine/Ops.lean ====
section
/-! DEFINITION. The operations every command is written over: the BitBuffer primitives (40_bitbuffer.md R100 to R103),
reads of single bytes and bits, the recording of an error and the leaving of the error state (60_exceptions.md R243,
47_system.md R231), and the command envelope (R243). -/
namespace Sys2Proof.Machine

/-- R13 `raise E(info)`. -/
def raise {α : Type} (kind : ErrKind) (info : Nat) : Result α := .error ⟨kind, info⟩

/-- The capacity line of a rule: `CapacityExceeded(0)` when a buffer would hold more than its capacity (D4). -/
def checkCapacity (cap size : Nat) : Result Unit :=
  if cap < size then raise .capacityExceeded 0 else .ok ()

/-- R100 `AppendBits(B, v, w)`, with `BB_CAP = cap`. -/
def appendBits (cap : Nat) (B : BitBuf) (v width : Nat) : Result BitBuf :=
  if 2 ^ width ≤ v then raise .fieldOverflow 0
  else if cap < B.bits.length + width then raise .capacityExceeded 0
  else .ok { B with bits := B.bits ++ bits v width }

/-- R101 `AppendLiteral(B, s)`, with `BB_CAP = cap`. -/
def appendLiteral (cap : Nat) (B : BitBuf) (t : Bits) : Result BitBuf :=
  if cap < B.bits.length + t.length then raise .capacityExceeded 0
  else .ok { B with bits := B.bits ++ t }

/-- R103 `ReadLim(B, n, lim, E)`: the value read and the buffer with its cursor advanced. R103 gives it for
`lim <= |B.bits|` only; that with a larger `lim` a read past the end takes the value of the bits that are there and moves the
cursor by `n` all the same is the model's choice (DESIGN CHOICE, log entry 17). -/
def readLim (B : BitBuf) (n lim : Nat) (E : ErrKind) : Result (Nat × BitBuf) :=
  if lim - B.cur < n then raise E B.cur
  else .ok (val (slice B.bits B.cur (B.cur + n)), { B with cur := B.cur + n })

/-- R102 `ReadBits(B, n)`. -/
def readBits (B : BitBuf) (n : Nat) : Result (Nat × BitBuf) := readLim B n B.bits.length .insufficientBits

/-- R102 `Remaining(B)`. -/
def remaining (B : BitBuf) : Nat := B.bits.length - B.cur

/-- R13 `MemRead(TXT, i, 1)`: the byte of the text buffer at an index, absent at or past the length. -/
def textByte (s : State) (i : Nat) : Option Byte := s.txt[i]?

/-- The bit of `BB[b]` at a bit index (R60), absent at or past the length. -/
def bufBit (s : State) (b : BufSel) (i : Nat) : Option Bool := (s.bb b).bits[i]?

/-- R28, R29: the text and the bit buffers are within their capacities, and each cursor is within its buffer
(DEDUCED, log entry 8). -/
def Memory.wf (s : State) : Bool :=
  decide (s.txt.length ≤ s.cfg.txtCap.val)
    && decide (s.bb0.bits.length ≤ s.cfg.bbCap.val) && decide (s.bb0.cur ≤ s.bb0.bits.length)
    && decide (s.bb1.bits.length ≤ s.cfg.bbCap.val) && decide (s.bb1.cur ≤ s.bb1.bits.length)

/-- R243, R244, R251, taking an error: ERR gets the kind, ERRINFO the info modulo 2^32, DONE is 0, and every other
element is as before the command. -/
def recordError (r : Raise) (s : State) : State :=
  { s with err := some r.kind, errInfo := BitVec.ofNat 32 r.info, done := false }

/-- R231, R24, leaving the error state: ERR and ERRINFO are 0 and nothing else changes. -/
def clearError (s : State) : State := { s with err := none, errInfo := 0 }

/-- R243: a completed command sets DONE. -/
def complete (s : State) : State := { s with done := true }

/-- R243, R245, the command envelope around a command's pseudocode `body`: refused with no change while ERR is not 0,
else the state the pseudocode leaves with DONE set, or the state before it with the error recorded. -/
def command (body : State → Result State) (s : State) : Outcome :=
  match s.err with
  | some _ => .next s
  | none =>
    match body s with
    | .ok t => .next (complete t)
    | .error r => .next (recordError r s)

/-- R25: a host write of MODE stores the mode and empties the four tables. -/
def setMode (m : Mode) (s : State) : State := { s with mode := m, syms := [], ft := [], cm := [], rl := [] }

end Sys2Proof.Machine
end

