-- ==== Sys2Proof/Machine/SymbolModel.lean ====
section
/-! DEFINITION. 41_symbolmodel.md: text commands, validation, the tokenizer, the frequency table, the run list, the way
back to text, and the bit encoding of one symbol. -/
namespace Sys2Proof.Machine

/-- R120 TXT_CLEAR. -/
def execTxtClear (s : State) : Outcome := command (fun s => .ok { s with txt := [] }) s

/-- R121: the byte is stored unchecked; only the capacity is tested. -/
def txtPutBody (v : Byte) (s : State) : Result State := do
  checkCapacity s.cfg.txtCap.val (s.txt.length + 1)
  return { s with txt := s.txt ++ [v] }

/-- R121 TXT_PUT v. -/
def execTxtPut (v : Byte) (s : State) : Outcome := command (txtPutBody v) s

/-- R122, the loop of `Validate` from index `i` on; the accepted bytes come back as characters. -/
def validateFrom (i : Nat) : List Byte → Result (List Chr)
  | [] => .ok []
  | b :: rest =>
    match chr? b.toNat with
    | none => raise .invalidSymbol i
    | some c => do
      let cs ← validateFrom (i + 1) rest
      return c :: cs

/-- R122 `Validate(t)`. -/
def validate (t : List Byte) : Result (List Chr) := validateFrom 0 t

/-- R123: a finished token, discarded when empty. -/
def flushWord (cur : Symbol) : List Symbol := if cur = [] then [] else [cur]

/-- R123, the word-mode loop, with the token read so far. -/
def tokenizeWords : Symbol → List Chr → List Symbol
  | cur, [] => flushWord cur
  | cur, c :: rest =>
    if c = space then flushWord cur ++ tokenizeWords [] rest else tokenizeWords (cur ++ [c]) rest

/-- R123 `Tokenize(mode, t)`. -/
def tokenize (m : Mode) (t : List Chr) : List Symbol :=
  match m with
  | .character => t.map fun c => [c]
  | .word => tokenizeWords [] t

/-- R124: validate, then tokenize. -/
def tokenizeBody (s : State) : Result State := do
  let t ← validate s.txt
  return { s with syms := tokenize s.mode t }

/-- R124 TOKENIZE. -/
def execTokenize (s : State) : Outcome := command tokenizeBody s

/-- R125: one more occurrence of `y`, in place if it has an entry, else at the end. -/
def countSymbol (y : Symbol) : FreqTab → FreqTab
  | [] => [(y, 1)]
  | (z, n) :: rest => if z = y then (z, n + 1) :: rest else (z, n) :: countSymbol y rest

/-- R125 `FreqTable(s)`. -/
def freqTable (ys : List Symbol) : FreqTab := ys.foldl (fun ft y => countSymbol y ft) []

/-- R126 FREQ. -/
def execFreq (s : State) : Outcome := command (fun s => .ok { s with ft := freqTable s.syms }) s

/-- R127: one more token `y` at the end of a run list. -/
def extendRuns (rl : RunList) (y : Symbol) : RunList :=
  match rl.getLast? with
  | some (z, n) => if z = y then rl.dropLast ++ [(z, n + 1)] else rl ++ [(y, 1)]
  | none => [(y, 1)]

/-- R127 `Runs(s)`. -/
def runsOf (ys : List Symbol) : RunList := ys.foldl extendRuns []

/-- R128 RUNS. -/
def execRuns (s : State) : Outcome := command (fun s => .ok { s with rl := runsOf s.syms }) s

/-- R129: the characters one symbol adds to the text. -/
def symbolText (m : Mode) (y : Symbol) : List Chr :=
  match m with
  | .character => y
  | .word => y ++ [space]

/-- R129 `Detok(mode, s)`, as bytes of the text buffer. -/
def detok (m : Mode) (ys : List Symbol) : List Byte := (ys.flatMap (symbolText m)).map chrByte

/-- R129 `OutLen(mode, y)`. -/
def outLen (m : Mode) (y : Symbol) : Nat :=
  match m with
  | .character => y.length
  | .word => y.length + 1

/-- R130. -/
def detokBody (s : State) : Result State := do
  let t := detok s.mode s.syms
  checkCapacity s.cfg.txtCap.val t.length
  return { s with txt := t }

/-- R130 DETOK. -/
def execDetok (s : State) : Outcome := command detokBody s

/-- R131: the 7 bits of a character. -/
def chrBits (c : Chr) : Bits := bits c.val charW

/-- R131 `SymEnc(mode, y)`. In character mode it is defined only for one-character symbols; any other symbol has the
free value (DESIGN CHOICE, log entry 9). -/
def symEnc (m : Mode) (y : Symbol) : Bits :=
  match m, y with
  | .character, [c] => chrBits c
  | .character, y => Config.symEncUndefined y
  | .word, y => y.flatMap chrBits ++ bits sentinel charW

/-- R132, the word-mode loop of `ReadSym`, with the characters read so far. Each turn takes 7 bits, so `fuel` turns do
when `fuel` is at least the bits left before `lim` (DEDUCED, log entry 10); with none left the next chunk cannot be read. -/
def readWord (lim : Nat) (E : ErrKind) : Nat → BitBuf → Symbol → Result (Symbol × BitBuf)
  | 0, B, _ => raise E B.cur
  | fuel + 1, B, y => do
    let (v, B') ← readLim B charW lim E
    match chr? v with
    | none => return (y, B')
    | some c => readWord lim E fuel B' (y ++ [c])

/-- R132 `ReadSym(B, mode, lim, E)`. What it gives with `lim` past the end of the buffer is the model's choice (DESIGN
CHOICE, log entry 17, at `readLim`). -/
def readSym (B : BitBuf) (m : Mode) (lim : Nat) (E : ErrKind) : Result (Symbol × BitBuf) :=
  match m with
  | .character => do
    let (v, B') ← readLim B charW lim E
    match chr? v with
    | none => raise .invalidSymbol B.cur
    | some c => return ([c], B')
  | .word => readWord lim E (lim - B.cur) B []

end Sys2Proof.Machine
end

