-- ==== Sys2Proof/Machine/Ascii.lean ====
section
/-! DEFINITION. 45_ascii.md: the raw ASCII codec, ASC_ENC and ASC_DEC. -/
namespace Sys2Proof.Machine

/-- R200 `AsciiEnc(t)`. -/
def asciiEncode (t : List Byte) : Result Bits := do
  let cs ← validate t
  return cs.flatMap chrBits

/-- R201. -/
def ascEncBody (s : State) : Result State := do
  let out ← asciiEncode s.txt
  checkCapacity s.cfg.bbCap.val out.length
  return { s with bb0 := ⟨out, 0⟩ }

/-- R201 ASC_ENC. -/
def execAscEnc (s : State) : Outcome := command ascEncBody s

/-- R202, the loop of `AsciiDec`, with the characters read so far. Each turn takes 7 bits, so `fuel` turns do when
`fuel` is at least the bits left (DEDUCED, log entry 10). -/
def readChars : Nat → BitBuf → List Chr → Result (List Chr)
  | 0, _, t => .ok t
  | fuel + 1, B, t =>
    if B.cur < B.bits.length then do
      let (v, B') ← readBits B charW
      match chr? v with
      | none => raise .invalidSymbol B.cur
      | some c => readChars fuel B' (t ++ [c])
    else .ok t

/-- R202 `AsciiDec(B)`: the length is tested before any chunk. -/
def asciiDecode (B : BitBuf) : Result (List Chr) :=
  if B.bits.length % charW ≠ 0 then raise .truncatedStream (B.bits.length - B.bits.length % charW)
  else readChars (remaining B) B []

/-- R203: the capacity line of the command stands before the decoding. -/
def ascDecBody (s : State) : Result State := do
  if s.bb0.bits.length % charW = 0 ∧ s.cfg.txtCap.val < s.bb0.bits.length / charW then
    raise .capacityExceeded 0
  else
    let t ← asciiDecode ⟨s.bb0.bits, 0⟩
    return { s with txt := t.map chrByte, bb0 := { s.bb0 with cur := s.bb0.bits.length } }

/-- R203 ASC_DEC. -/
def execAscDec (s : State) : Outcome := command ascDecBody s

end Sys2Proof.Machine
end

