-- ==== Sys2Proof/Machine/BitBuffer.lean ====
section
/-! DEFINITION. 40_bitbuffer.md section 2: the five BitBuffer commands. -/
namespace Sys2Proof.Machine

/-- R104 BB_CLEAR b. -/
def execBbClear (b : BufSel) (s : State) : Outcome := command (fun s => .ok (s.setBB b BitBuf.empty)) s

/-- R105: AppendBits(BB[b], W, w). -/
def bbAppendBody (b : BufSel) (width : Nat) (s : State) : Result State := do
  let B ← appendBits s.cfg.bbCap.val (s.bb b) (appendValue s) width
  return s.setBB b B

/-- R105 BB_APPEND b, w. -/
def execBbAppend (b : BufSel) (width : Nat) (s : State) : Outcome := command (bbAppendBody b width) s

/-- R106: AppendLiteral(BB[b], BB[1 − b].bits). -/
def bbAppendlBody (b : BufSel) (s : State) : Result State := do
  let B ← appendLiteral s.cfg.bbCap.val (s.bb b) (s.bb (otherBuf b)).bits
  return s.setBB b B

/-- R106 BB_APPENDL b. -/
def execBbAppendl (b : BufSel) (s : State) : Outcome := command (bbAppendlBody b) s

/-- R107: v <- ReadBits(BB[b], n); W <- zext_256(v). -/
def bbReadBody (b : BufSel) (count : Nat) (s : State) : Result State := do
  let (v, B) ← readBits (s.bb b) count
  return { s.setBB b B with w := zext256 v }

/-- R107 BB_READ b, n. -/
def execBbRead (b : BufSel) (count : Nat) (s : State) : Outcome := command (bbReadBody b count) s

/-- R108 BB_REWIND b. -/
def execBbRewind (b : BufSel) (s : State) : Outcome :=
  command (fun s => .ok (s.setBB b { s.bb b with cur := 0 })) s

end Sys2Proof.Machine
end

