-- ==== Sys2Proof/Machine/HuffmanTable.lean ====
section
/-! DEFINITION. 43_huffman_table.md: the table serializer and deserializer, TBL_SER and TBL_DES. -/
namespace Sys2Proof.Machine

/-- R160 `Entry(mode, (sym, cw))`. -/
def entryBits (m : Mode) (e : Symbol × Bits) : Bits := symEnc m e.1 ++ bits e.2.length plenW ++ e.2

/-- R161, the loop of `TableSer` from entry `k` on. -/
def tableSerFrom (m : Mode) (k : Nat) : CodeMap → Result Bits
  | [] => .ok []
  | e :: rest =>
    if maxField8 < e.2.length then raise .fieldOverflow k
    else do
      let out ← tableSerFrom m (k + 1) rest
      return entryBits m e ++ out

/-- R161 `TableSer(mode, cm)`. -/
def tableSer (m : Mode) (cm : CodeMap) : Result Bits := tableSerFrom m 0 cm

/-- R162. -/
def tblSerBody (s : State) : Result State := do
  let seg ← tableSer s.mode s.cm
  checkCapacity s.cfg.bbCap.val seg.length
  return { s with bb1 := ⟨seg, 0⟩ }

/-- R162 TBL_SER. -/
def execTblSer (s : State) : Outcome := command tblSerBody s

/-- R164, one turn of the loop of `TableDes`: SYMBOL, LENGTH, CODE (R163). -/
def readEntry (B : BitBuf) (m : Mode) (lim : Nat) (cm : CodeMap) : Result ((Symbol × Bits) × BitBuf) := do
  let (sym, B1) ← readSym B m lim .malformedTable
  let (plen, B2) ← readLim B1 plenW lim .malformedTable
  if plen = 0 then raise .malformedTable B1.cur
  else
    let (v, B3) ← readLim B2 plen lim .malformedTable
    if cm.any (fun e => e.2 == bits v plen) then raise .malformedTable B2.cur
    else return ((sym, bits v plen), B3)

/-- R164, the loop of `TableDes`. Each turn takes at least one bit, so `fuel` turns do when `fuel` is at least the bits
left before `lim` (DEDUCED, log entry 10). -/
def tableDesLoop (m : Mode) (lim : Nat) : Nat → BitBuf → CodeMap → Result (CodeMap × BitBuf)
  | 0, B, cm => .ok (cm, B)
  | fuel + 1, B, cm =>
    if B.cur < lim then do
      let (e, B') ← readEntry B m lim cm
      tableDesLoop m lim fuel B' (cm ++ [e])
    else .ok (cm, B)

/-- R164 `TableDes(B, mode, lim)`. -/
def tableDes (B : BitBuf) (m : Mode) (lim : Nat) : Result (CodeMap × BitBuf) :=
  tableDesLoop m lim (lim - B.cur) B []

/-- R165: the whole segment from bit 0, in the mode of MODE. -/
def tblDesBody (s : State) : Result State := do
  let (cm, _) ← tableDes ⟨s.bb1.bits, 0⟩ s.mode s.bb1.bits.length
  return { s with cm := cm, bb1 := { s.bb1 with cur := s.bb1.bits.length } }

/-- R165 TBL_DES. -/
def execTblDes (s : State) : Outcome := command tblDesBody s

end Sys2Proof.Machine
end

