-- ==== Sys2Proof/Machine/HuffmanTree.lean ====
section
/-! DEFINITION. 42_huffman_tree.md: nodes and keys, the stable sort, the merge loop, the walk, HUFF_BUILD. -/
namespace Sys2Proof.Machine

/-- R140: the explicit variant type. -/
inductive Node where
  | leaf (sym : Symbol) (freq : Nat)
  | internal (freq : Nat) (left right : Node)
  deriving DecidableEq, Repr

/-- R12: the frequency of either kind of node. -/
def Node.freq : Node → Nat
  | .leaf _ n => n
  | .internal n _ _ => n

/-- R140: 0 for an internal node, 1 for a leaf. -/
def Node.flag : Node → Nat
  | .internal _ _ _ => 0
  | .leaf _ _ => 1

/-- R140: `key(a) <= key(b)`, first by frequency, then by flag. -/
def Node.keyLe (a b : Node) : Bool :=
  decide (a.freq < b.freq) || (decide (a.freq = b.freq) && decide (a.flag ≤ b.flag))

/-- R141: a node put before the first node its key does not exceed, so before every equal one that came after it. -/
def insertNode (n : Node) : List Node → List Node
  | [] => [n]
  | m :: rest => if n.keyLe m then n :: m :: rest else m :: insertNode n rest

/-- R141 `StableSort(l)`. -/
def stableSort : List Node → List Node
  | [] => []
  | n :: rest => insertNode n (stableSort rest)

/-- R142: the initial list. -/
def initialNodes (ft : FreqTab) : List Node := stableSort (ft.map fun e => .leaf e.1 e.2)

/-- R143: the node that replaces the two lowest. -/
def mergedNode (first second : Node) : Node := .internal (first.freq + second.freq) first second

/-- R143: the list after a merge, by `INSERT_POS`. -/
def reinsert (pos : InsertPos) (new : Node) (rest : List Node) : List Node :=
  match pos with
  | .back => stableSort (rest ++ [new])
  | .front => stableSort (new :: rest)

/-- R143, the merge loop. Each turn shortens the list by one, so as many turns as nodes reach one node
(DEDUCED, log entry 10). -/
def mergeLoop (pos : InsertPos) : Nat → List Node → List Node
  | fuel + 1, first :: second :: rest => mergeLoop pos fuel (reinsert pos (mergedNode first second) rest)
  | _, nodes => nodes

/-- R144 `Walk(node, path)`: left is bit 1, right is bit 0. -/
def walk : Node → Bits → CodeMap
  | .leaf sym _, path => [(sym, path)]
  | .internal _ l r, path => walk l (path ++ [true]) ++ walk r (path ++ [false])

/-- R211 `Code(cm, y)`: the codeword of the entry whose symbol is `y`. It is asked only for symbols of the map
(DEDUCED, log entry 11). -/
def codeOf (cm : CodeMap) (y : Symbol) : Bits := (cm.lookup y).getD []

/-- R144: the entries in the order `TABLE_ORDER` asks for. -/
def orderEntries (order : TableOrder) (ft : FreqTab) (cm : CodeMap) : CodeMap :=
  match order with
  | .walk => cm
  | .firstOccurrence => ft.map fun e => (e.1, codeOf cm e.1)

/-- R147 `HuffBuild(ft)`. -/
def huffBuild (cfg : Config) (ft : FreqTab) : CodeMap :=
  match mergeLoop cfg.insertPos ft.length (initialNodes ft) with
  | [] => []
  | .leaf sym _ :: _ => [(sym, [false])]
  | root :: _ => orderEntries cfg.tableOrder ft (walk root [])

/-- R148 HUFF_BUILD. -/
def execHuffBuild (s : State) : Outcome :=
  command (fun s => .ok { s with cm := huffBuild s.cfg s.ft, degen := degenOf s.ft }) s

end Sys2Proof.Machine
end

