-- ==== Sys2Proof/Machine/Container.lean ====
section
/-! DEFINITION. 46_container.md: the Huffman container, HUF_ENC and HUF_DEC. -/
namespace Sys2Proof.Machine

/-- R210 `XOf(L)`: the bytes that hold `L`, at least one. -/
def xOf (L : Nat) : Nat := max xMin ((bitLength L + 7) / 8)

/-- R211: the payload, "the concatenation of each input symbol's codeword in input order". -/
def payloadBits (cm : CodeMap) (syms : List Symbol) : Bits := syms.flatMap (codeOf cm)

/-- R211: the artifact from the mode, the table segment and the payload. -/
def containerBits (m : Mode) (seg payload : Bits) : Bits :=
  bits m.bit modeW ++ bits (xOf seg.length) xlenW ++ bits seg.length (8 * xOf seg.length) ++ seg ++ payload

/-- What `HuffEnc` returns (R211). -/
structure HuffEncoded where
  syms : List Symbol
  ft : FreqTab
  cm : CodeMap
  seg : Bits
  out : Bits
  deriving DecidableEq, Repr

/-- R211 `HuffEnc(mode, t)`. -/
def huffEncode (cfg : Config) (m : Mode) (t : List Byte) : Result HuffEncoded := do
  let cs ← validate t
  let syms := tokenize m cs
  let ft := freqTable syms
  let cm := huffBuild cfg ft
  let seg ← tableSer m cm
  if maxField8 < xOf seg.length then raise .fieldOverflow 0
  else return ⟨syms, ft, cm, seg, containerBits m seg (payloadBits cm syms)⟩

/-- R212. -/
def hufEncBody (s : State) : Result State := do
  let r ← huffEncode s.cfg s.mode s.txt
  checkCapacity s.cfg.bbCap.val r.out.length
  return { s with
    syms := r.syms, ft := r.ft, cm := r.cm, degen := degenOf r.ft, bb1 := ⟨r.seg, 0⟩, bb0 := ⟨r.out, 0⟩ }

/-- R212 HUF_ENC. -/
def execHufEnc (s : State) : Outcome := command hufEncBody s

/-- R213 `PayloadDec`, over the bits left: `pos` is the cursor, `start` where the pending codeword began, `acc` its bits
so far, `out` the symbols found. -/
def payloadLoop (cm : CodeMap) : Bits → Nat → Nat → Bits → List Symbol → Result (List Symbol)
  | [], _, start, acc, out => if acc = [] then .ok out else raise .malformedTable start
  | b :: rest, pos, start, acc, out =>
    match cm.find? (fun e => e.2 == acc ++ [b]) with
    | some e => payloadLoop cm rest (pos + 1) (pos + 1) [] (out ++ [e.1])
    | none => payloadLoop cm rest (pos + 1) start (acc ++ [b]) out

/-- R213 `PayloadDec(B, cm)`: from the cursor to the end of the buffer. -/
def payloadDecode (B : BitBuf) (cm : CodeMap) : Result (List Symbol) :=
  payloadLoop cm (B.bits.drop B.cur) B.cur B.cur [] []

/-- What `HuffDec` returns (R214). -/
structure HuffDecoded where
  mode : Mode
  seg : Bits
  cm : CodeMap
  syms : List Symbol
  txt : List Byte
  deriving DecidableEq, Repr

/-- R214 `total`. -/
def symsTotal (m : Mode) (syms : List Symbol) : Nat := (syms.map (outLen m)).sum

/-- R214 `HuffDec(B)`, with `TXT_CAP = cap`. -/
def huffDecode (cap : Nat) (B : BitBuf) : Result HuffDecoded := do
  let (mb, B1) ← readBits B modeW
  let (x, B2) ← readBits B1 xlenW
  let (L, B3) ← readBits B2 (8 * x)
  let m := modeOf (mb == 1)
  if remaining B3 < L then raise .insufficientBits B3.cur
  else
    let (cm, B4) ← tableDes B3 m (B3.cur + L)
    let syms ← payloadDecode B4 cm
    if cap < symsTotal m syms then raise .capacityExceeded 0
    else return ⟨m, slice B.bits B3.cur (B3.cur + L), cm, syms, detok m syms⟩

/-- R215: the whole of BB[0] from bit 0; FT and RL are emptied, DEGEN is kept. -/
def hufDecBody (s : State) : Result State := do
  let r ← huffDecode s.cfg.txtCap.val ⟨s.bb0.bits, 0⟩
  return { s with
    mode := r.mode, bb1 := ⟨r.seg, 0⟩, cm := r.cm, syms := r.syms, txt := r.txt, ft := [], rl := [],
    bb0 := { s.bb0 with cur := s.bb0.bits.length } }

/-- R215 HUF_DEC. -/
def execHufDec (s : State) : Outcome := command hufDecBody s

end Sys2Proof.Machine
end

