-- ==== Sys2Proof/Machine/Rle.lean ====
section
/-! DEFINITION. 44_rle.md: the RLE codec, RLE_ENC and RLE_DEC. -/
namespace Sys2Proof.Machine

/-- R180: the largest run length, 0 for no run. -/
def maxRun (rl : RunList) : Nat := rl.foldl (fun m e => max m e.2) 0

/-- R180 `FreqWidth(rl)`. -/
def freqWidth (rl : RunList) : Nat := bitLength (maxRun rl)

/-- R181: one run of the payload, the run length first. -/
def runBits (m : Mode) (width : Nat) (e : Symbol × Nat) : Bits := bits e.2 width ++ symEnc m e.1

/-- R181: the artifact of a run list, header and payload. -/
def rleBits (m : Mode) (rl : RunList) : Bits :=
  bits m.bit modeW ++ bits (freqWidth rl) fwidW ++ rl.flatMap (runBits m (freqWidth rl))

/-- What `RleEnc` returns (R181). -/
structure RleEncoded where
  syms : List Symbol
  rl : RunList
  out : Bits
  deriving DecidableEq, Repr

/-- R181 `RleEnc(mode, t)`. -/
def rleEncode (m : Mode) (t : List Byte) : Result RleEncoded := do
  let cs ← validate t
  let syms := tokenize m cs
  let rl := runsOf syms
  if maxField8 < freqWidth rl then raise .fieldOverflow 0
  else return ⟨syms, rl, rleBits m rl⟩

/-- R182. -/
def rleEncBody (s : State) : Result State := do
  let r ← rleEncode s.mode s.txt
  checkCapacity s.cfg.bbCap.val r.out.length
  return { s with syms := r.syms, rl := r.rl, bb0 := ⟨r.out, 0⟩ }

/-- R182 RLE_ENC. -/
def execRleEnc (s : State) : Outcome := command rleEncBody s

/-- R183, the loop of `RleDec`: runs until the input is exhausted. Each turn takes at least 7 bits, so `fuel` turns do
when `fuel` is at least the bits left (DEDUCED, log entry 10). -/
def readRuns (m : Mode) (width : Nat) : Nat → BitBuf → RunList → Result RunList
  | 0, _, rl => .ok rl
  | fuel + 1, B, rl =>
    if B.cur < B.bits.length then do
      let (n, B1) ← readBits B width
      let (sym, B2) ← readSym B1 m B.bits.length .insufficientBits
      readRuns m width fuel B2 (rl ++ [(sym, n)])
    else .ok rl

/-- R183 `total`: the bytes the runs stand for, an exact natural (R233). -/
def runsTotal (m : Mode) (rl : RunList) : Nat := (rl.map fun e => e.2 * outLen m e.1).sum

/-- R183 `syms`: every symbol repeated as often as its run says. -/
def expandRuns (rl : RunList) : List Symbol := rl.flatMap fun e => List.replicate e.2 e.1

/-- What `RleDec` returns (R183). -/
structure RleDecoded where
  mode : Mode
  rl : RunList
  syms : List Symbol
  txt : List Byte
  deriving DecidableEq, Repr

/-- R183 `RleDec(B)`, with `TXT_CAP = cap`; `total` is compared before `syms` is built. -/
def rleDecode (cap : Nat) (B : BitBuf) : Result RleDecoded := do
  let (mb, B1) ← readBits B modeW
  let (width, B2) ← readBits B1 fwidW
  let m := modeOf (mb == 1)
  let rl ← readRuns m width (remaining B2) B2 []
  if cap < runsTotal m rl then raise .capacityExceeded 0
  else return ⟨m, rl, expandRuns rl, detok m (expandRuns rl)⟩

/-- R184: the whole of BB[0] from bit 0; FT and CM are emptied. -/
def rleDecBody (s : State) : Result State := do
  let r ← rleDecode s.cfg.txtCap.val ⟨s.bb0.bits, 0⟩
  return { s with
    mode := r.mode, rl := r.rl, syms := r.syms, txt := r.txt, ft := [], cm := [],
    bb0 := { s.bb0 with cur := s.bb0.bits.length } }

/-- R184 RLE_DEC. -/
def execRleDec (s : State) : Outcome := command rleDecBody s

end Sys2Proof.Machine
end

