-- ==== Sys2Proof/Machine/System.lean ====
section
/-! DEFINITION. 47_system.md: NOP (R230). -/
namespace Sys2Proof.Machine

/-- R230 NOP: nothing but DONE. -/
def execNop (s : State) : Outcome := command (fun s => .ok s) s

end Sys2Proof.Machine
end

