-- ==== Sys2Proof/Machine/Dispatch.lean ====
section
/-! DEFINITION. A host write of a command's word to CMD: one arm per command, each its meaning under the envelope of R243
(30_encoding.md R83; DEDUCED, log entry 3). -/
namespace Sys2Proof.Machine

def exec (i : Instr) (s : State) : Host.Outcome State Fault Refusal :=
  match i with
  | .nop => Sys2Proof.Machine.execNop s
  | .bbClear b => Sys2Proof.Machine.execBbClear b s
  | .bbAppend b width => Sys2Proof.Machine.execBbAppend b width s
  | .bbAppendl b => Sys2Proof.Machine.execBbAppendl b s
  | .bbRead b count => Sys2Proof.Machine.execBbRead b count s
  | .bbRewind b => Sys2Proof.Machine.execBbRewind b s
  | .txtClear => Sys2Proof.Machine.execTxtClear s
  | .txtPut v => Sys2Proof.Machine.execTxtPut v s
  | .tokenize => Sys2Proof.Machine.execTokenize s
  | .freq => Sys2Proof.Machine.execFreq s
  | .runs => Sys2Proof.Machine.execRuns s
  | .detok => Sys2Proof.Machine.execDetok s
  | .huffBuild => Sys2Proof.Machine.execHuffBuild s
  | .tblSer => Sys2Proof.Machine.execTblSer s
  | .tblDes => Sys2Proof.Machine.execTblDes s
  | .rleEnc => Sys2Proof.Machine.execRleEnc s
  | .rleDec => Sys2Proof.Machine.execRleDec s
  | .ascEnc => Sys2Proof.Machine.execAscEnc s
  | .ascDec => Sys2Proof.Machine.execAscDec s
  | .hufEnc => Sys2Proof.Machine.execHufEnc s
  | .hufDec => Sys2Proof.Machine.execHufDec s

end Sys2Proof.Machine
end

