-- ==== Sys2Proof/Machine/HostPort.lean ====
section
/-! DEFINITION. The register window (10_state.md R21): which register an offset names, what a host read returns, what a
host write does, the text port (R28) and the table port (R34). A write of CMD is in Machine/Events.lean. -/
namespace Sys2Proof.Machine

/-- R21: the registers of the map. -/
inductive Reg where
  | cmd
  | status
  | err
  | errInfo
  | mode
  | txtLen
  | txtAddr
  | txtData
  | bbLen (b : BufSel)
  | bbCur (b : BufSel)
  | tsel
  | tidx
  | tchi
  | tcnt
  | tsymLen
  | tsymCh
  | tval
  | w (k : Fin 8)
  | tcw (k : Fin 8)
  deriving DecidableEq, Repr

/-- R21, the column "Offset". -/
def Reg.offset : Reg → Nat
  | .cmd => 0x00
  | .status => 0x04
  | .err => 0x08
  | .errInfo => 0x0C
  | .mode => 0x10
  | .txtLen => 0x14
  | .txtAddr => 0x18
  | .txtData => 0x1C
  | .bbLen .b0 => 0x20
  | .bbCur .b0 => 0x24
  | .bbLen .b1 => 0x28
  | .bbCur .b1 => 0x2C
  | .tsel => 0x30
  | .tidx => 0x34
  | .tchi => 0x38
  | .tcnt => 0x3C
  | .tsymLen => 0x40
  | .tsymCh => 0x44
  | .tval => 0x48
  | .w k => 0x60 + 4 * k.val
  | .tcw k => 0x80 + 4 * k.val

/-- Every register of the map. -/
def allRegs : List Reg :=
  [.cmd, .status, .err, .errInfo, .mode, .txtLen, .txtAddr, .txtData,
   .bbLen .b0, .bbCur .b0, .bbLen .b1, .bbCur .b1, .tsel, .tidx, .tchi, .tcnt, .tsymLen, .tsymCh, .tval]
    ++ (List.finRange 8).map Reg.w ++ (List.finRange 8).map Reg.tcw

/-- R21: the register at an offset; none where the offset is reserved. -/
def regAt (off : Nat) : Option Reg := allRegs.find? fun r => r.offset == off

/-- What the table port shows of one entry: its symbol, the number TVAL reads and the codeword TCW reads (R34). -/
structure PortEntry where
  sym : Symbol
  value : Nat
  code : Bits
  deriving DecidableEq, Repr

/-- R34: the table `x[TSEL]` selects, 0 SYMS, 1 FT, 2 CM, 3 RL, as the port shows its entries. -/
def portTable (s : State) : List PortEntry :=
  if s.tsel = 0 then s.syms.map fun y => ⟨y, 0, []⟩
  else if s.tsel = 1 then s.ft.map fun e => ⟨e.1, e.2, []⟩
  else if s.tsel = 2 then s.cm.map fun e => ⟨e.1, e.2.length, e.2⟩
  else s.rl.map fun e => ⟨e.1, e.2, []⟩

/-- R34: the entry `T[i]` with `i = x[TIDX]`; none when `i >= |T|`. -/
def portEntry (s : State) : Option PortEntry := (portTable s)[s.tidx.toNat]?

/-- R34 TCNT. -/
def portCount (s : State) : Nat := (portTable s).length

/-- R34 TSYMLEN. -/
def portSymLen (s : State) : Nat :=
  match portEntry s with
  | some e => e.sym.length
  | none => 0

/-- R34 TSYMCH. -/
def portSymCh (s : State) : Nat :=
  match portEntry s with
  | some e =>
    match e.sym[s.tchi.toNat]? with
    | some c => c.val
    | none => 0
  | none => 0

/-- R34 TVAL. -/
def portVal (s : State) : Nat :=
  match portEntry s with
  | some e => e.value
  | none => 0

/-- R34 TCW: `Val(cw) mod 2^256`, the last codeword bit being bit 0. -/
def portCode (s : State) : Wide :=
  match portEntry s with
  | some e => BitVec.ofNat 256 (val e.code)
  | none => 0

/-- R28 TXT_DATA: 0 at or past the length. -/
def textData (s : State) : Word :=
  match textByte s s.txtAddr.toNat with
  | some b => b.setWidth 32
  | none => 0

/-- R21, R22 to R34: the value a host read of a register returns; lengths and cursors modulo 2^32
(DEDUCED, log entry 12). -/
def readReg (s : State) : Reg → Word
  | .cmd => 0
  | .status => statusWord s
  | .err => (errCode s).setWidth 32
  | .errInfo => s.errInfo
  | .mode => BitVec.ofNat 32 s.mode.bit
  | .txtLen => BitVec.ofNat 32 s.txt.length
  | .txtAddr => s.txtAddr
  | .txtData => textData s
  | .bbLen b => BitVec.ofNat 32 (s.bb b).bits.length
  | .bbCur b => BitVec.ofNat 32 (s.bb b).cur
  | .tsel => s.tsel.setWidth 32
  | .tidx => s.tidx
  | .tchi => s.tchi
  | .tcnt => BitVec.ofNat 32 (portCount s)
  | .tsymLen => BitVec.ofNat 32 (portSymLen s)
  | .tsymCh => BitVec.ofNat 32 (portSymCh s)
  | .tval => BitVec.ofNat 32 (portVal s)
  | .w k => wideWord s.w k
  | .tcw k => wideWord (portCode s) k

/-- R21: what a host read at an offset of the window returns; a reserved offset reads 0. -/
def readOffset (s : State) (off : Nat) : Word :=
  match regAt off with
  | some r => readReg s r
  | none => 0

/-- R21, R68: what a host write stores. Read-only registers ignore it, ERR is cleared whatever the value (R24), MODE
keeps bit 0 and empties the tables (R25), and CMD holds no value (R22). -/
def writeReg (r : Reg) (v : Word) (s : State) : State :=
  match r with
  | .err => clearError s
  | .mode => setMode (modeOf (v.getLsbD 0)) s
  | .txtAddr => { s with txtAddr := v }
  | .tsel => { s with tsel := v.setWidth 2 }
  | .tidx => { s with tidx := v }
  | .tchi => { s with tchi := v }
  | .w k => { s with w := setWideWord s.w k v }
  | .cmd | .status | .errInfo | .txtLen | .txtData | .bbLen _ | .bbCur _ | .tcnt | .tsymLen | .tsymCh | .tval
  | .tcw _ => s

end Sys2Proof.Machine
end

