-- ==== Sys2Proof/Machine/Events.lean ====
section
/-! DEFINITION. The host events (70_reset_and_hazards.md R270, R278): reset, register reads and writes, and the issue of a
command by a write of CMD (10_state.md R22, 60_exceptions.md R243). -/
namespace Sys2Proof.Machine

/-- R243, a write of the word `c` to CMD: refused while ERR is not 0 (before the legality test, R247), IllegalCommand for
an illegal word (R251), else the command. -/
def issue (c : Word) (s : State) : Outcome :=
  match s.err with
  | some _ => .next s
  | none =>
    match decode c with
    | .error _ => .next (recordError ⟨.illegalCommand, c.toNat⟩ s)
    | .ok i => exec i s

/-- R21: a host write at an offset of the window; a reserved offset ignores it. -/
def writeOffset (off : Nat) (v : Word) (s : State) : Outcome :=
  match regAt off with
  | some .cmd => issue v s
  | some r => .next (writeReg r v s)
  | none => .next s

/-- R66, R69, R21: the access of a byte address reaches the register window only inside the 256 bytes from BASE and
aligned, and goes on at the offset from BASE (DEDUCED and DESIGN CHOICE, log entry 4). -/
def access (base addr : Nat) (k : Nat → Outcome) : Outcome :=
  if addr < base ∨ base + 256 ≤ addr then .fault (.outsideWindow addr)
  else if addr % 4 ≠ 0 then .refused (.misalignedAccess addr)
  else k (addr - base)

/-- R270: every state element at its reset value. The parameters, the rest of the run and the replies so far are not
state elements of HRC and stay (DESIGN CHOICE, log entry 5). -/
def applyReset (s : State) : State :=
  { State.reset with cfg := s.cfg, pending := s.pending, replies := s.replies }

/-- R278: the effect of one host event. -/
def perform (e : HostEvent) (s : State) : Outcome :=
  match e with
  | .reset => .next (applyReset s)
  | .read addr => access s.cfg.base addr fun off => .next { s with replies := s.replies ++ [readOffset s off] }
  | .write addr v => access s.cfg.base addr fun off => writeOffset off v s
  | .subWord addr => .refused (.subWordAccess addr)

/-- R278, R271: the oldest pending event is performed; with none pending HRC waits for the host. -/
def nextEvent (s : State) : Outcome :=
  match s.pending with
  | [] => .next s
  | e :: rest => perform e { s with pending := rest }

end Sys2Proof.Machine
end

