-- ==== Sys2Proof/Machine/Step.lean ====
section
/-! DEFINITION. One step of HRC, and how a command word is placed where the next step takes it. -/
namespace Sys2Proof.Machine

/-- One step: one host event (70_reset_and_hazards.md R278). -/
def step (s : State) : Host.Outcome State Fault Refusal := nextEvent s

/-- The state in which the host's next event is the write of the word `w` to CMD (R22), so that the next step issues it.
HRC fetches nothing (R26, R72); a program is the host's list of events (DESIGN CHOICE, log entry 2). -/
def State.withFetchWord (s : State) (nbits w : Nat) : State :=
  { s with pending := HostEvent.write (s.cfg.base + Reg.cmd.offset) (BitVec.ofNat 32 (w % 2 ^ nbits)) :: s.pending }

end Sys2Proof.Machine
end

