-- ==== Sys2Proof/Machine/TableParser.lean ====
section
/-! DEFINITION. 43_huffman_table.md R163: the table deserializer as the document describes it, a machine with the three
states SYMBOL, LENGTH and CODE. TBL_DES and HUF_DEC run the loop of R164 (`tableDes`); this machine is its other
description, and a statement says that the two agree. -/
namespace Sys2Proof.Machine

/-- R163: the states, with what the machine has read of the current entry. -/
inductive ParserState where
  | symbol (sym : Symbol)
  | length (sym : Symbol)
  | code (sym : Symbol) (plen : Nat)
  deriving DecidableEq, Repr

/-- R163: the machine inside one command: its state, the buffer with the read position, the entries so far. -/
structure Parser where
  st : ParserState
  buf : BitBuf
  cm : CodeMap
  deriving DecidableEq, Repr

/-- R163: the start, in SYMBOL with `sym = []`. -/
def Parser.start (B : BitBuf) : Parser := { st := .symbol [], buf := B, cm := [] }

/-- R163, the rows of the state SYMBOL: stop at an entry boundary with `pos = lim`, else read one chunk. -/
def symbolTurn (m : Mode) (lim : Nat) (p : Parser) (sym : Symbol) : Result (Option Parser) :=
  if sym = [] ∧ p.buf.cur = lim then .ok none
  else do
    let (v, B) ← readLim p.buf charW lim .malformedTable
    match m, chr? v with
    | .character, none => raise .invalidSymbol p.buf.cur
    | .character, some c => return some { p with st := .length [c], buf := B }
    | .word, none => return some { p with st := .length sym, buf := B }
    | .word, some c => return some { p with st := .symbol (sym ++ [c]), buf := B }

/-- R163, the row of the state LENGTH. -/
def lengthTurn (lim : Nat) (p : Parser) (sym : Symbol) : Result (Option Parser) := do
  let (plen, B) ← readLim p.buf plenW lim .malformedTable
  if plen = 0 then raise .malformedTable p.buf.cur
  else return some { p with st := .code sym plen, buf := B }

/-- R163, the row of the state CODE. -/
def codeTurn (lim : Nat) (p : Parser) (sym : Symbol) (plen : Nat) : Result (Option Parser) := do
  let (v, B) ← readLim p.buf plen lim .malformedTable
  if p.cm.any (fun e => e.2 == bits v plen) then raise .malformedTable p.buf.cur
  else return some { st := .symbol [], buf := B, cm := p.cm ++ [(sym, bits v plen)] }

/-- R163: one turn of the machine; none when it stops with the table complete. -/
def parserTurn (m : Mode) (lim : Nat) (p : Parser) : Result (Option Parser) :=
  match p.st with
  | .symbol sym => symbolTurn m lim p sym
  | .length sym => lengthTurn lim p sym
  | .code sym plen => codeTurn lim p sym plen

/-- R163: the machine run for at most `fuel` turns. Each turn but the last takes at least one bit. -/
def runParser (m : Mode) (lim : Nat) : Nat → Parser → Result (CodeMap × BitBuf)
  | 0, p => raise .malformedTable p.buf.cur
  | fuel + 1, p =>
    match parserTurn m lim p with
    | .error r => .error r
    | .ok none => .ok (p.cm, p.buf)
    | .ok (some q) => runParser m lim fuel q

end Sys2Proof.Machine
end

