-- ==== Sys2Proof/Safety.lean ====
section
/-! DEFINITION. The terms the statements use: command words written field by field, the elements of the state and what each
command reads and writes (10_state.md R39), the invariants of the state, and the layouts of 30_encoding.md part B. -/
namespace Sys2Proof.Safety
open Sys2Proof.Machine

/-! ### Command words (R80 to R84), written on numbers and apart from the decoder's own table -/

/-- R90: `op | imm8<<8 | b<<16`. -/
def cmdWord (op imm8 b : Nat) : Word := BitVec.ofNat 32 (op + imm8 * 256 + b * 65536)

/-- R90: `b0|b1`. -/
def selNat : BufSel → Nat
  | .b0 => 0
  | .b1 => 1

/-- R83, R81: for an assigned opcode, whether its format uses `imm8` and whether it uses `b`. -/
def fieldsUsed (op : Nat) : Option (Bool × Bool) :=
  if op ∈ [0x01, 0x03, 0x05] then some (false, true)
  else if op ∈ [0x02, 0x04] then some (true, true)
  else if op = 0x11 then some (true, false)
  else if op ∈ [0x00, 0x10, 0x12, 0x13, 0x14, 0x15, 0x20, 0x28, 0x29, 0x30, 0x31, 0x38, 0x39, 0x40, 0x41] then
    some (false, false)
  else none

/-- R84: the opcode is not assigned, or a field the format must hold at 0 is not 0, `rsv` among them. -/
def illegal (c : Word) : Bool :=
  match fieldsUsed (c.toNat % 256) with
  | none => true
  | some (imm8, b) =>
    (!imm8 && decide (c.toNat / 256 % 256 ≠ 0)) || (!b && decide (c.toNat / 65536 % 2 ≠ 0))
      || decide (c.toNat / 131072 ≠ 0)

/-! ### Outcomes of a command (R243, R244) -/

/-- R244: the state after a command that raised: ERR, ERRINFO and DONE, and nothing else, differ from before. -/
def failed (s : State) (kind : ErrKind) (info : Nat) : State :=
  { s with err := some kind, errInfo := BitVec.ofNat 32 info, done := false }

/-! ### The elements of the state and what a command reads and writes (R20, R39) -/

/-- R20: the elements of the state, a bit buffer as its bits and its cursor. -/
inductive Elem where
  | mode
  | txt
  | bits (b : BufSel)
  | cur (b : BufSel)
  | syms
  | ft
  | cm
  | rl
  | w
  | err
  | errInfo
  | done
  | degen
  | txtAddr
  | tsel
  | tidx
  | tchi
  | cfg
  | pending
  | replies
  deriving DecidableEq, Repr

/-- Two states agree on an element. -/
def Elem.same (s t : State) : Elem → Prop
  | .mode => s.mode = t.mode
  | .txt => s.txt = t.txt
  | .bits b => (s.bb b).bits = (t.bb b).bits
  | .cur b => (s.bb b).cur = (t.bb b).cur
  | .syms => s.syms = t.syms
  | .ft => s.ft = t.ft
  | .cm => s.cm = t.cm
  | .rl => s.rl = t.rl
  | .w => s.w = t.w
  | .err => s.err = t.err
  | .errInfo => s.errInfo = t.errInfo
  | .done => s.done = t.done
  | .degen => s.degen = t.degen
  | .txtAddr => s.txtAddr = t.txtAddr
  | .tsel => s.tsel = t.tsel
  | .tidx => s.tidx = t.tidx
  | .tchi => s.tchi = t.tchi
  | .cfg => s.cfg = t.cfg
  | .pending => s.pending = t.pending
  | .replies => s.replies = t.replies

/-- R39, the column "Writes on success". -/
def writeSet : Instr → List Elem
  | .nop => []
  | .bbClear b => [.bits b, .cur b]
  | .bbAppend b _ => [.bits b]
  | .bbAppendl b => [.bits b]
  | .bbRead b _ => [.cur b, .w]
  | .bbRewind b => [.cur b]
  | .txtClear => [.txt]
  | .txtPut _ => [.txt]
  | .tokenize => [.syms]
  | .freq => [.ft]
  | .runs => [.rl]
  | .detok => [.txt]
  | .huffBuild => [.cm, .degen]
  | .tblSer => [.bits .b1, .cur .b1]
  | .tblDes => [.cm, .cur .b1]
  | .rleEnc => [.syms, .rl, .bits .b0, .cur .b0]
  | .rleDec => [.mode, .rl, .syms, .txt, .ft, .cm, .cur .b0]
  | .ascEnc => [.bits .b0, .cur .b0]
  | .ascDec => [.txt, .cur .b0]
  | .hufEnc => [.syms, .ft, .cm, .degen, .bits .b1, .cur .b1, .bits .b0, .cur .b0]
  | .hufDec => [.mode, .bits .b1, .cur .b1, .cm, .syms, .txt, .ft, .rl, .cur .b0]

/-- R39, the column "Reads". -/
def readSet : Instr → List Elem
  | .nop => []
  | .bbClear _ => []
  | .bbAppend b _ => [.w, .bits b, .cur b]
  | .bbAppendl b => [.bits b, .cur b, .bits (otherBuf b)]
  | .bbRead b _ => [.bits b, .cur b]
  | .bbRewind _ => []
  | .txtClear => []
  | .txtPut _ => [.txt]
  | .tokenize => [.mode, .txt]
  | .freq => [.syms]
  | .runs => [.syms]
  | .detok => [.mode, .syms]
  | .huffBuild => [.ft]
  | .tblSer => [.mode, .cm]
  | .tblDes => [.mode, .bits .b1]
  | .rleEnc => [.mode, .txt]
  | .rleDec => [.bits .b0]
  | .ascEnc => [.txt]
  | .ascDec => [.bits .b0]
  | .hufEnc => [.mode, .txt]
  | .hufDec => [.bits .b0]

/-! ### Invariants -/

/-- In character mode every symbol of a list has exactly one character (R12, R35). -/
abbrev SymbolsFit (m : Mode) (ys : List Symbol) : Prop := m = .character → ∀ y ∈ ys, y.length = 1

/-- R35, the mode invariant. -/
abbrev ModeInv (s : State) : Prop :=
  SymbolsFit s.mode s.syms ∧ SymbolsFit s.mode (s.ft.map Prod.fst) ∧ SymbolsFit s.mode (s.cm.map Prod.fst)
    ∧ SymbolsFit s.mode (s.rl.map Prod.fst)

/-- R31: distinct symbols, every count at least 1. -/
abbrev FreqTabInv (ft : FreqTab) : Prop := (ft.map Prod.fst).Nodup ∧ ∀ e ∈ ft, 1 ≤ e.2

/-- R32: non-empty, pairwise distinct codewords. -/
abbrev CodeMapInv (cm : CodeMap) : Prop := (cm.map Prod.snd).Nodup ∧ ∀ e ∈ cm, e.2 ≠ []

/-- R31, R32, R35: what holds of the four tables between commands. -/
abbrev TablesInv (s : State) : Prop := ModeInv s ∧ FreqTabInv s.ft ∧ CodeMapInv s.cm

/-- R24, R231, R243: ERRINFO is 0 while no error is recorded, and DONE is 0 while one is. -/
abbrev ErrorRegsInv (s : State) : Prop := (s.err = none → s.errInfo = 0) ∧ (s.err ≠ none → s.done = false)

/-- A safe state: the buffers within their capacities and cursors, the error registers consistent, the tables as the
spec says they are between commands. -/
abbrev Safe (s : State) : Prop := Memory.wf s = true ∧ ErrorRegsInv s ∧ TablesInv s

/-! ### Host events -/

/-- R21, R66, R69: an event the interface offers: reset, or an aligned word access inside the window that starts at
`base`. -/
def offered (base : Nat) : HostEvent → Bool
  | .reset => true
  | .read addr => decide (base ≤ addr) && decide (addr < base + 256) && decide (addr % 4 = 0)
  | .write addr _ => decide (base ≤ addr) && decide (addr < base + 256) && decide (addr % 4 = 0)
  | .subWord _ => false

/-- A host read. -/
def isRead : HostEvent → Bool
  | .read _ => true
  | .reset | .write _ _ | .subWord _ => false

/-! ### Layouts (R85 to R87) and code properties (R149, R150) -/

/-- R87: the table segment, one `symbol_encoding ‖ P(8) ‖ codeword(P)` per entry, in order. -/
def tableBits (m : Mode) (cm : CodeMap) : Bits :=
  cm.flatMap fun e => symEnc m e.1 ++ bits e.2.length 8 ++ e.2

/-- R85: the runs of an RLE artifact, `freq(freq_width) ‖ symbol_encoding` each. -/
def runsBits (m : Mode) (width : Nat) (rl : RunList) : Bits :=
  rl.flatMap fun e => bits e.2 width ++ symEnc m e.1

/-- R85: the RLE layout. -/
def rleLayout (m : Mode) (width : Nat) (rl : RunList) : Bits :=
  bits m.bit 1 ++ bits width 8 ++ runsBits m width rl

/-- R85: the header of the Huffman layout, `mode(1) ‖ X(8) ‖ L(8X)`. -/
def huffHeader (m : Mode) (x L : Nat) : Bits := bits m.bit 1 ++ bits x 8 ++ bits L (8 * x)

/-- R87, R88, R164: a table a deserializer accepts: codewords of 1 to 255 bits, pairwise distinct, and symbols the mode
allows. -/
abbrev TableFits (m : Mode) (cm : CodeMap) : Prop :=
  SymbolsFit m (cm.map Prod.fst) ∧ (cm.map Prod.snd).Nodup ∧ ∀ e ∈ cm, 1 ≤ e.2.length ∧ e.2.length ≤ 255

/-! ### Segments that a deserializer rejects (R241, R242), written on the bits and apart from the parsers -/

/-- R164, R166, R167, R132: a table segment that fails after the entries of an acceptable table `cm`, with the error kind
and the bit index, from the segment's start, of the field that fails. -/
inductive BadTable (m : Mode) : Bits → ErrKind → Nat → Prop
  /-- The chunk 127 where a character stands. -/
  | sentinel (cm : CodeMap) (post : Bits) : TableFits m cm → m = .character →
      BadTable m (tableBits m cm ++ bits 127 7 ++ post) .invalidSymbol (tableBits m cm).length
  /-- After the characters `y` of a word (none in character mode), a chunk that would pass the end. -/
  | shortSymbol (cm : CodeMap) (y : Symbol) (tail : Bits) : TableFits m cm → (m = .character → y = []) →
      y.flatMap (fun c => bits c.val 7) ++ tail ≠ [] → tail.length < 7 →
      BadTable m (tableBits m cm ++ y.flatMap (fun c => bits c.val 7) ++ tail) .malformedTable
        ((tableBits m cm).length + 7 * y.length)
  /-- A field `P` that would pass the end. -/
  | shortLength (cm : CodeMap) (y : Symbol) (tail : Bits) : TableFits m cm → SymbolsFit m [y] → tail.length < 8 →
      BadTable m (tableBits m cm ++ symEnc m y ++ tail) .malformedTable
        ((tableBits m cm).length + (symEnc m y).length)
  /-- `P = 0`. -/
  | zeroLength (cm : CodeMap) (y : Symbol) (post : Bits) : TableFits m cm → SymbolsFit m [y] →
      BadTable m (tableBits m cm ++ symEnc m y ++ bits 0 8 ++ post) .malformedTable
        ((tableBits m cm).length + (symEnc m y).length)
  /-- A codeword field that would pass the end. -/
  | shortCode (cm : CodeMap) (y : Symbol) (plen : Nat) (tail : Bits) : TableFits m cm → SymbolsFit m [y] →
      tail.length < plen → plen ≤ 255 →
      BadTable m (tableBits m cm ++ symEnc m y ++ bits plen 8 ++ tail) .malformedTable
        ((tableBits m cm).length + (symEnc m y).length + 8)
  /-- The codeword of an earlier entry `e`. -/
  | repeatedCode (cm : CodeMap) (y : Symbol) (e : Symbol × Bits) (post : Bits) : TableFits m cm → SymbolsFit m [y] →
      e ∈ cm → BadTable m (tableBits m cm ++ symEnc m y ++ bits e.2.length 8 ++ e.2 ++ post) .malformedTable
        ((tableBits m cm).length + (symEnc m y).length + 8)

/-- R85, R183: runs whose lengths fit the width and whose symbols the mode allows. -/
abbrev RunsFit (m : Mode) (width : Nat) (rl : RunList) : Prop :=
  (∀ e ∈ rl, e.2 < 2 ^ width) ∧ SymbolsFit m (rl.map Prod.fst)

/-- R183, R132: the runs of an RLE artifact that fail after whole runs `rl`, with the error kind and the bit index, from
the first run's start, of the field that fails. `f` is a whole run length. -/
inductive BadRuns (m : Mode) (width : Nat) : Bits → ErrKind → Nat → Prop
  /-- A run length that would pass the end. -/
  | shortLength (rl : RunList) (tail : Bits) : RunsFit m width rl → tail ≠ [] → tail.length < width →
      BadRuns m width (runsBits m width rl ++ tail) .insufficientBits (runsBits m width rl).length
  /-- After the characters `y` of a word (none in character mode), a chunk that would pass the end. -/
  | shortSymbol (rl : RunList) (f : Bits) (y : Symbol) (tail : Bits) : RunsFit m width rl → f.length = width →
      (m = .character → y = []) → f ++ y.flatMap (fun c => bits c.val 7) ++ tail ≠ [] → tail.length < 7 →
      BadRuns m width (runsBits m width rl ++ f ++ y.flatMap (fun c => bits c.val 7) ++ tail) .insufficientBits
        ((runsBits m width rl).length + width + 7 * y.length)
  /-- The chunk 127 where a character stands. -/
  | sentinel (rl : RunList) (f post : Bits) : RunsFit m width rl → f.length = width → m = .character →
      BadRuns m width (runsBits m width rl ++ f ++ bits 127 7 ++ post) .invalidSymbol
        ((runsBits m width rl).length + width)

/-! ### The Huffman tree (R143, R144), as steps and paths and apart from the loop and the walk -/

/-- R143: one turn of the merge loop, from a list of nodes to the next. -/
def MergeStep (pos : InsertPos) (l l' : List Node) : Prop :=
  ∃ first second rest, l = first :: second :: rest
    ∧ ((pos = .back ∧ l' = stableSort (rest ++ [.internal (first.freq + second.freq) first second]))
      ∨ (pos = .front ∧ l' = stableSort (.internal (first.freq + second.freq) first second :: rest)))

/-- R144: the symbol of the leaf a path of bits ends at, 1 descending to the left and 0 to the right. -/
def leafAt : Node → Bits → Option Symbol
  | .leaf sym _, [] => some sym
  | .leaf _ _, _ :: _ => none
  | .internal _ _ _, [] => none
  | .internal _ l _, true :: rest => leafAt l rest
  | .internal _ _ r, false :: rest => leafAt r rest

/-- R144: the walk's order of two paths, left before right at the first node where they part. -/
def WalksBefore (a b : Bits) : Prop := ∃ p u v, a = p ++ true :: u ∧ b = p ++ false :: v

/-- R149: no codeword is the beginning of another. -/
def PrefixFree (cm : CodeMap) : Prop := cm.Pairwise fun a b => ¬ a.2 <+: b.2 ∧ ¬ b.2 <+: a.2

/-- R150: the payload bits of a frequency table under a code. -/
def payloadCost (ft : FreqTab) (code : Symbol → Bits) : Nat := (ft.map fun e => e.2 * (code e.1).length).sum

/-- R129: words joined by single spaces, with none before, after or doubled. -/
def joinWords (ws : List Symbol) : List Chr := List.intercalate [space] ws

/-- A word of the tokenizer: non-empty and without the separator (R123). -/
abbrev IsWord (y : Symbol) : Prop := y ≠ [] ∧ space ∉ y

end Sys2Proof.Safety
end

