-- ==== Sys2Proof/Certificates/Slice0/Obligations.lean ====
section
/-! DEFINITION. The statements about HRC, from the numbered rules of spec/. -/
open Sys2Proof Sys2Proof.Machine Sys2Proof.Safety

/-! ## Encoding (30_encoding.md) -/

/-- R83, 95_test_vectors.md section 2: words written out from the encoding decode to the commands they stand for. -/
def Obligations.SampleWordsDecode : Prop :=
  decode 0x00000000 = .ok .nop ∧ decode 0x0001FF02 = .ok (.bbAppend .b1 255)
    ∧ decode 0x00000804 = .ok (.bbRead .b0 8) ∧ decode 0x00010003 = .ok (.bbAppendl .b1)
    ∧ decode 0x00006111 = .ok (.txtPut 0x61) ∧ decode 0x00000020 = .ok .huffBuild
    ∧ decode 0x00000029 = .ok .tblDes ∧ decode 0x00000031 = .ok .rleDec
    ∧ decode 0x00000038 = .ok .ascEnc ∧ decode 0x00000041 = .ok .hufDec

/-- R80 to R83: decoding the word of a well-formed command gives the command back, at every operand. -/
def Obligations.DecodeInvertsEncode : Prop := ∀ i : Instr, i.WellFormed → decode (encode i) = .ok i

/-- R81, R84: a legal word is the word of the one command it decodes to, so no bit of it is dropped. -/
def Obligations.LegalWordIsItsCommandsEncoding : Prop :=
  ∀ (c : Word) (i : Instr), decode c = .ok i → i.WellFormed ∧ encode i = c

/-- R84, R251: a word is illegal exactly when its opcode is unassigned or a field its format must hold at 0 is not 0, and
writing one to CMD while no error stands records IllegalCommand with the word and changes nothing else. The list of host
events is the model's own field (log entry 2), here and wherever a statement speaks of `pending` or `replies`. -/
def Obligations.IllegalWordsAreRecorded : Prop :=
  (∀ c : Word, (∃ e, decode c = .error e) ↔ illegal c = true)
    ∧ ∀ (s : State) (c : Word) (rest : List HostEvent), s.pending = .write (s.cfg.base + 0x00) c :: rest → s.err = none →
        illegal c = true →
        step s = .next { s with pending := rest, err := some .illegalCommand, errInfo := c, done := false }

/-! ## The step and the envelope (10_state.md R22, 60_exceptions.md) -/

/-- R22, R243: when the host's next event writes to CMD a word that decodes to `i`, the step is `exec i` on the state from
which that event has been taken. That a step performs one pending host event is the model's choice (log entry 2), and that
`exec` carries the envelope of R243 too (log entry 3). -/
def Obligations.StepRunsTheDecodedCommand : Prop :=
  ∀ (s : State) (c : Word) (rest : List HostEvent) (i : Instr),
    s.pending = .write (s.cfg.base + 0x00) c :: rest → decode c = .ok i → step s = exec i { s with pending := rest }

/-- R245, R247: while ERR is not 0 every write to CMD, legal or not, changes nothing but the list of events. -/
def Obligations.CommandsRefusedWhileErrorStands : Prop :=
  (∀ (s : State) (c : Word) (rest : List HostEvent), s.pending = .write (s.cfg.base + 0x00) c :: rest → s.err ≠ none →
      step s = .next { s with pending := rest })
    ∧ ∀ (i : Instr) (s : State), s.err ≠ none → exec i s = .next s

/-- R243, R244: a command issued while no error stands either completes, with DONE set and no error, or changes only ERR,
ERRINFO and DONE. -/
def Obligations.FailingCommandHasNoPartialEffect : Prop :=
  ∀ (i : Instr) (s : State), s.err = none →
    (∃ t, exec i s = .next t ∧ t.err = none ∧ t.errInfo = s.errInfo ∧ t.done = true)
      ∨ ∃ kind info, exec i s = .next (failed s kind info)

/-- R39, the column "Writes on success": no command changes an element outside its row but ERR, ERRINFO and DONE; the text
port and table port are changed by none; nor are the parameters, the pending events and the replies, the model's own fields
(log entries 1 and 2). -/
def Obligations.CommandsChangeOnlyTheirWriteSet : Prop :=
  ∀ (i : Instr) (s : State), ∃ t, exec i s = .next t ∧
    ∀ e : Elem, e ∉ writeSet i → e ≠ .err → e ≠ .errInfo → e ≠ .done → e.same s t

/-- R110, R121: the frames of the storing forms, address by address. BB_APPEND b, w stores to the `w` bits after the old
end of BB[b], BB_APPENDL b to as many as the other buffer holds, TXT_PUT to the byte at the old length of TXT; every other
bit of both buffers and every other byte reads as before. -/
def Obligations.StoresTouchOnlyTheirAddresses : Prop :=
  (∀ (b : BufSel) (width : Nat) (s t : State), exec (.bbAppend b width) s = .next t → ∀ a : Nat,
      (¬ ((s.bb b).bits.length ≤ a ∧ a < (s.bb b).bits.length + width) → bufBit t b a = bufBit s b a)
        ∧ bufBit t (otherBuf b) a = bufBit s (otherBuf b) a ∧ textByte t a = textByte s a)
    ∧ (∀ (b : BufSel) (s t : State), exec (.bbAppendl b) s = .next t → ∀ a : Nat,
      (¬ ((s.bb b).bits.length ≤ a ∧ a < (s.bb b).bits.length + (s.bb (otherBuf b)).bits.length) →
          bufBit t b a = bufBit s b a)
        ∧ bufBit t (otherBuf b) a = bufBit s (otherBuf b) a ∧ textByte t a = textByte s a)
    ∧ ∀ (v : Byte) (s t : State), exec (.txtPut v) s = .next t → ∀ a : Nat,
      (a ≠ s.txt.length → textByte t a = textByte s a) ∧ bufBit t .b0 a = bufBit s .b0 a
        ∧ bufBit t .b1 a = bufBit s .b1 a

/-- R39, the column "Reads": two states with the same parameters that agree on what a command reads give the same outcome:
the same error and position, or the same values in everything the command writes. -/
def Obligations.CommandsReadOnlyTheirReadSet : Prop :=
  ∀ (i : Instr) (s1 s2 : State), s1.cfg = s2.cfg → s1.err = none → s2.err = none →
    (∀ e ∈ readSet i, e.same s1 s2) →
    ∃ t1 t2, exec i s1 = .next t1 ∧ exec i s2 = .next t2 ∧ t1.err = t2.err ∧ t1.done = t2.done
      ∧ (t1.err ≠ none → t1.errInfo = t2.errInfo) ∧ (t1.err = none → ∀ e ∈ writeSet i, e.same t1 t2)

/-- R230 NOP: the word 0, and nothing but DONE. -/
def Obligations.NopSetsOnlyDone : Prop :=
  decode 0x00000000 = .ok .nop ∧ ∀ s : State, s.err = none → exec .nop s = .next { s with done := true }

/-! ## Reset and the register window (10_state.md, 70_reset_and_hazards.md R270) -/

/-- R38, R270: the value of every state element after reset, and a reset event puts every one of them there from any
state; the parameters, the remaining events and the replies are the model's own fields and stay, by its choice (log entry 5). -/
def Obligations.ResetGivesTheResetValues : Prop :=
  (State.reset.mode = .character ∧ State.reset.txt = [] ∧ State.reset.bb0 = ⟨[], 0⟩ ∧ State.reset.bb1 = ⟨[], 0⟩
      ∧ State.reset.syms = [] ∧ State.reset.ft = [] ∧ State.reset.cm = [] ∧ State.reset.rl = []
      ∧ State.reset.w = 0 ∧ State.reset.err = none ∧ State.reset.errInfo = 0 ∧ State.reset.done = false
      ∧ State.reset.degen = false ∧ State.reset.txtAddr = 0 ∧ State.reset.tsel = 0 ∧ State.reset.tidx = 0
      ∧ State.reset.tchi = 0)
    ∧ ∀ (s : State) (rest : List HostEvent), s.pending = .reset :: rest →
        step s = .next { State.reset with cfg := s.cfg, pending := rest, replies := s.replies }

/-- R68, R232: a host read at an aligned offset of the window answers the register's value and changes nothing, whether or
not an error stands. -/
def Obligations.HostReadsChangeNothing : Prop :=
  ∀ (s : State) (off : Nat) (rest : List HostEvent), s.pending = .read (s.cfg.base + off) :: rest → off < 256 →
    off % 4 = 0 →
    step s = .next { s with pending := rest, replies := s.replies ++ [readOffset s off] }

/-- R21 to R29: what each register outside the table port reads as; every offset not listed reads 0. STATUS is
[0] BUSY = 0, [1] DONE, [2] ERRF, [3] DEGEN. Two clauses are the model's choice and no rule's: TXT_LEN, BBn_LEN and BBn_CUR
read their number modulo 2^32 in every state (log entry 12; within the capacities it is the number itself), and the read
function gives 0 at an offset that is no multiple of 4, which no step reads (log entry 4; R66 gives it no meaning). -/
def Obligations.RegistersReadTheirState : Prop :=
  ∀ s : State,
    readOffset s 0x00 = 0
      ∧ (∀ j : Nat, (readOffset s 0x04).getLsbD j =
          ((decide (j = 1) && s.done) || (decide (j = 2) && s.err.isSome) || (decide (j = 3) && s.degen)))
      ∧ (readOffset s 0x08).toNat = (match s.err with
          | none => 0
          | some .invalidSymbol => 1
          | some .insufficientBits => 2
          | some .malformedTable => 3
          | some .truncatedStream => 4
          | some .fieldOverflow => 5
          | some .capacityExceeded => 6
          | some .illegalCommand => 7)
      ∧ readOffset s 0x0C = s.errInfo
      ∧ readOffset s 0x10 = (match s.mode with
          | .character => 0
          | .word => 1)
      ∧ readOffset s 0x14 = BitVec.ofNat 32 s.txt.length ∧ readOffset s 0x18 = s.txtAddr
      ∧ (∀ v, s.txt[s.txtAddr.toNat]? = some v → (readOffset s 0x1C).toNat = v.toNat)
      ∧ (s.txt.length ≤ s.txtAddr.toNat → readOffset s 0x1C = 0)
      ∧ readOffset s 0x20 = BitVec.ofNat 32 s.bb0.bits.length ∧ readOffset s 0x24 = BitVec.ofNat 32 s.bb0.cur
      ∧ readOffset s 0x28 = BitVec.ofNat 32 s.bb1.bits.length ∧ readOffset s 0x2C = BitVec.ofNat 32 s.bb1.cur
      ∧ (readOffset s 0x30).toNat = s.tsel.toNat ∧ readOffset s 0x34 = s.tidx ∧ readOffset s 0x38 = s.tchi
      ∧ (∀ k < 8, (readOffset s (0x60 + 4 * k)).toNat = s.w.toNat / 2 ^ (32 * k) % 2 ^ 32)
      ∧ ∀ off, off < 256 → (0x48 < off ∧ off < 0x60 ∨ 0xA0 ≤ off ∨ off % 4 ≠ 0) → readOffset s off = 0

/-- R34, the table port: `T` is the table TSEL selects, each entry with its symbol, the number TVAL shows and the codeword
TCW shows; TCNT, TSYMLEN, TSYMCH, TVAL and TCW0 to TCW7 read from entry TIDX and character TCHI, and 0 past the end. That
TSYMLEN reads its number modulo 2^32 is the model's choice (log entry 12): R34 says so of TCNT and TVAL only. -/
def Obligations.TablePortShowsTheSelectedEntry : Prop :=
  ∀ (s : State) (T : List (Symbol × Nat × Bits)),
    (s.tsel = 0 → T = s.syms.map fun y => (y, 0, [])) → (s.tsel = 1 → T = s.ft.map fun e => (e.1, e.2, [])) →
    (s.tsel = 2 → T = s.cm.map fun e => (e.1, e.2.length, e.2)) →
    (s.tsel = 3 → T = s.rl.map fun e => (e.1, e.2, [])) →
    (readOffset s 0x3C).toNat = T.length % 2 ^ 32
      ∧ (∀ y n cw, T[s.tidx.toNat]? = some (y, n, cw) →
          (readOffset s 0x40).toNat = y.length % 2 ^ 32
            ∧ (∀ c, y[s.tchi.toNat]? = some c → (readOffset s 0x44).toNat = c.val)
            ∧ (y.length ≤ s.tchi.toNat → readOffset s 0x44 = 0)
            ∧ (readOffset s 0x48).toNat = n % 2 ^ 32
            ∧ ∀ k < 8, (readOffset s (0x80 + 4 * k)).toNat = val cw / 2 ^ (32 * k) % 2 ^ 32)
      ∧ (T.length ≤ s.tidx.toNat →
          readOffset s 0x40 = 0 ∧ readOffset s 0x44 = 0 ∧ readOffset s 0x48 = 0
            ∧ ∀ k < 8, readOffset s (0x80 + 4 * k) = 0)

/-- R231, R24: a host write of any value to ERR sets ERR and ERRINFO to 0 and changes nothing else. -/
def Obligations.ErrorClearChangesOnlyErrAndErrInfo : Prop :=
  ∀ (s : State) (v : Word) (rest : List HostEvent), s.pending = .write (s.cfg.base + 0x08) v :: rest →
    step s = .next { s with pending := rest, err := none, errInfo := 0 }

/-- R25, R275: a host write of MODE keeps bit 0 of the value and empties SYMS, FT, CM and RL, whatever the value, and
touches nothing else. -/
def Obligations.ModeWriteEmptiesTheTables : Prop :=
  ∀ (s : State) (v : Word) (rest : List HostEvent), s.pending = .write (s.cfg.base + 0x10) v :: rest →
    step s = .next { s with
      pending := rest, mode := if v.toNat % 2 = 1 then .word else .character, syms := [], ft := [], cm := [], rl := [] }

/-- R27: W is eight words, W0 least significant; a host write of one word sets that word, keeps the other seven and
changes nothing but W. -/
def Obligations.WideRegisterIsEightWords : Prop :=
  ∀ (s : State) (k : Nat) (v : Word) (rest : List HostEvent), k < 8 → s.pending = .write (s.cfg.base + (0x60 + 4 * k)) v :: rest →
    ∃ w : Wide, step s = .next { s with pending := rest, w := w }
      ∧ ∀ j < 8, w.toNat / 2 ^ (32 * j) % 2 ^ 32 = if j = k then v.toNat else s.w.toNat / 2 ^ (32 * j) % 2 ^ 32

/-- R21, R28, R34: a host write of a port selector stores the bits it has; a write of a read-only register or of a
reserved offset is ignored. -/
def Obligations.SelectorAndIgnoredWrites : Prop :=
  ∀ (s : State) (off : Nat) (v : Word) (rest : List HostEvent), s.pending = .write (s.cfg.base + off) v :: rest →
    (off = 0x18 → step s = .next { s with pending := rest, txtAddr := v })
      ∧ (off = 0x30 → ∃ sel : BitVec 2, sel.toNat = v.toNat % 4 ∧ step s = .next { s with pending := rest, tsel := sel })
      ∧ (off = 0x34 → step s = .next { s with pending := rest, tidx := v })
      ∧ (off = 0x38 → step s = .next { s with pending := rest, tchi := v })
      ∧ (off ∈ [0x04, 0x0C, 0x14, 0x1C, 0x20, 0x24, 0x28, 0x2C, 0x3C, 0x40, 0x44, 0x48, 0x4C, 0x50, 0x54, 0x58, 0x5C] →
          step s = .next { s with pending := rest })
      ∧ (0x80 ≤ off → off < 256 → off % 4 = 0 → step s = .next { s with pending := rest })

/-- R66, R21, R69: a sub-word or misaligned access is refused, and an address below BASE or past BASE + 0xFF is no register. The names of the stops and
the order of the two tests are the model's choice (log entry 4). -/
def Obligations.AccessesOutsideTheInterfaceStop : Prop :=
  ∀ (s : State) (addr : Nat) (v : Word) (rest : List HostEvent),
    (s.pending = .subWord addr :: rest → step s = .refused (.subWordAccess addr))
      ∧ (s.pending = .read addr :: rest ∨ s.pending = .write addr v :: rest →
          (addr < s.cfg.base ∨ s.cfg.base + 256 ≤ addr → step s = .fault (.outsideWindow addr))
            ∧ (s.cfg.base ≤ addr → addr < s.cfg.base + 256 → addr % 4 ≠ 0 →
              step s = .refused (.misalignedAccess addr)))

/-- R278, R271: a run of events the interface offers never stops; it performs every event, answers every read once, and
keeps the parameters; with no event pending HRC waits. The parameters in State, the list of events, the replies and the
idle step are the model's choice (log entries 1 and 2). -/
def Obligations.RunPerformsEveryOfferedEvent : Prop :=
  (∀ s : State, (∀ e ∈ s.pending, offered s.cfg.base e = true) →
      ∃ t : State, Host.Core.run core s.pending.length s = .next t ∧ t.pending = []
        ∧ t.replies.length = s.replies.length + (s.pending.filter isRead).length ∧ t.cfg = s.cfg)
    ∧ ∀ s : State, s.pending = [] → step s = .next s

/-! ## BitBuffer (40_bitbuffer.md, 20_memory.md R62 to R64) -/

/-- R104 BB_CLEAR, R108 BB_REWIND: their words and their whole effect. -/
def Obligations.ClearAndRewindABuffer : Prop :=
  ∀ (s : State) (b : BufSel),
    decode (cmdWord 0x01 0 (selNat b)) = .ok (.bbClear b) ∧ decode (cmdWord 0x05 0 (selNat b)) = .ok (.bbRewind b)
      ∧ (s.err = none → exec (.bbClear b) s = .next { s.setBB b ⟨[], 0⟩ with done := true }
          ∧ exec (.bbRewind b) s = .next { s.setBB b ⟨(s.bb b).bits, 0⟩ with done := true })

/-- R105 BB_APPEND, R100: all of W in `width` bits at the end of BB[b], the cursor kept; FieldOverflow when W needs more
bits, before CapacityExceeded when the buffer would pass BB_CAP. -/
def Obligations.AppendWritesTheOperandRegister : Prop :=
  ∀ (s : State) (b : BufSel) (width : Nat),
    (width ≤ 255 → decode (cmdWord 0x02 width (selNat b)) = .ok (.bbAppend b width))
      ∧ (s.err = none →
        (2 ^ width ≤ s.w.toNat → exec (.bbAppend b width) s = .next (failed s .fieldOverflow 0))
          ∧ (s.w.toNat < 2 ^ width → s.cfg.bbCap.val < (s.bb b).bits.length + width →
              exec (.bbAppend b width) s = .next (failed s .capacityExceeded 0))
          ∧ (s.w.toNat < 2 ^ width → (s.bb b).bits.length + width ≤ s.cfg.bbCap.val →
              ∃ new : Bits, new.length = width
                ∧ (∀ j < width, new[j]? = some (s.w.getLsbD (width - 1 - j)))
                ∧ exec (.bbAppend b width) s =
                    .next { s.setBB b ⟨(s.bb b).bits ++ new, (s.bb b).cur⟩ with done := true }))

/-- R106 BB_APPENDL, R101: the whole of the other buffer, from its bit 0, at the end of BB[b]; both cursors and the source
are kept. -/
def Obligations.AppendLiteralTakesTheOtherBuffer : Prop :=
  ∀ (s : State) (b c : BufSel), c ≠ b →
    decode (cmdWord 0x03 0 (selNat b)) = .ok (.bbAppendl b)
      ∧ (s.err = none →
        (s.cfg.bbCap.val < (s.bb b).bits.length + (s.bb c).bits.length →
            exec (.bbAppendl b) s = .next (failed s .capacityExceeded 0))
          ∧ ((s.bb b).bits.length + (s.bb c).bits.length ≤ s.cfg.bbCap.val →
            exec (.bbAppendl b) s =
              .next { s.setBB b ⟨(s.bb b).bits ++ (s.bb c).bits, (s.bb b).cur⟩ with done := true }))

/-- R107 BB_READ, R102: the next `count` bits as a number in W, the first bit read the most significant, and the cursor
past them; InsufficientBits with the cursor when fewer remain. -/
def Obligations.ReadMovesBitsToTheOperandRegister : Prop :=
  ∀ (s : State) (b : BufSel) (count : Nat), count ≤ 255 →
    decode (cmdWord 0x04 count (selNat b)) = .ok (.bbRead b count)
      ∧ (s.err = none →
        ((s.bb b).bits.length - (s.bb b).cur < count →
            exec (.bbRead b count) s = .next (failed s .insufficientBits (s.bb b).cur))
          ∧ (count ≤ (s.bb b).bits.length - (s.bb b).cur →
            ∃ w : Wide, w.toNat < 2 ^ count
              ∧ (∀ j < count, (s.bb b).bits[(s.bb b).cur + j]? = some (w.getLsbD (count - 1 - j)))
              ∧ exec (.bbRead b count) s =
                  .next { s.setBB b ⟨(s.bb b).bits, (s.bb b).cur + count⟩ with w := w, done := true }))

/-- R110, the laws of the primitives. A value appended at the cursor is what the next read of the same width returns; an
append and a read of `w1 + w2` bits are those of `w1` and then `w2` bits; an append keeps the bits before it and the
cursor, and a read keeps the bits; a command on BB[b] does not touch the other buffer. -/
def Obligations.BitBufferLaws : Prop :=
  (∀ (cap : Nat) (B B' : BitBuf) (v width : Nat), B.cur = B.bits.length → appendBits cap B v width = .ok B' →
      ∃ B2, readBits B' width = .ok (v, B2) ∧ B2.cur = B2.bits.length)
    ∧ (∀ (cap : Nat) (B : BitBuf) (v w1 w2 : Nat), v < 2 ^ (w1 + w2) →
      appendBits cap B v (w1 + w2) =
        (appendBits cap B (v >>> w2) w1 >>= fun B' => appendBits cap B' (v % 2 ^ w2) w2))
    ∧ (∀ (B : BitBuf) (n1 n2 : Nat), n1 + n2 ≤ remaining B →
      ∃ x y B1 B2, readBits B n1 = .ok (x, B1) ∧ readBits B1 n2 = .ok (y, B2)
        ∧ readBits B (n1 + n2) = .ok (x * 2 ^ n2 + y, B2))
    ∧ (∀ (cap : Nat) (B B' : BitBuf) (v width : Nat), appendBits cap B v width = .ok B' →
      B.bits <+: B'.bits ∧ B'.cur = B.cur)
    ∧ (∀ (cap : Nat) (B B' : BitBuf) (t : Bits), appendLiteral cap B t = .ok B' → B.bits <+: B'.bits ∧ B'.cur = B.cur)
    ∧ (∀ (B B' : BitBuf) (n v : Nat), readBits B n = .ok (v, B') → B'.bits = B.bits)
    ∧ ∀ (b : BufSel) (n : Nat) (s : State),
      ∀ i ∈ [Instr.bbClear b, .bbAppend b n, .bbAppendl b, .bbRead b n, .bbRewind b],
        ∃ t, exec i s = .next t ∧ t.bb (otherBuf b) = s.bb (otherBuf b)

/-- R62, R63: the byte view has as many bytes as the bits need, its byte `k` holds bit `8k + j` of the sequence in its bit
`7 − j` and 0 past the end, and Unbytes recovers the sequence from the bytes and the length. -/
def Obligations.ByteViewRecoversTheBits : Prop :=
  ∀ s : Bits, (bytesOf s).length = (s.length + 7) / 8
    ∧ (∀ k j, j < 8 → k < (s.length + 7) / 8 →
        ((bytesOf s)[k]?).map (fun v => v.getLsbD (7 - j)) = some ((s[8 * k + j]?).getD false))
    ∧ unbytes (bytesOf s) s.length = s

/-! ## SymbolModel (41_symbolmodel.md) -/

/-- R120 TXT_CLEAR, R121 TXT_PUT: the byte is stored unchecked, at the end; CapacityExceeded when TXT is full. -/
def Obligations.TextCommandsEmptyAndExtendTheText : Prop :=
  decode 0x00000010 = .ok .txtClear
    ∧ ∀ (s : State) (v : Byte), decode (cmdWord 0x11 v.toNat 0) = .ok (.txtPut v)
      ∧ (s.err = none → exec .txtClear s = .next { s with txt := [], done := true }
        ∧ (s.txt.length + 1 ≤ s.cfg.txtCap.val →
            exec (.txtPut v) s = .next { s with txt := s.txt ++ [v], done := true })
        ∧ (s.cfg.txtCap.val < s.txt.length + 1 → exec (.txtPut v) s = .next (failed s .capacityExceeded 0)))

/-- R122: every command that consumes TXT rejects it at the first byte above 126, with the index of that byte, and does
nothing else. -/
def Obligations.InvalidTextIsRejectedAtItsFirstBadByte : Prop :=
  ∀ (s : State) (pre : List Byte) (bad : Byte) (post : List Byte), s.err = none → s.txt = pre ++ bad :: post →
    (∀ v ∈ pre, v.toNat ≤ 126) → 126 < bad.toNat →
    ∀ i ∈ [Instr.tokenize, .rleEnc, .ascEnc, .hufEnc], exec i s = .next (failed s .invalidSymbol pre.length)

/-- R124 TOKENIZE: for every valid text, SYMS gets the tokens of the text under MODE and nothing else changes. -/
def Obligations.TokenizeStoresTheTokens : Prop :=
  decode 0x00000012 = .ok .tokenize
    ∧ ∀ (s : State) (cs : List Chr), s.err = none → s.txt = cs.map chrByte →
        exec .tokenize s = .next { s with syms := tokenize s.mode cs, done := true }

/-- R123: character mode makes one symbol of each character; word mode splits at the byte 32 only, discards empty tokens,
and these equations determine it. -/
def Obligations.TokenizerSplitsAtSpacesOnly : Prop :=
  (∀ t : List Chr, tokenize .character t = t.map fun c => [c])
    ∧ tokenize .word [] = []
    ∧ (∀ t : List Chr, t ≠ [] → space ∉ t → tokenize .word t = [t])
    ∧ (∀ a b : List Chr, tokenize .word (a ++ space :: b) = tokenize .word a ++ tokenize .word b)
    ∧ ∀ t : List Chr, ∀ y ∈ tokenize .word t, IsWord y

/-- R126 FREQ, R125: FT gets one entry per distinct symbol of SYMS, in order of first occurrence, with its number of
occurrences; the counts sum to the number of symbols. -/
def Obligations.FreqCountsInFirstOccurrenceOrder : Prop :=
  decode 0x00000013 = .ok .freq
    ∧ (∀ s : State, s.err = none → exec .freq s = .next { s with ft := freqTable s.syms, done := true })
    ∧ ∀ ys : List Symbol,
        (∀ y n, (y, n) ∈ freqTable ys ↔ y ∈ ys ∧ n = ys.count y)
          ∧ ((freqTable ys).map Prod.fst).Pairwise (fun a b => ys.idxOf a < ys.idxOf b)
          ∧ ((freqTable ys).map Prod.snd).sum = ys.length

/-- R128 RUNS, R127: RL gets the maximal runs of SYMS: they spell SYMS out again, none is empty, and no two neighbours
share their symbol. -/
def Obligations.RunsAreMaximal : Prop :=
  decode 0x00000014 = .ok .runs
    ∧ (∀ s : State, s.err = none → exec .runs s = .next { s with rl := runsOf s.syms, done := true })
    ∧ ∀ ys : List Symbol,
        (runsOf ys).flatMap (fun e => List.replicate e.2 e.1) = ys ∧ (∀ e ∈ runsOf ys, 1 ≤ e.2)
          ∧ ∀ pre a b post, runsOf ys = pre ++ a :: b :: post → a.1 ≠ b.1

/-- R130 DETOK, R129: TXT becomes the symbols' characters in order, in word mode with one space after every word;
CapacityExceeded when that passes TXT_CAP. -/
def Obligations.DetokWritesTheText : Prop :=
  decode 0x00000015 = .ok .detok
    ∧ ∀ (s : State) (t : List Chr), s.err = none → (s.mode = .character → t = s.syms.flatten) →
        (s.mode = .word → t = s.syms.flatMap fun y => y ++ [space]) →
        (t.length ≤ s.cfg.txtCap.val → exec .detok s = .next { s with txt := t.map chrByte, done := true })
          ∧ (s.cfg.txtCap.val < t.length → exec .detok s = .next (failed s .capacityExceeded 0))

/-- R129: the text of a tokenized text is the text itself in character mode, and in word mode, for words joined by single
spaces, the text and one final space; a text without words gives none. -/
def Obligations.TextOfTokensIsTheTextAgain : Prop :=
  (∀ t : List Chr, detok .character (tokenize .character t) = t.map chrByte)
    ∧ (∀ ws : List Symbol, ws ≠ [] → (∀ y ∈ ws, IsWord y) →
        tokenize .word (joinWords ws) = ws
          ∧ detok .word (tokenize .word (joinWords ws)) = (joinWords ws ++ [space]).map chrByte)
    ∧ ∀ t : List Chr, (∀ c ∈ t, c = space) → detok .word (tokenize .word t) = []

/-- R132, R131: ReadSym reads back what SymEnc wrote, wherever it stands; a chunk of 127 in a character position is
InvalidSymbol at that chunk; fewer than 7 bits before the limit are the caller's kind at the cursor, and in word mode, after
the characters of a word without its sentinel, at the chunk that would pass the limit. The rules give the read with a limit
inside the buffer; that the same holds with a limit past its end is the model's choice (log entry 17). -/
def Obligations.ReadSymInvertsSymEnc : Prop :=
  ∀ (m : Mode) (y : Symbol) (pre post : Bits) (lim : Nat) (E : ErrKind),
    ((m = .character → y.length = 1) → pre.length + (symEnc m y).length ≤ lim →
        readSym ⟨pre ++ symEnc m y ++ post, pre.length⟩ m lim E =
          .ok (y, ⟨pre ++ symEnc m y ++ post, pre.length + (symEnc m y).length⟩))
      ∧ (pre.length + 7 ≤ lim →
        readSym ⟨pre ++ bits 127 7 ++ post, pre.length⟩ .character lim E = .error ⟨.invalidSymbol, pre.length⟩)
      ∧ (lim < pre.length + 7 → readSym ⟨pre ++ post, pre.length⟩ m lim E = .error ⟨E, pre.length⟩)
      ∧ (pre.length + 7 * y.length ≤ lim → lim < pre.length + 7 * y.length + 7 →
        readSym ⟨pre ++ y.flatMap (fun c => bits c.val 7) ++ post, pre.length⟩ .word lim E =
          .error ⟨E, pre.length + 7 * y.length⟩)

/-! ## HuffmanTree (42_huffman_tree.md) -/

/-- R141, R140, R143: StableSort permutes the list into key order and keeps the order of nodes with equal keys; putting a
merged node back into a sorted list places it, with `back`, after every node whose key does not exceed its own, and with
`front` before every node whose key is not below its own. -/
def Obligations.StableSortKeepsTiesInOrder : Prop :=
  (∀ l : List Node, (stableSort l).Perm l
      ∧ (stableSort l).Pairwise (fun a b => a.freq < b.freq ∨ (a.freq = b.freq ∧ a.flag ≤ b.flag))
      ∧ ∀ f g : Nat, (stableSort l).filter (fun n => n.freq = f ∧ n.flag = g) =
          l.filter (fun n => n.freq = f ∧ n.flag = g))
    ∧ ∀ (new : Node) (rest : List Node), rest.Pairwise (fun a b => a.keyLe b = true) →
      reinsert .back new rest =
          rest.takeWhile (fun n => n.keyLe new) ++ new :: rest.dropWhile (fun n => n.keyLe new)
        ∧ reinsert .front new rest =
          rest.takeWhile (fun n => !new.keyLe n) ++ new :: rest.dropWhile (fun n => !new.keyLe n)

/-- R148 HUFF_BUILD, R145, R146, R142 to R144, R147: CM gets the code map of FT and DEGEN is 1 exactly when FT has one
entry; the empty table gives the empty map, one entry the codeword 0, and of two entries the lower-ordered one gets 1 and
the other 0. For every table of two or more distinct symbols the map is that of the one tree the merge steps reach from the
sorted leaves: its entries are the leaves with their paths, in the order of the walk with TABLE_ORDER = walk and in the
order of the table with first_occurrence. -/
def Obligations.HuffBuildStoresTheCodeMap : Prop :=
  decode 0x00000020 = .ok .huffBuild
    ∧ (∀ s : State, s.err = none →
        exec .huffBuild s =
          .next { s with cm := huffBuild s.cfg s.ft, degen := decide (s.ft.length = 1), done := true })
    ∧ (∀ (cfg : Config) (x y : Symbol) (n k : Nat), huffBuild cfg [] = [] ∧ huffBuild cfg [(x, n)] = [(x, [false])]
      ∧ (x ≠ y → (n ≤ k → codeOf (huffBuild cfg [(x, n), (y, k)]) x = [true]
            ∧ codeOf (huffBuild cfg [(x, n), (y, k)]) y = [false])
          ∧ (k < n → codeOf (huffBuild cfg [(x, n), (y, k)]) y = [true]
            ∧ codeOf (huffBuild cfg [(x, n), (y, k)]) x = [false])))
    ∧ ∀ (cfg : Config) (ft : FreqTab), 2 ≤ ft.length → (ft.map Prod.fst).Nodup →
      ∃ root : Node,
        Relation.ReflTransGen (MergeStep cfg.insertPos) (stableSort (ft.map fun e => .leaf e.1 e.2)) [root]
          ∧ (∀ y cw, (y, cw) ∈ huffBuild cfg ft ↔ leafAt root cw = some y)
          ∧ (cfg.tableOrder = .walk → ((huffBuild cfg ft).map Prod.snd).Pairwise WalksBefore)
          ∧ (cfg.tableOrder = .firstOccurrence → (huffBuild cfg ft).map Prod.fst = ft.map Prod.fst)

/-- R149, R151: a built code map has one entry per entry of the frequency table, no codeword is the beginning of another,
every codeword is non-empty, and with two or more symbols the codeword lengths fill the code exactly and each is below the
number of symbols. -/
def Obligations.BuiltCodeIsPrefixFree : Prop :=
  ∀ (cfg : Config) (ft : FreqTab), (ft.map Prod.fst).Nodup →
    ((huffBuild cfg ft).map Prod.fst).Perm (ft.map Prod.fst)
      ∧ (∀ e ∈ huffBuild cfg ft, e.2 ≠ []) ∧ PrefixFree (huffBuild cfg ft)
      ∧ (2 ≤ ft.length → ((huffBuild cfg ft).map fun e => (1 / 2 : ℚ) ^ e.2.length).sum = 1
          ∧ ∀ e ∈ huffBuild cfg ft, e.2.length ≤ ft.length - 1)

/-- R150: no prefix-free code with non-empty codewords for the same frequency table has a shorter payload. -/
def Obligations.BuiltCodeIsOptimal : Prop :=
  ∀ (cfg : Config) (ft : FreqTab) (code : Symbol → Bits), (ft.map Prod.fst).Nodup →
    (∀ e ∈ ft, code e.1 ≠ []) → (∀ e ∈ ft, ∀ f ∈ ft, e.1 ≠ f.1 → ¬ code e.1 <+: code f.1) →
    payloadCost ft (codeOf (huffBuild cfg ft)) ≤ payloadCost ft code

/-! ## HuffmanTableCodec (43_huffman_table.md) -/

/-- R162 TBL_SER, R160, R161: BB[1] becomes the entries of CM in order, `symbol ‖ P(8) ‖ codeword`; FieldOverflow with the
index of the first codeword longer than 255 bits; CapacityExceeded past BB_CAP. -/
def Obligations.TableSerWritesTheSegment : Prop :=
  decode 0x00000028 = .ok .tblSer
    ∧ ∀ s : State, s.err = none →
      ((∀ e ∈ s.cm, e.2.length ≤ 255) →
          ((tableBits s.mode s.cm).length ≤ s.cfg.bbCap.val →
              exec .tblSer s = .next { s with bb1 := ⟨tableBits s.mode s.cm, 0⟩, done := true })
            ∧ (s.cfg.bbCap.val < (tableBits s.mode s.cm).length →
              exec .tblSer s = .next (failed s .capacityExceeded 0)))
        ∧ ∀ pre e post, s.cm = pre ++ e :: post → (∀ f ∈ pre, f.2.length ≤ 255) → 255 < e.2.length →
          exec .tblSer s = .next (failed s .fieldOverflow pre.length)

/-- R165 TBL_DES, R164: a segment that is the entries of a table (codewords of 1 to 255 bits, pairwise distinct, symbols
the mode allows) gives that table back, same entries in the same order, whatever the cursor was. -/
def Obligations.TableDesReadsTheSegmentBack : Prop :=
  decode 0x00000029 = .ok .tblDes
    ∧ ∀ (s : State) (cm : CodeMap), s.err = none → TableFits s.mode cm → s.bb1.bits = tableBits s.mode cm →
        exec .tblDes s = .next { s with cm := cm, bb1 := ⟨s.bb1.bits, s.bb1.bits.length⟩, done := true }

/-- R164, R166, R167, R241, R242: every segment is the entries of an acceptable table or fails at one field, and TBL_DES of
the failing one records the kind and the bit index of that field, whatever the cursor was: a chunk, a `P` field or a
codeword field that would pass the end, `P = 0` and a codeword of an earlier entry are MalformedTable, and a chunk of 127 in
a character position is InvalidSymbol. -/
def Obligations.TableDesRejectsBadEntries : Prop :=
  (∀ (m : Mode) (segment : Bits), (∃ cm, TableFits m cm ∧ segment = tableBits m cm)
      ∨ ∃ kind pos, BadTable m segment kind pos)
    ∧ ∀ (s : State) (kind : ErrKind) (pos : Nat), s.err = none → BadTable s.mode s.bb1.bits kind pos →
      exec .tblDes s = .next (failed s kind pos)

/-- R163, R164: the machine with the states SYMBOL, LENGTH and CODE and the loop of TableDes give the same table, the same
position and the same errors. The rules give the read with a limit inside the buffer; what both give with a limit past its
end is the model's choice (log entry 17). -/
def Obligations.ThreeStateParserIsTableDes : Prop :=
  ∀ (m : Mode) (B : BitBuf) (lim : Nat), B.cur ≤ lim →
    runParser m lim (lim - B.cur + 1) (Parser.start B) = tableDes B m lim

/-! ## RLE codec (44_rle.md) -/

/-- R9, R180, R210: `bit_length` is the number of bits a number needs, `freq_width` that of the largest run, and `X` the
smallest number of bytes, at least one, that holds `L`. -/
def Obligations.FieldWidthsAreMinimal : Prop :=
  bitLength 0 = 0 ∧ (∀ n, 1 ≤ n → 2 ^ (bitLength n - 1) ≤ n ∧ n < 2 ^ bitLength n) ∧ freqWidth [] = 0
    ∧ (∀ rl : RunList, rl ≠ [] → ∃ e ∈ rl, (∀ f ∈ rl, f.2 ≤ e.2) ∧ freqWidth rl = bitLength e.2)
    ∧ ∀ L, 1 ≤ xOf L ∧ L < 2 ^ (8 * xOf L) ∧ ∀ x, 1 ≤ x → L < 2 ^ (8 * x) → xOf L ≤ x

/-- R182 RLE_ENC, R181: for every valid text, SYMS and RL get its tokens and runs and BB[0] the layout
`mode(1) ‖ freq_width(8) ‖ runs`, cursor 0; FieldOverflow for a width above 255, then CapacityExceeded past BB_CAP. -/
def Obligations.RleEncWritesTheLayout : Prop :=
  decode 0x00000030 = .ok .rleEnc
    ∧ ∀ (s : State) (cs : List Chr) (rl : RunList), s.err = none → s.txt = cs.map chrByte →
        rl = runsOf (tokenize s.mode cs) →
        (255 < freqWidth rl → exec .rleEnc s = .next (failed s .fieldOverflow 0))
          ∧ (freqWidth rl ≤ 255 → s.cfg.bbCap.val < (rleLayout s.mode (freqWidth rl) rl).length →
              exec .rleEnc s = .next (failed s .capacityExceeded 0))
          ∧ (freqWidth rl ≤ 255 → (rleLayout s.mode (freqWidth rl) rl).length ≤ s.cfg.bbCap.val →
              exec .rleEnc s = .next { s with
                syms := tokenize s.mode cs, rl := rl, bb0 := ⟨rleLayout s.mode (freqWidth rl) rl, 0⟩, done := true })

/-- R184 RLE_DEC, R183, R185: every run list in the layout is decoded, with any width that holds its run lengths, run
lengths of 0, equal neighbours and empty words among them; MODE is the artifact's, FT and CM are emptied, the cursor goes
to the end; CapacityExceeded when the text would pass TXT_CAP. -/
def Obligations.RleDecReadsEveryRunList : Prop :=
  decode 0x00000031 = .ok .rleDec
    ∧ ∀ (s : State) (m : Mode) (width : Nat) (rl : RunList), s.err = none → width ≤ 255 →
        (∀ e ∈ rl, e.2 < 2 ^ width) → SymbolsFit m (rl.map Prod.fst) → s.bb0.bits = rleLayout m width rl →
        ((rl.map fun e => e.2 * outLen m e.1).sum ≤ s.cfg.txtCap.val →
            exec .rleDec s = .next { s with
              mode := m, rl := rl, syms := rl.flatMap (fun e => List.replicate e.2 e.1),
              txt := detok m (rl.flatMap fun e => List.replicate e.2 e.1), ft := [], cm := [],
              bb0 := ⟨s.bb0.bits, s.bb0.bits.length⟩, done := true })
          ∧ (s.cfg.txtCap.val < (rl.map fun e => e.2 * outLen m e.1).sum →
            exec .rleDec s = .next (failed s .capacityExceeded 0))

/-- R186: whenever RLE_ENC succeeds and the decoded text fits TXT_CAP, RLE_DEC on its artifact gives the encoder's mode,
runs and symbols, and the text of the symbols. -/
def Obligations.RleRoundTrip : Prop :=
  ∀ (s t : State) (cs : List Chr), s.err = none → s.txt = cs.map chrByte → exec .rleEnc s = .next t → t.err = none →
    (detok s.mode (tokenize s.mode cs)).length ≤ s.cfg.txtCap.val →
    exec .rleDec t = .next { t with
      mode := s.mode, txt := detok s.mode (tokenize s.mode cs), ft := [], cm := [],
      bb0 := ⟨t.bb0.bits, t.bb0.bits.length⟩, done := true }

/-- R183, R132, R241, R242: every sequence of bits after the header is whole runs or fails at one field, and RLE_DEC of the
failing one records the kind and the bit index in BB[0] of that field: an artifact that ends inside the header, a run
length, a character or a word whose sentinel never comes is InsufficientBits, and a chunk of 127 in a character position is
InvalidSymbol. -/
def Obligations.ShortRleArtifactIsInsufficientBits : Prop :=
  (∀ (m : Mode) (width : Nat) (payload : Bits), (∃ rl, RunsFit m width rl ∧ payload = runsBits m width rl)
      ∨ ∃ kind pos, BadRuns m width payload kind pos)
    ∧ ∀ s : State, s.err = none →
      (s.bb0.bits = [] → exec .rleDec s = .next (failed s .insufficientBits 0))
        ∧ (1 ≤ s.bb0.bits.length → s.bb0.bits.length < 9 → exec .rleDec s = .next (failed s .insufficientBits 1))
        ∧ ∀ (m : Mode) (width : Nat) (payload : Bits) (kind : ErrKind) (pos : Nat), width ≤ 255 →
          BadRuns m width payload kind pos → s.bb0.bits = bits m.bit 1 ++ bits width 8 ++ payload →
          exec .rleDec s = .next (failed s kind (9 + pos))

/-! ## ASCII codec (45_ascii.md) -/

/-- R201 ASC_ENC, R200: for every valid text, BB[0] gets 7 bits per character, cursor 0, in either mode; CapacityExceeded
past BB_CAP. -/
def Obligations.AscEncPacksSevenBits : Prop :=
  decode 0x00000038 = .ok .ascEnc
    ∧ ∀ (s : State) (cs : List Chr), s.err = none → s.txt = cs.map chrByte →
      (7 * cs.length ≤ s.cfg.bbCap.val →
          exec .ascEnc s = .next { s with bb0 := ⟨cs.flatMap fun c => bits c.val 7, 0⟩, done := true })
        ∧ (s.cfg.bbCap.val < 7 * cs.length → exec .ascEnc s = .next (failed s .capacityExceeded 0))

/-- R203 ASC_DEC, R204: a buffer of 7-bit characters decodes to them, from bit 0 whatever the cursor; so ASC_DEC after
ASC_ENC restores the text exactly, in either mode. -/
def Obligations.AsciiRoundTrip : Prop :=
  decode 0x00000039 = .ok .ascDec
    ∧ (∀ (s : State) (cs : List Chr), s.err = none → (s.bb0.bits = cs.flatMap fun c => bits c.val 7) →
        cs.length ≤ s.cfg.txtCap.val →
        exec .ascDec s = .next { s with
          txt := cs.map chrByte, bb0 := ⟨s.bb0.bits, s.bb0.bits.length⟩, done := true })
    ∧ ∀ (s : State) (cs : List Chr), s.err = none → s.txt = cs.map chrByte → cs.length ≤ s.cfg.txtCap.val →
        7 * cs.length ≤ s.cfg.bbCap.val →
        ∃ t u, exec .ascEnc s = .next t ∧ exec .ascDec t = .next u ∧ u.txt = s.txt ∧ u.mode = s.mode ∧ u.err = none

/-- R202, R203, R247: the length is tested before any chunk (TruncatedStream where the partial chunk starts), the capacity
next, and a chunk of 127 is InvalidSymbol where it starts. -/
def Obligations.AscDecRejectsBadStreams : Prop :=
  ∀ s : State, s.err = none →
    (s.bb0.bits.length % 7 ≠ 0 →
        exec .ascDec s = .next (failed s .truncatedStream (s.bb0.bits.length - s.bb0.bits.length % 7)))
      ∧ (s.bb0.bits.length % 7 = 0 → s.cfg.txtCap.val < s.bb0.bits.length / 7 →
        exec .ascDec s = .next (failed s .capacityExceeded 0))
      ∧ ∀ (cs : List Chr) (post : Bits), (s.bb0.bits = (cs.flatMap fun c => bits c.val 7) ++ bits 127 7 ++ post) →
        s.bb0.bits.length % 7 = 0 → s.bb0.bits.length / 7 ≤ s.cfg.txtCap.val →
        exec .ascDec s = .next (failed s .invalidSymbol (7 * cs.length))

/-! ## Huffman container (46_container.md) -/

/-- R212 HUF_ENC, R210, R211: for every valid text, with the tokens, their frequency table and its code map: FieldOverflow
with the index of the first codeword longer than 255 bits; FieldOverflow(0) when `X` would pass 255; CapacityExceeded past
BB_CAP; else SYMS, FT, CM, DEGEN and BB[1] are the tokens, the table, the map, the one-entry flag and the table segment, and
BB[0] is `mode(1) ‖ X(8) ‖ L(8X) ‖ table ‖ payload`. -/
def Obligations.HufEncWritesTheLayout : Prop :=
  decode 0x00000040 = .ok .hufEnc
    ∧ ∀ (s : State) (cs : List Chr) (syms : List Symbol) (cm : CodeMap), s.err = none → s.txt = cs.map chrByte →
        syms = tokenize s.mode cs → cm = huffBuild s.cfg (freqTable syms) →
        (∀ pre e post, cm = pre ++ e :: post → (∀ f ∈ pre, f.2.length ≤ 255) → 255 < e.2.length →
            exec .hufEnc s = .next (failed s .fieldOverflow pre.length))
          ∧ ∀ seg out : Bits, (∀ e ∈ cm, e.2.length ≤ 255) → seg = tableBits s.mode cm →
            out = huffHeader s.mode (xOf seg.length) seg.length ++ seg ++ syms.flatMap (codeOf cm) →
            (255 < xOf seg.length → exec .hufEnc s = .next (failed s .fieldOverflow 0))
              ∧ (xOf seg.length ≤ 255 → s.cfg.bbCap.val < out.length →
                exec .hufEnc s = .next (failed s .capacityExceeded 0))
              ∧ (xOf seg.length ≤ 255 → out.length ≤ s.cfg.bbCap.val →
                exec .hufEnc s = .next { s with
                  syms := syms, ft := freqTable syms, cm := cm, degen := decide ((freqTable syms).length = 1),
                  bb1 := ⟨seg, 0⟩, bb0 := ⟨out, 0⟩, done := true })

/-- R212, R182: a successful HUF_ENC leaves SYMS, FT, CM, DEGEN and BB[1] as TOKENIZE, FREQ, HUFF_BUILD and TBL_SER in
sequence would, and a successful RLE_ENC leaves SYMS and RL as TOKENIZE and RUNS would. -/
def Obligations.CompositeEncodersAreTheSubUnitSequence : Prop :=
  (∀ s t : State, s.err = none → exec .hufEnc s = .next t → t.err = none →
      ∃ a b c d, exec .tokenize s = .next a ∧ exec .freq a = .next b ∧ exec .huffBuild b = .next c
        ∧ exec .tblSer c = .next d ∧ d.err = none ∧ d.syms = t.syms ∧ d.ft = t.ft ∧ d.cm = t.cm ∧ d.degen = t.degen
        ∧ d.bb1 = t.bb1)
    ∧ ∀ s t : State, s.err = none → exec .rleEnc s = .next t → t.err = none →
      ∃ a b, exec .tokenize s = .next a ∧ exec .runs a = .next b ∧ b.err = none ∧ b.syms = t.syms ∧ b.rl = t.rl

/-- R215 HUF_DEC, R214, R213, R168: every artifact made of a header with any `X` that holds `L`, the entries of a table and
the codewords of some of its entries, none of which has another codeword of the table as its beginning, is decoded: MODE,
CM, SYMS and TXT are the artifact's, BB[1] its table segment, FT and RL are emptied, DEGEN is kept, the cursor goes to the
end; CapacityExceeded when the text would pass TXT_CAP. -/
def Obligations.HufDecReadsEveryArtifact : Prop :=
  decode 0x00000041 = .ok .hufDec
    ∧ ∀ (s : State) (m : Mode) (x : Nat) (cm es : CodeMap), s.err = none → x ≤ 255 → TableFits m cm →
        (tableBits m cm).length < 2 ^ (8 * x) → (∀ e ∈ es, e ∈ cm ∧ ∀ f ∈ cm, f.2 <+: e.2 → f.2 = e.2) →
        s.bb0.bits = huffHeader m x (tableBits m cm).length ++ tableBits m cm ++ es.flatMap Prod.snd →
        ((es.map fun e => outLen m e.1).sum ≤ s.cfg.txtCap.val →
            exec .hufDec s = .next { s with
              mode := m, bb1 := ⟨tableBits m cm, 0⟩, cm := cm, syms := es.map Prod.fst,
              txt := detok m (es.map Prod.fst), ft := [], rl := [], bb0 := ⟨s.bb0.bits, s.bb0.bits.length⟩,
              done := true })
          ∧ (s.cfg.txtCap.val < (es.map fun e => outLen m e.1).sum →
            exec .hufDec s = .next (failed s .capacityExceeded 0))

/-- R216: whenever HUF_ENC succeeds and the decoded text fits TXT_CAP, HUF_DEC on its artifact gives the encoder's mode,
the encoder's code map in the same order, its symbols and its table segment, and the text of the symbols. -/
def Obligations.HuffmanRoundTrip : Prop :=
  ∀ (s t : State) (cs : List Chr), s.err = none → s.txt = cs.map chrByte → exec .hufEnc s = .next t → t.err = none →
    (detok s.mode (tokenize s.mode cs)).length ≤ s.cfg.txtCap.val →
    exec .hufDec t = .next { t with
      mode := s.mode, txt := detok s.mode (tokenize s.mode cs), ft := [], rl := [],
      bb0 := ⟨t.bb0.bits, t.bb0.bits.length⟩, done := true }

/-- R214, R213, R241, R242, R247: HUF_DEC reports a missing mode bit, `X`, `L` or table as InsufficientBits where that
field starts, before it looks at the table; an error inside the `L` bits of the table, whatever follows them, with its kind
and the bit index in BB[0] of the field that fails; and payload bits that no codeword resolves as MalformedTable where the
pending codeword starts. -/
def Obligations.HufDecReportsShortArtifacts : Prop :=
  ∀ s : State, s.err = none →
    (s.bb0.bits = [] → exec .hufDec s = .next (failed s .insufficientBits 0))
      ∧ (1 ≤ s.bb0.bits.length → s.bb0.bits.length < 9 → exec .hufDec s = .next (failed s .insufficientBits 1))
      ∧ (∀ (m : Mode) (x : Nat) (tail : Bits), x ≤ 255 → s.bb0.bits = bits m.bit 1 ++ bits x 8 ++ tail →
          tail.length < 8 * x → exec .hufDec s = .next (failed s .insufficientBits 9))
      ∧ (∀ (m : Mode) (x L : Nat) (tail : Bits), x ≤ 255 → L < 2 ^ (8 * x) → s.bb0.bits = huffHeader m x L ++ tail →
          tail.length < L → exec .hufDec s = .next (failed s .insufficientBits (9 + 8 * x)))
      ∧ (∀ (m : Mode) (x : Nat) (segment payload : Bits) (kind : ErrKind) (pos : Nat), x ≤ 255 →
          segment.length < 2 ^ (8 * x) → BadTable m segment kind pos →
          s.bb0.bits = huffHeader m x segment.length ++ segment ++ payload →
          exec .hufDec s = .next (failed s kind (9 + 8 * x + pos)))
      ∧ ∀ (m : Mode) (x : Nat) (cm es : CodeMap) (tail : Bits), x ≤ 255 → TableFits m cm →
          (tableBits m cm).length < 2 ^ (8 * x) → (∀ e ∈ es, e ∈ cm ∧ ∀ f ∈ cm, f.2 <+: e.2 → f.2 = e.2) →
          tail ≠ [] → (∀ f ∈ cm, ¬ f.2 <+: tail) →
          s.bb0.bits = huffHeader m x (tableBits m cm).length ++ tableBits m cm ++ es.flatMap Prod.snd ++ tail →
          exec .hufDec s = .next (failed s .malformedTable
            (9 + 8 * x + (tableBits m cm).length + (es.flatMap Prod.snd).length))

/-! ## Invariants -/

/-- R28, R29, R24: every step keeps the text and the buffers within their capacities, each cursor within its buffer, and
the error registers consistent. -/
def Obligations.StepKeepsCapacitiesAndErrorRegisters : Prop :=
  ∀ s t : State, Memory.wf s = true → ErrorRegsInv s → step s = .next t → Memory.wf t = true ∧ ErrorRegsInv t

/-- R31, R32, R35: every step keeps the tables' invariant: in character mode every symbol of SYMS, FT, CM and RL has one
character, FT has distinct symbols with counts of at least 1, and CM has non-empty, pairwise distinct codewords. -/
def Obligations.StepKeepsTheTablesInvariant : Prop :=
  ∀ s t : State, TablesInv s → step s = .next t → TablesInv t

/-- R35, R38: the state after reset is safe. -/
def Obligations.ResetIsSafe : Prop := Safe State.reset
end

