-- ==== Sys2Proof/Laws/Bits.lean ====
section
/-! SUPPORT. `Bits` and `Val` are inverse (00_scope.md R10), their lengths and bounds, and cutting a slice out of a
concatenation. -/
namespace Sys2Proof.Machine

@[simp] theorem bits_length (v w : Nat) : (bits v w).length = w := by
  induction w with
  | zero => rfl
  | succ w ih => simp [bits, ih]

@[simp] theorem bits_zero_width (v : Nat) : bits v 0 = [] := rfl

theorem val_foldl (s : Bits) (n : Nat) :
    s.foldl (fun n b => 2 * n + b.toNat) n = n * 2 ^ s.length + val s := by
  induction s generalizing n with
  | nil => simp [val]
  | cons b s ih =>
    have h0 := ih b.toNat
    have hn := ih (2 * n + b.toNat)
    simp only [val, List.foldl_cons, List.length_cons, Nat.mul_zero, Nat.zero_add] at *
    rw [hn, h0, pow_succ]
    ring

@[simp] theorem val_nil : val [] = 0 := rfl

theorem val_cons (b : Bool) (s : Bits) : val (b :: s) = b.toNat * 2 ^ s.length + val s := by
  rw [val, List.foldl_cons, val_foldl]; simp

theorem val_append (s t : Bits) : val (s ++ t) = val s * 2 ^ t.length + val t := by
  rw [val, List.foldl_append, val_foldl]; rfl

theorem val_lt (s : Bits) : val s < 2 ^ s.length := by
  induction s with
  | nil => simp
  | cons b s ih =>
    rw [val_cons, List.length_cons, pow_succ]
    have hb : b.toNat ≤ 1 := by cases b <;> simp
    have := Nat.mul_le_mul_right (2 ^ s.length) hb
    omega

/-- R10: `Val` of `Bits(v, w)` is `v` reduced to the width; it is `v` where `Bits(v, w)` is defined. -/
theorem val_bits_mod (v w : Nat) : val (bits v w) = v % 2 ^ w := by
  induction w with
  | zero => simp [bits, Nat.mod_one]
  | succ w ih =>
    rw [bits, val_cons, ih, bits_length, Nat.mod_pow_succ, Nat.testBit_eq_decide_div_mod_eq, Nat.add_comm]
    rcases Nat.mod_two_eq_zero_or_one (v / 2 ^ w) with h | h <;> simp [h]

theorem val_bits {v w : Nat} (h : v < 2 ^ w) : val (bits v w) = v := by
  rw [val_bits_mod, Nat.mod_eq_of_lt h]

/-- R10: `Bits(Val(s), |s|) = s`. -/
theorem bits_val (s : Bits) : bits (val s) s.length = s := by
  induction s with
  | nil => rfl
  | cons b s ih =>
    have hlt := val_lt s
    have hb : ∀ w ≤ s.length, bits (val (b :: s)) w = bits (val s) w := by
      intro w hw
      induction w with
      | zero => rfl
      | succ w ih =>
        rw [bits, bits, ih (by omega), val_cons]
        congr 1
        rw [Nat.mul_comm, Nat.testBit_two_pow_mul_add _ hlt]
        simp [show w < s.length by omega]
    rw [List.length_cons, bits, hb _ le_rfl, ih]
    congr 1
    rw [val_cons, Nat.mul_comm, Nat.testBit_two_pow_mul_add _ hlt]
    cases b <;> simp

theorem slice_append_mid {α : Type} (p q r : List α) :
    slice (p ++ q ++ r) p.length (p.length + q.length) = q := by
  simp [slice]

theorem slice_length {α : Type} (s : List α) (i j : Nat) (h : j ≤ s.length) : (slice s i j).length = j - i := by
  simp [slice]; omega

theorem chr?_some {n : Nat} {c : Chr} (h : chr? n = some c) : c.val = n := by
  unfold chr? at h
  split at h
  · cases h; rfl
  · cases h

@[simp] theorem chr?_val (c : Chr) : chr? c.val = some c := by
  simp [chr?]

theorem chr?_none_iff (n : Nat) : chr? n = none ↔ 127 ≤ n := by
  unfold chr?; split <;> simp_all

@[simp] theorem chrByte_toNat (c : Chr) : (chrByte c).toNat = c.val := by
  have := c.isLt
  simp [chrByte]; omega

end Sys2Proof.Machine
end

