-- ==== Sys2Proof/Laws/State.lean ====
section
/-! SUPPORT. One lemma per field per update of State, each true by rfl, so that no proof unfolds a record update. -/
namespace Sys2Proof.Machine

/-! ### recordError (R243) -/

@[simp] theorem recordError_mode (r : Raise) (s : State) : (recordError r s).mode = s.mode := rfl
@[simp] theorem recordError_txt (r : Raise) (s : State) : (recordError r s).txt = s.txt := rfl
@[simp] theorem recordError_bb0 (r : Raise) (s : State) : (recordError r s).bb0 = s.bb0 := rfl
@[simp] theorem recordError_bb1 (r : Raise) (s : State) : (recordError r s).bb1 = s.bb1 := rfl
@[simp] theorem recordError_syms (r : Raise) (s : State) : (recordError r s).syms = s.syms := rfl
@[simp] theorem recordError_ft (r : Raise) (s : State) : (recordError r s).ft = s.ft := rfl
@[simp] theorem recordError_cm (r : Raise) (s : State) : (recordError r s).cm = s.cm := rfl
@[simp] theorem recordError_rl (r : Raise) (s : State) : (recordError r s).rl = s.rl := rfl
@[simp] theorem recordError_w (r : Raise) (s : State) : (recordError r s).w = s.w := rfl
@[simp] theorem recordError_err (r : Raise) (s : State) : (recordError r s).err = some r.kind := rfl
@[simp] theorem recordError_errInfo (r : Raise) (s : State) : (recordError r s).errInfo = BitVec.ofNat 32 r.info := rfl
@[simp] theorem recordError_done (r : Raise) (s : State) : (recordError r s).done = false := rfl
@[simp] theorem recordError_degen (r : Raise) (s : State) : (recordError r s).degen = s.degen := rfl
@[simp] theorem recordError_txtAddr (r : Raise) (s : State) : (recordError r s).txtAddr = s.txtAddr := rfl
@[simp] theorem recordError_tsel (r : Raise) (s : State) : (recordError r s).tsel = s.tsel := rfl
@[simp] theorem recordError_tidx (r : Raise) (s : State) : (recordError r s).tidx = s.tidx := rfl
@[simp] theorem recordError_tchi (r : Raise) (s : State) : (recordError r s).tchi = s.tchi := rfl
@[simp] theorem recordError_cfg (r : Raise) (s : State) : (recordError r s).cfg = s.cfg := rfl
@[simp] theorem recordError_pending (r : Raise) (s : State) : (recordError r s).pending = s.pending := rfl
@[simp] theorem recordError_replies (r : Raise) (s : State) : (recordError r s).replies = s.replies := rfl

/-! ### clearError (R231) -/

@[simp] theorem clearError_mode  (s : State) : (clearError s).mode = s.mode := rfl
@[simp] theorem clearError_txt  (s : State) : (clearError s).txt = s.txt := rfl
@[simp] theorem clearError_bb0  (s : State) : (clearError s).bb0 = s.bb0 := rfl
@[simp] theorem clearError_bb1  (s : State) : (clearError s).bb1 = s.bb1 := rfl
@[simp] theorem clearError_syms  (s : State) : (clearError s).syms = s.syms := rfl
@[simp] theorem clearError_ft  (s : State) : (clearError s).ft = s.ft := rfl
@[simp] theorem clearError_cm  (s : State) : (clearError s).cm = s.cm := rfl
@[simp] theorem clearError_rl  (s : State) : (clearError s).rl = s.rl := rfl
@[simp] theorem clearError_w  (s : State) : (clearError s).w = s.w := rfl
@[simp] theorem clearError_err  (s : State) : (clearError s).err = none := rfl
@[simp] theorem clearError_errInfo  (s : State) : (clearError s).errInfo = 0 := rfl
@[simp] theorem clearError_done  (s : State) : (clearError s).done = s.done := rfl
@[simp] theorem clearError_degen  (s : State) : (clearError s).degen = s.degen := rfl
@[simp] theorem clearError_txtAddr  (s : State) : (clearError s).txtAddr = s.txtAddr := rfl
@[simp] theorem clearError_tsel  (s : State) : (clearError s).tsel = s.tsel := rfl
@[simp] theorem clearError_tidx  (s : State) : (clearError s).tidx = s.tidx := rfl
@[simp] theorem clearError_tchi  (s : State) : (clearError s).tchi = s.tchi := rfl
@[simp] theorem clearError_cfg  (s : State) : (clearError s).cfg = s.cfg := rfl
@[simp] theorem clearError_pending  (s : State) : (clearError s).pending = s.pending := rfl
@[simp] theorem clearError_replies  (s : State) : (clearError s).replies = s.replies := rfl

/-! ### complete (R243) -/

@[simp] theorem complete_mode  (s : State) : (complete s).mode = s.mode := rfl
@[simp] theorem complete_txt  (s : State) : (complete s).txt = s.txt := rfl
@[simp] theorem complete_bb0  (s : State) : (complete s).bb0 = s.bb0 := rfl
@[simp] theorem complete_bb1  (s : State) : (complete s).bb1 = s.bb1 := rfl
@[simp] theorem complete_syms  (s : State) : (complete s).syms = s.syms := rfl
@[simp] theorem complete_ft  (s : State) : (complete s).ft = s.ft := rfl
@[simp] theorem complete_cm  (s : State) : (complete s).cm = s.cm := rfl
@[simp] theorem complete_rl  (s : State) : (complete s).rl = s.rl := rfl
@[simp] theorem complete_w  (s : State) : (complete s).w = s.w := rfl
@[simp] theorem complete_err  (s : State) : (complete s).err = s.err := rfl
@[simp] theorem complete_errInfo  (s : State) : (complete s).errInfo = s.errInfo := rfl
@[simp] theorem complete_done  (s : State) : (complete s).done = true := rfl
@[simp] theorem complete_degen  (s : State) : (complete s).degen = s.degen := rfl
@[simp] theorem complete_txtAddr  (s : State) : (complete s).txtAddr = s.txtAddr := rfl
@[simp] theorem complete_tsel  (s : State) : (complete s).tsel = s.tsel := rfl
@[simp] theorem complete_tidx  (s : State) : (complete s).tidx = s.tidx := rfl
@[simp] theorem complete_tchi  (s : State) : (complete s).tchi = s.tchi := rfl
@[simp] theorem complete_cfg  (s : State) : (complete s).cfg = s.cfg := rfl
@[simp] theorem complete_pending  (s : State) : (complete s).pending = s.pending := rfl
@[simp] theorem complete_replies  (s : State) : (complete s).replies = s.replies := rfl

/-! ### setMode (R25) -/

@[simp] theorem setMode_mode (m : Mode) (s : State) : (setMode m s).mode = m := rfl
@[simp] theorem setMode_txt (m : Mode) (s : State) : (setMode m s).txt = s.txt := rfl
@[simp] theorem setMode_bb0 (m : Mode) (s : State) : (setMode m s).bb0 = s.bb0 := rfl
@[simp] theorem setMode_bb1 (m : Mode) (s : State) : (setMode m s).bb1 = s.bb1 := rfl
@[simp] theorem setMode_syms (m : Mode) (s : State) : (setMode m s).syms = [] := rfl
@[simp] theorem setMode_ft (m : Mode) (s : State) : (setMode m s).ft = [] := rfl
@[simp] theorem setMode_cm (m : Mode) (s : State) : (setMode m s).cm = [] := rfl
@[simp] theorem setMode_rl (m : Mode) (s : State) : (setMode m s).rl = [] := rfl
@[simp] theorem setMode_w (m : Mode) (s : State) : (setMode m s).w = s.w := rfl
@[simp] theorem setMode_err (m : Mode) (s : State) : (setMode m s).err = s.err := rfl
@[simp] theorem setMode_errInfo (m : Mode) (s : State) : (setMode m s).errInfo = s.errInfo := rfl
@[simp] theorem setMode_done (m : Mode) (s : State) : (setMode m s).done = s.done := rfl
@[simp] theorem setMode_degen (m : Mode) (s : State) : (setMode m s).degen = s.degen := rfl
@[simp] theorem setMode_txtAddr (m : Mode) (s : State) : (setMode m s).txtAddr = s.txtAddr := rfl
@[simp] theorem setMode_tsel (m : Mode) (s : State) : (setMode m s).tsel = s.tsel := rfl
@[simp] theorem setMode_tidx (m : Mode) (s : State) : (setMode m s).tidx = s.tidx := rfl
@[simp] theorem setMode_tchi (m : Mode) (s : State) : (setMode m s).tchi = s.tchi := rfl
@[simp] theorem setMode_cfg (m : Mode) (s : State) : (setMode m s).cfg = s.cfg := rfl
@[simp] theorem setMode_pending (m : Mode) (s : State) : (setMode m s).pending = s.pending := rfl
@[simp] theorem setMode_replies (m : Mode) (s : State) : (setMode m s).replies = s.replies := rfl

/-! ### applyReset (R270) -/

@[simp] theorem applyReset_mode  (s : State) : (applyReset s).mode = State.reset.mode := rfl
@[simp] theorem applyReset_txt  (s : State) : (applyReset s).txt = State.reset.txt := rfl
@[simp] theorem applyReset_bb0  (s : State) : (applyReset s).bb0 = State.reset.bb0 := rfl
@[simp] theorem applyReset_bb1  (s : State) : (applyReset s).bb1 = State.reset.bb1 := rfl
@[simp] theorem applyReset_syms  (s : State) : (applyReset s).syms = State.reset.syms := rfl
@[simp] theorem applyReset_ft  (s : State) : (applyReset s).ft = State.reset.ft := rfl
@[simp] theorem applyReset_cm  (s : State) : (applyReset s).cm = State.reset.cm := rfl
@[simp] theorem applyReset_rl  (s : State) : (applyReset s).rl = State.reset.rl := rfl
@[simp] theorem applyReset_w  (s : State) : (applyReset s).w = State.reset.w := rfl
@[simp] theorem applyReset_err  (s : State) : (applyReset s).err = State.reset.err := rfl
@[simp] theorem applyReset_errInfo  (s : State) : (applyReset s).errInfo = State.reset.errInfo := rfl
@[simp] theorem applyReset_done  (s : State) : (applyReset s).done = State.reset.done := rfl
@[simp] theorem applyReset_degen  (s : State) : (applyReset s).degen = State.reset.degen := rfl
@[simp] theorem applyReset_txtAddr  (s : State) : (applyReset s).txtAddr = State.reset.txtAddr := rfl
@[simp] theorem applyReset_tsel  (s : State) : (applyReset s).tsel = State.reset.tsel := rfl
@[simp] theorem applyReset_tidx  (s : State) : (applyReset s).tidx = State.reset.tidx := rfl
@[simp] theorem applyReset_tchi  (s : State) : (applyReset s).tchi = State.reset.tchi := rfl
@[simp] theorem applyReset_cfg  (s : State) : (applyReset s).cfg = s.cfg := rfl
@[simp] theorem applyReset_pending  (s : State) : (applyReset s).pending = s.pending := rfl
@[simp] theorem applyReset_replies  (s : State) : (applyReset s).replies = s.replies := rfl

/-! ### setBB (R82) -/

@[simp] theorem State.setBB_mode (b : BufSel) (B : BitBuf) (s : State) : (s.setBB b B).mode = s.mode := by cases b <;> rfl
@[simp] theorem State.setBB_txt (b : BufSel) (B : BitBuf) (s : State) : (s.setBB b B).txt = s.txt := by cases b <;> rfl
@[simp] theorem State.setBB_syms (b : BufSel) (B : BitBuf) (s : State) : (s.setBB b B).syms = s.syms := by cases b <;> rfl
@[simp] theorem State.setBB_ft (b : BufSel) (B : BitBuf) (s : State) : (s.setBB b B).ft = s.ft := by cases b <;> rfl
@[simp] theorem State.setBB_cm (b : BufSel) (B : BitBuf) (s : State) : (s.setBB b B).cm = s.cm := by cases b <;> rfl
@[simp] theorem State.setBB_rl (b : BufSel) (B : BitBuf) (s : State) : (s.setBB b B).rl = s.rl := by cases b <;> rfl
@[simp] theorem State.setBB_w (b : BufSel) (B : BitBuf) (s : State) : (s.setBB b B).w = s.w := by cases b <;> rfl
@[simp] theorem State.setBB_err (b : BufSel) (B : BitBuf) (s : State) : (s.setBB b B).err = s.err := by cases b <;> rfl
@[simp] theorem State.setBB_errInfo (b : BufSel) (B : BitBuf) (s : State) : (s.setBB b B).errInfo = s.errInfo := by cases b <;> rfl
@[simp] theorem State.setBB_done (b : BufSel) (B : BitBuf) (s : State) : (s.setBB b B).done = s.done := by cases b <;> rfl
@[simp] theorem State.setBB_degen (b : BufSel) (B : BitBuf) (s : State) : (s.setBB b B).degen = s.degen := by cases b <;> rfl
@[simp] theorem State.setBB_txtAddr (b : BufSel) (B : BitBuf) (s : State) : (s.setBB b B).txtAddr = s.txtAddr := by cases b <;> rfl
@[simp] theorem State.setBB_tsel (b : BufSel) (B : BitBuf) (s : State) : (s.setBB b B).tsel = s.tsel := by cases b <;> rfl
@[simp] theorem State.setBB_tidx (b : BufSel) (B : BitBuf) (s : State) : (s.setBB b B).tidx = s.tidx := by cases b <;> rfl
@[simp] theorem State.setBB_tchi (b : BufSel) (B : BitBuf) (s : State) : (s.setBB b B).tchi = s.tchi := by cases b <;> rfl
@[simp] theorem State.setBB_cfg (b : BufSel) (B : BitBuf) (s : State) : (s.setBB b B).cfg = s.cfg := by cases b <;> rfl
@[simp] theorem State.setBB_pending (b : BufSel) (B : BitBuf) (s : State) : (s.setBB b B).pending = s.pending := by cases b <;> rfl
@[simp] theorem State.setBB_replies (b : BufSel) (B : BitBuf) (s : State) : (s.setBB b B).replies = s.replies := by cases b <;> rfl

@[simp] theorem State.setBB_bb (b : BufSel) (B : BitBuf) (s : State) : (s.setBB b B).bb b = B := by cases b <;> rfl
@[simp] theorem State.setBB_bb_other (b : BufSel) (B : BitBuf) (s : State) :
    (s.setBB b B).bb (otherBuf b) = s.bb (otherBuf b) := by cases b <;> rfl
@[simp] theorem State.setBB_bb_self (b : BufSel) (s : State) : s.setBB b (s.bb b) = s := by cases b <;> rfl
@[simp] theorem otherBuf_ne (b : BufSel) : otherBuf b ≠ b := by cases b <;> decide
theorem State.setBB_bb_of_ne {b c : BufSel} (h : c ≠ b) (B : BitBuf) (s : State) : (s.setBB b B).bb c = s.bb c := by
  cases b <;> cases c <;> first | rfl | exact absurd rfl h
@[simp] theorem State.bb_b0 (s : State) : s.bb .b0 = s.bb0 := rfl
@[simp] theorem State.bb_b1 (s : State) : s.bb .b1 = s.bb1 := rfl

end Sys2Proof.Machine
end

