-- ==== Sys2Proof/Laws/Ops.lean ====
section
/-! SUPPORT. One lemma for each shared operation of Machine/Ops.lean that says everything it can do; callers cite it and
do not unfold the operation. -/
namespace Sys2Proof.Machine

/-- Sequencing of results: a value comes out of both parts. -/
theorem bind_eq_ok {α β : Type} {x : Result α} {f : α → Result β} {b : β} :
    (x >>= f) = .ok b ↔ ∃ a, x = .ok a ∧ f a = .ok b := by
  cases x <;> simp [bind, Except.bind]

/-- Sequencing of results: the first raise reached is the one reported (R13, R247). -/
theorem bind_eq_error {α β : Type} {x : Result α} {f : α → Result β} {r : Raise} :
    (x >>= f) = .error r ↔ x = .error r ∨ ∃ a, x = .ok a ∧ f a = .error r := by
  cases x <;> simp [bind, Except.bind]

@[simp] theorem ok_bind {α β : Type} (a : α) (f : α → Result β) : ((.ok a : Result α) >>= f) = f a := rfl
@[simp] theorem error_bind {α β : Type} (r : Raise) (f : α → Result β) :
    ((.error r : Result α) >>= f) = .error r := rfl
@[simp] theorem raise_bind {α β : Type} (k : ErrKind) (n : Nat) (f : α → Result β) :
    ((raise k n : Result α) >>= f) = raise k n := rfl
@[simp] theorem pure_eq_ok {α : Type} (a : α) : (pure a : Result α) = .ok a := rfl
@[simp] theorem raise_ne_ok {α : Type} (k : ErrKind) (n : Nat) (a : α) : (raise k n : Result α) ≠ .ok a := by
  simp [raise]
@[simp] theorem raise_eq_error {α : Type} (k : ErrKind) (n : Nat) (r : Raise) :
    (raise k n : Result α) = .error r ↔ r = ⟨k, n⟩ := by
  simp [raise, eq_comm]

/-! ### The envelope (R243) -/

/-- R245: refused while an error stands. -/
theorem command_of_err {body : State → Result State} {s : State} {k : ErrKind} (h : s.err = some k) :
    command body s = .next s := by simp [command, h]

/-- R243: a command whose pseudocode reaches its end. -/
theorem command_of_ok {body : State → Result State} {s t : State} (h : s.err = none) (hb : body s = .ok t) :
    command body s = .next (complete t) := by simp [command, h, hb]

/-- R243: a command whose pseudocode raises. -/
theorem command_of_error {body : State → Result State} {s : State} {r : Raise} (h : s.err = none)
    (hb : body s = .error r) : command body s = .next (recordError r s) := by simp [command, h, hb]

/-- R243: everything a command can do. -/
theorem command_cases {body : State → Result State} {s t : State} (h : command body s = .next t) :
    (s.err ≠ none ∧ t = s) ∨ (s.err = none ∧ ∃ u, body s = .ok u ∧ t = complete u)
      ∨ (s.err = none ∧ ∃ r, body s = .error r ∧ t = recordError r s) := by
  cases he : s.err with
  | some k => rw [command_of_err he] at h; cases h; simp
  | none =>
    cases hb : body s with
    | ok u => rw [command_of_ok he hb] at h; cases h; simp
    | error r => rw [command_of_error he hb] at h; cases h; simp

/-- R278: no command stops the machine. -/
theorem command_answers (body : State → Result State) (s : State) : ∃ t, command body s = .next t := by
  unfold command; split
  · exact ⟨_, rfl⟩
  · split <;> exact ⟨_, rfl⟩

/-! ### The primitives (R100 to R103) -/

theorem checkCapacity_eq_ok {cap size : Nat} {u : Unit} : checkCapacity cap size = .ok u ↔ size ≤ cap := by
  unfold checkCapacity; split <;> simp_all

theorem checkCapacity_eq_error {cap size : Nat} {r : Raise} :
    checkCapacity cap size = .error r ↔ cap < size ∧ r = ⟨.capacityExceeded, 0⟩ := by
  unfold checkCapacity; split <;> simp_all

/-- R100: when an append succeeds, and what it leaves. -/
theorem appendBits_eq_ok {cap : Nat} {B B' : BitBuf} {v width : Nat} :
    appendBits cap B v width = .ok B' ↔
      v < 2 ^ width ∧ B.bits.length + width ≤ cap ∧ B' = ⟨B.bits ++ bits v width, B.cur⟩ := by
  unfold appendBits
  by_cases h1 : 2 ^ width ≤ v
  · simp [h1, Nat.not_lt.2 h1]
  · by_cases h2 : cap < B.bits.length + width
    · simp [h1, h2, Nat.not_le.2 h2]
    · simp [h1, h2, Nat.not_le.1 h1, Nat.not_lt.1 h2, eq_comm]

/-- R100, R247: `FieldOverflow` before `CapacityExceeded`. -/
theorem appendBits_eq_error {cap : Nat} {B : BitBuf} {v width : Nat} {r : Raise} :
    appendBits cap B v width = .error r ↔
      (2 ^ width ≤ v ∧ r = ⟨.fieldOverflow, 0⟩)
        ∨ (v < 2 ^ width ∧ cap < B.bits.length + width ∧ r = ⟨.capacityExceeded, 0⟩) := by
  unfold appendBits
  by_cases h1 : 2 ^ width ≤ v
  · simp [h1, Nat.not_lt.2 h1]
  · by_cases h2 : cap < B.bits.length + width
    · simp [h1, h2, Nat.not_le.1 h1]
    · simp [h1, h2]

/-- R101. -/
theorem appendLiteral_eq_ok {cap : Nat} {B B' : BitBuf} {t : Bits} :
    appendLiteral cap B t = .ok B' ↔ B.bits.length + t.length ≤ cap ∧ B' = ⟨B.bits ++ t, B.cur⟩ := by
  unfold appendLiteral
  by_cases h : cap < B.bits.length + t.length
  · simp [h, Nat.not_le.2 h]
  · simp [h, Nat.not_lt.1 h, eq_comm]

/-- R101. -/
theorem appendLiteral_eq_error {cap : Nat} {B : BitBuf} {t : Bits} {r : Raise} :
    appendLiteral cap B t = .error r ↔ cap < B.bits.length + t.length ∧ r = ⟨.capacityExceeded, 0⟩ := by
  unfold appendLiteral
  by_cases h : cap < B.bits.length + t.length <;> simp [h]

/-- R103: when a bounded read succeeds, the value it returns and where the cursor goes. -/
theorem readLim_eq_ok {B B' : BitBuf} {n lim v : Nat} {E : ErrKind} :
    readLim B n lim E = .ok (v, B') ↔
      n ≤ lim - B.cur ∧ v = val (slice B.bits B.cur (B.cur + n)) ∧ B' = ⟨B.bits, B.cur + n⟩ := by
  unfold readLim; split
  · simp; omega
  · simp only [Except.ok.injEq, Prod.mk.injEq, eq_comm (b := v), eq_comm (b := B')]
    constructor
    · rintro ⟨h1, h2⟩; exact ⟨by omega, h1, h2⟩
    · rintro ⟨-, h1, h2⟩; exact ⟨h1, h2⟩

/-- R103, R102: a read that would pass the limit records the cursor. -/
theorem readLim_eq_error {B : BitBuf} {n lim : Nat} {E : ErrKind} {r : Raise} :
    readLim B n lim E = .error r ↔ lim - B.cur < n ∧ r = ⟨E, B.cur⟩ := by
  unfold readLim
  by_cases h : lim - B.cur < n <;> simp [h]

/-- R103: reading a field that stands at the cursor. -/
theorem readLim_field (p q r : Bits) (lim : Nat) (E : ErrKind) (h : p.length + q.length ≤ lim) :
    readLim ⟨p ++ q ++ r, p.length⟩ q.length lim E = .ok (val q, ⟨p ++ q ++ r, p.length + q.length⟩) := by
  rw [readLim_eq_ok]
  refine ⟨by simp only; omega, ?_, rfl⟩
  simp only [slice_append_mid]

/-- R103: reading back a number written as a field of the same width. -/
theorem readLim_bits (p r : Bits) (v w lim : Nat) (E : ErrKind) (hv : v < 2 ^ w) (h : p.length + w ≤ lim) :
    readLim ⟨p ++ bits v w ++ r, p.length⟩ w lim E = .ok (v, ⟨p ++ bits v w ++ r, p.length + w⟩) := by
  have := readLim_field p (bits v w) r lim E (by simpa using h)
  simpa [val_bits hv] using this

end Sys2Proof.Machine
end

