-- ==== Sys2Proof/Laws/Encoders.lean ====
section
/-! SUPPORT. What the tokenizer, the frequency table, the sort and the merge loop give on inputs of a known shape. -/
namespace Sys2Proof.Machine

/-! ### Tokenizer (R123) -/

/-- R123: the characters of a word are read into the current token. -/
theorem tokenizeWords_append (y : Symbol) (h : space ∉ y) (cur : Symbol) (rest : List Chr) :
    tokenizeWords cur (y ++ rest) = tokenizeWords (cur ++ y) rest := by
  induction y generalizing cur with
  | nil => simp
  | cons c y ih =>
    obtain ⟨hc, hy⟩ := not_or.1 (List.mem_cons.not.1 h)
    rw [List.cons_append, tokenizeWords, if_neg (Ne.symm hc), ih hy]
    simp

/-- R123: a text of words with a space after each has those words as its tokens. -/
theorem tokenize_words (ys : List Symbol) (h : ∀ y ∈ ys, y ≠ [] ∧ space ∉ y) :
    tokenize .word (ys.flatMap fun y => y ++ [space]) = ys := by
  show tokenizeWords [] _ = ys
  induction ys with
  | nil => rfl
  | cons y ys ih =>
    obtain ⟨hy, hs⟩ := h y (by simp)
    rw [List.flatMap_cons, List.append_assoc, tokenizeWords_append y hs, List.nil_append, List.singleton_append,
      tokenizeWords, if_pos rfl, ih fun z hz => h z (by simp [hz])]
    simp [flushWord, hy]

/-- R123: a non-empty text without a space is one token. -/
theorem tokenize_one_word (y : Symbol) (hy : y ≠ []) (h : space ∉ y) : tokenize .word y = [y] := by
  have := tokenizeWords_append y h [] []
  simpa [tokenize, tokenizeWords, flushWord, hy] using this

/-! ### Frequency table (R125) -/

/-- R125: a symbol without an entry gets one at the end. -/
theorem countSymbol_new (y : Symbol) (ft : FreqTab) (h : y ∉ ft.map Prod.fst) : countSymbol y ft = ft ++ [(y, 1)] := by
  induction ft with
  | nil => rfl
  | cons e ft ih =>
    obtain ⟨h1, h2⟩ := not_or.1 (List.mem_cons.not.1 h)
    rw [countSymbol, if_neg (Ne.symm h1), ih h2, List.cons_append]

/-- R125: a symbol whose entry is the last one is counted there. -/
theorem countSymbol_last (y : Symbol) (n : Nat) (ft : FreqTab) (h : y ∉ ft.map Prod.fst) :
    countSymbol y (ft ++ [(y, n)]) = ft ++ [(y, n + 1)] := by
  induction ft with
  | nil => simp [countSymbol]
  | cons e ft ih =>
    obtain ⟨h1, h2⟩ := not_or.1 (List.mem_cons.not.1 h)
    rw [List.cons_append, countSymbol, if_neg (Ne.symm h1), ih h2, List.cons_append]

/-- R125: a new symbol repeated `n + 1` times. -/
theorem foldl_countSymbol_replicate (y : Symbol) (n : Nat) (ft : FreqTab) (h : y ∉ ft.map Prod.fst) :
    (List.replicate (n + 1) y).foldl (fun ft y => countSymbol y ft) ft = ft ++ [(y, n + 1)] := by
  induction n with
  | zero => exact countSymbol_new y ft h
  | succ n ih => rw [List.replicate_succ', List.foldl_append, ih, List.foldl_cons, List.foldl_nil, countSymbol_last y _ ft h]

theorem foldl_countSymbol_blocks (ft acc : FreqTab) (h : ((acc ++ ft).map Prod.fst).Nodup) (hp : ∀ e ∈ ft, 1 ≤ e.2) :
    (ft.flatMap fun e => List.replicate e.2 e.1).foldl (fun ft y => countSymbol y ft) acc = acc ++ ft := by
  induction ft generalizing acc with
  | nil => simp
  | cons e ft ih =>
    obtain ⟨y, n⟩ := e
    have hn : 1 ≤ n := hp (y, n) (by simp)
    have hy : y ∉ acc.map Prod.fst := by
      intro hmem
      rw [List.map_append] at h
      exact (List.nodup_append.1 h).2.2 y hmem y (by simp) rfl
    obtain ⟨k, rfl⟩ : ∃ k, n = k + 1 := ⟨n - 1, by omega⟩
    rw [List.flatMap_cons, List.foldl_append, foldl_countSymbol_replicate y k acc hy,
      ih (acc ++ [(y, k + 1)]) (by simpa using h) fun e he => hp e (by simp [he])]
    simp

/-- R125: the table of blocks of distinct symbols is the list of the blocks. -/
theorem freqTable_blocks (ft : FreqTab) (h : (ft.map Prod.fst).Nodup) (hp : ∀ e ∈ ft, 1 ≤ e.2) :
    freqTable (ft.flatMap fun e => List.replicate e.2 e.1) = ft := by
  simpa [freqTable] using foldl_countSymbol_blocks ft [] (by simpa using h) hp

/-! ### Sort and merge loop (R141, R143) -/

/-- R141: a node no greater than the first one goes in front. -/
theorem insertNode_first (n : Node) (l : List Node) (h : ∀ m ∈ l, n.keyLe m = true) : insertNode n l = n :: l := by
  cases l with
  | nil => rfl
  | cons m l => simp [insertNode, h m (by simp)]

/-- R141: a list in key order is its own sorted list. -/
theorem stableSort_sorted (l : List Node) (h : l.Pairwise fun a b => a.keyLe b = true) : stableSort l = l := by
  induction l with
  | nil => rfl
  | cons n l ih =>
    obtain ⟨h1, h2⟩ := List.pairwise_cons.1 h
    rw [stableSort, ih h2, insertNode_first n l h1]

/-- R140: a node of smaller frequency is ordered before. -/
theorem keyLe_of_freq_lt {a b : Node} (h : a.freq < b.freq) : a.keyLe b = true := by simp [Node.keyLe, h]

/-- Leaves whose frequencies double, from `2 ^ k` on. -/
def doublingLeaves (w : Nat → Symbol) (k n : Nat) : List Node := (List.range' k n).map fun i => .leaf (w i) (2 ^ i)

theorem doublingLeaves_succ (w : Nat → Symbol) (k n : Nat) :
    doublingLeaves w k (n + 1) = .leaf (w k) (2 ^ k) :: doublingLeaves w (k + 1) n := by
  simp [doublingLeaves, List.range'_succ]

theorem doublingLeaves_sorted (w : Nat → Symbol) (k n : Nat) :
    (doublingLeaves w k n).Pairwise fun a b => a.keyLe b = true := by
  refine List.pairwise_map.2 ((List.pairwise_lt_range' (s := k) (n := n)).imp fun {i j} hij => ?_)
  exact keyLe_of_freq_lt (Nat.pow_lt_pow_right (by norm_num) hij)

theorem doublingLeaves_above (w : Nat → Symbol) (k n : Nat) (a : Node) (h : a.freq < 2 ^ k) :
    ∀ m ∈ doublingLeaves w k n, a.keyLe m = true := by
  intro m hm
  obtain ⟨i, hi, rfl⟩ := List.mem_map.1 hm
  have hk : k ≤ i := by
    obtain ⟨j, _, rfl⟩ := List.mem_range'.1 hi
    omega
  exact keyLe_of_freq_lt (lt_of_lt_of_le h (Nat.pow_le_pow_right (by norm_num) hk))

/-- R143: a node below leaves that double is merged with each of them in turn, so a path of the tree grows by one bit at
every merge. -/
theorem mergeLoop_doubling (w : Nat → Symbol) (n fuel k d : Nat) (T : Node) (hf : n ≤ fuel) (hT : T.freq < 2 ^ k)
    (hd : ∀ path, ∃ e ∈ walk T path, path.length + d ≤ e.2.length) :
    ∃ R, mergeLoop .front fuel (T :: doublingLeaves w k n) = [R] ∧ (R = T ∨ ∃ f l r, R = .internal f l r)
      ∧ ∀ path, ∃ e ∈ walk R path, path.length + (d + n) ≤ e.2.length := by
  induction n generalizing fuel k d T with
  | zero => exact ⟨T, by cases fuel <;> rfl, .inl rfl, by simpa using hd⟩
  | succ n ih =>
    obtain ⟨fuel, rfl⟩ : ∃ f, fuel = f + 1 := ⟨fuel - 1, by omega⟩
    have hnew : (mergedNode T (.leaf (w k) (2 ^ k))).freq < 2 ^ (k + 1) := by
      show T.freq + 2 ^ k < 2 ^ (k + 1)
      rw [Nat.pow_succ]; omega
    have hre : reinsert .front (mergedNode T (.leaf (w k) (2 ^ k))) (doublingLeaves w (k + 1) n)
        = mergedNode T (.leaf (w k) (2 ^ k)) :: doublingLeaves w (k + 1) n :=
      stableSort_sorted _ (List.pairwise_cons.2 ⟨doublingLeaves_above w _ n _ hnew, doublingLeaves_sorted w _ n⟩)
    obtain ⟨R, h1, h2, h3⟩ := ih fuel (k + 1) (d + 1) (mergedNode T (.leaf (w k) (2 ^ k))) (by omega) hnew (by
      intro path
      obtain ⟨e, he, hlen⟩ := hd (path ++ [true])
      exact ⟨e, by simp [mergedNode, walk, he], by simp only [List.length_append, List.length_singleton] at hlen; omega⟩)
    refine ⟨R, ?_, .inr ?_, fun path => ?_⟩
    · rw [doublingLeaves_succ, mergeLoop, hre, h1]
    · rcases h2 with rfl | h2
      · exact ⟨_, _, _, rfl⟩
      · exact h2
    · obtain ⟨e, he, hlen⟩ := h3 path
      exact ⟨e, he, by omega⟩

end Sys2Proof.Machine
end

