-- ==== Sys2Proof/Laws/Events.lean ====
section
/-! SUPPORT. What an access and a step can do (20_memory.md R66, R69; 70_reset_and_hazards.md R278). -/
namespace Sys2Proof.Machine

/-- R69, D9: BASE is word-aligned. -/
@[simp] theorem base_mod_four (cfg : Config) : cfg.base % 4 = 0 := by simp [Config.base]

/-- R69: an aligned access inside the window goes on at its offset from BASE. -/
theorem access_offset (cfg : Config) (off : Nat) (k : Nat → Outcome) (h : off < 256) (ha : off % 4 = 0) :
    access cfg.base (cfg.base + off) k = k off := by
  have := base_mod_four cfg
  unfold access
  rw [if_neg (by omega), if_neg (by omega), Nat.add_sub_cancel_left]

/-- R21, R66: everything an access can do. -/
theorem access_cases (base addr : Nat) (k : Nat → Outcome) :
    ((addr < base ∨ base + 256 ≤ addr) ∧ access base addr k = .fault (.outsideWindow addr))
      ∨ (base ≤ addr ∧ addr < base + 256 ∧ addr % 4 ≠ 0 ∧ access base addr k = .refused (.misalignedAccess addr))
      ∨ (base ≤ addr ∧ addr < base + 256 ∧ addr % 4 = 0 ∧ access base addr k = k (addr - base)) := by
  unfold access
  by_cases h : addr < base ∨ base + 256 ≤ addr
  · exact .inl ⟨h, if_pos h⟩
  · rw [if_neg h]
    by_cases ha : addr % 4 = 0
    · exact .inr (.inr ⟨by omega, by omega, ha, if_neg (not_not.2 ha)⟩)
    · exact .inr (.inl ⟨by omega, by omega, ha, if_pos ha⟩)

/-- R278: a step performs the oldest pending event. -/
theorem step_event {s : State} {e : HostEvent} {rest : List HostEvent} (h : s.pending = e :: rest) :
    step s = perform e { s with pending := rest } := by simp [step, nextEvent, h]

/-- R271: with no event pending HRC waits. -/
theorem step_idle {s : State} (h : s.pending = []) : step s = .next s := by simp [step, nextEvent, h]

/-- R278, R69: a step whose event is a host write at an aligned offset of the window. -/
theorem step_write {s : State} {off : Nat} {v : Word} {rest : List HostEvent} (h : off < 256) (ha : off % 4 = 0)
    (hp : s.pending = .write (s.cfg.base + off) v :: rest) : step s = writeOffset off v { s with pending := rest } := by
  rw [step_event hp]
  exact access_offset s.cfg off (fun o => writeOffset o v { s with pending := rest }) h ha

end Sys2Proof.Machine
end

