-- ==== Sys2Proof/Laws/Loops.lean ====
section
/-! SUPPORT. The loops written with a turn counter need no more turns than they are given: with at least the bits left (or
the nodes less one) as fuel, the result does not depend on the fuel (log entry 10; 47_system.md R234). -/
namespace Sys2Proof.Machine

theorem readLim_cur {B B' : BitBuf} {n lim v : Nat} {E : ErrKind} (h : readLim B n lim E = .ok (v, B')) :
    B'.bits = B.bits ∧ B'.cur = B.cur + n ∧ n ≤ lim - B.cur := by
  obtain ⟨hn, -, rfl⟩ := readLim_eq_ok.1 h
  exact ⟨rfl, rfl, hn⟩

/-- R132: the word-mode loop with enough turns. -/
theorem readWord_fuel (lim : Nat) (E : ErrKind) (f g : Nat) (B : BitBuf) (y : Symbol)
    (hf : lim - B.cur ≤ f) (hg : lim - B.cur ≤ g) : readWord lim E f B y = readWord lim E g B y := by
  induction f generalizing g B y with
  | zero =>
    cases g with
    | zero => rfl
    | succ g =>
      rw [readWord, readWord, readLim_eq_error.2 ⟨by simp only [charW]; omega, rfl⟩]
      rfl
  | succ f ih =>
    cases g with
    | zero =>
      rw [readWord, readWord, readLim_eq_error.2 ⟨by simp only [charW]; omega, rfl⟩]
      rfl
    | succ g =>
      rw [readWord, readWord]
      cases hr : readLim B charW lim E with
      | error r => rfl
      | ok a =>
        obtain ⟨v, B'⟩ := a
        obtain ⟨-, hc, hn⟩ := readLim_cur hr
        simp only [charW] at hc hn
        simp only [ok_bind]
        cases chr? v with
        | none => rfl
        | some c => exact ih g B' (y ++ [c]) (by omega) (by omega)

/-- R132: a symbol read moves the cursor forward by at least one chunk and keeps the bits. -/
theorem readWord_cur {lim : Nat} {E : ErrKind} {f : Nat} {B B' : BitBuf} {y z : Symbol}
    (h : readWord lim E f B y = .ok (z, B')) : B'.bits = B.bits ∧ B.cur + 7 ≤ B'.cur ∧ B'.cur ≤ lim := by
  induction f generalizing B y with
  | zero => simp [readWord] at h
  | succ f ih =>
    rw [readWord, bind_eq_ok] at h
    obtain ⟨⟨v, B1⟩, hr, h⟩ := h
    obtain ⟨hb, hc, hn⟩ := readLim_cur hr
    simp only [charW] at hc hn
    simp only at h
    split at h
    · simp only [pure_eq_ok, Except.ok.injEq, Prod.mk.injEq] at h
      obtain ⟨-, rfl⟩ := h
      exact ⟨hb, by omega, by omega⟩
    · obtain ⟨h1, h2, h3⟩ := ih h
      exact ⟨h1.trans hb, by omega, h3⟩

theorem readSym_cur {m : Mode} {lim : Nat} {E : ErrKind} {B B' : BitBuf} {z : Symbol}
    (h : readSym B m lim E = .ok (z, B')) : B'.bits = B.bits ∧ B.cur + 7 ≤ B'.cur ∧ B'.cur ≤ lim := by
  cases m with
  | word => exact readWord_cur h
  | character =>
    rw [readSym, bind_eq_ok] at h
    obtain ⟨⟨v, B1⟩, hr, h⟩ := h
    obtain ⟨hb, hc, hn⟩ := readLim_cur hr
    simp only [charW] at hc hn
    simp only at h
    split at h
    · simp at h
    · simp only [pure_eq_ok, Except.ok.injEq, Prod.mk.injEq] at h
      obtain ⟨-, rfl⟩ := h
      exact ⟨hb, by omega, by omega⟩

/-- R164: an entry read keeps the bits and moves the cursor forward, not past the limit. -/
theorem readEntry_cur {m : Mode} {lim : Nat} {B B' : BitBuf} {cm : CodeMap} {e : Symbol × Bits}
    (h : readEntry B m lim cm = .ok (e, B')) : B'.bits = B.bits ∧ B.cur < B'.cur ∧ B'.cur ≤ lim := by
  rw [readEntry, bind_eq_ok] at h
  obtain ⟨⟨sym, B1⟩, h1, h⟩ := h
  simp only [bind_eq_ok] at h
  obtain ⟨⟨plen, B2⟩, h2, h⟩ := h
  obtain ⟨b1, c1, d1⟩ := readSym_cur h1
  obtain ⟨b2, c2, d2⟩ := readLim_cur h2
  simp only at h
  split at h
  · simp at h
  · rw [bind_eq_ok] at h
    obtain ⟨⟨v, B3⟩, h3, h⟩ := h
    obtain ⟨b3, c3, d3⟩ := readLim_cur h3
    simp only at h
    split at h
    · simp at h
    · simp only [pure_eq_ok, Except.ok.injEq, Prod.mk.injEq] at h
      obtain ⟨-, rfl⟩ := h
      exact ⟨b3.trans (b2.trans b1), by omega, by omega⟩

/-- R164: the table loop with enough turns. -/
theorem tableDesLoop_fuel (m : Mode) (lim f g : Nat) (B : BitBuf) (cm : CodeMap)
    (hf : lim - B.cur ≤ f) (hg : lim - B.cur ≤ g) : tableDesLoop m lim f B cm = tableDesLoop m lim g B cm := by
  induction f generalizing g B cm with
  | zero =>
    cases g with
    | zero => rfl
    | succ g => rw [tableDesLoop, tableDesLoop, if_neg (by omega)]
  | succ f ih =>
    cases g with
    | zero => rw [tableDesLoop, tableDesLoop, if_neg (by omega)]
    | succ g =>
      rw [tableDesLoop, tableDesLoop]
      split
      · cases hr : readEntry B m lim cm with
        | error r => rfl
        | ok a =>
          obtain ⟨e, B'⟩ := a
          obtain ⟨-, hc, -⟩ := readEntry_cur hr
          exact ih g B' (cm ++ [e]) (by omega) (by omega)
      · rfl

/-- R183: the run loop with enough turns. -/
theorem readRuns_fuel (m : Mode) (width f g : Nat) (B : BitBuf) (rl : RunList)
    (hf : B.bits.length - B.cur ≤ f) (hg : B.bits.length - B.cur ≤ g) :
    readRuns m width f B rl = readRuns m width g B rl := by
  induction f generalizing g B rl with
  | zero =>
    cases g with
    | zero => rfl
    | succ g => rw [readRuns, readRuns, if_neg (by omega)]
  | succ f ih =>
    cases g with
    | zero => rw [readRuns, readRuns, if_neg (by omega)]
    | succ g =>
      rw [readRuns, readRuns]
      split
      · cases h1 : readBits B width with
        | error r => rfl
        | ok a =>
          obtain ⟨n, B1⟩ := a
          obtain ⟨b1, c1, d1⟩ := readLim_cur h1
          simp only [ok_bind]
          cases h2 : readSym B1 m B.bits.length .insufficientBits with
          | error r => rfl
          | ok a =>
            obtain ⟨sym, B2⟩ := a
            obtain ⟨b2, c2, d2⟩ := readSym_cur h2
            rw [b1] at b2
            exact ih g B2 _ (by rw [b2]; omega) (by rw [b2]; omega)
      · rfl

/-- R202: the character loop with enough turns. -/
theorem readChars_fuel (f g : Nat) (B : BitBuf) (t : List Chr)
    (hf : B.bits.length - B.cur ≤ f) (hg : B.bits.length - B.cur ≤ g) : readChars f B t = readChars g B t := by
  induction f generalizing g B t with
  | zero =>
    cases g with
    | zero => rfl
    | succ g => rw [readChars, readChars, if_neg (by omega)]
  | succ f ih =>
    cases g with
    | zero => rw [readChars, readChars, if_neg (by omega)]
    | succ g =>
      rw [readChars, readChars]
      split
      · cases h1 : readBits B charW with
        | error r => rfl
        | ok a =>
          obtain ⟨v, B1⟩ := a
          obtain ⟨b1, c1, d1⟩ := readLim_cur h1
          simp only [charW] at c1 d1
          simp only [ok_bind]
          cases chr? v with
          | none => rfl
          | some c => exact ih g B1 (t ++ [c]) (by rw [b1]; omega) (by rw [b1]; omega)
      · rfl

@[simp] theorem insertNode_length (n : Node) (l : List Node) : (insertNode n l).length = l.length + 1 := by
  induction l with
  | nil => rfl
  | cons m l ih => rw [insertNode]; split <;> simp [ih]

@[simp] theorem stableSort_length (l : List Node) : (stableSort l).length = l.length := by
  induction l with
  | nil => rfl
  | cons n l ih => simp [stableSort, ih]

@[simp] theorem reinsert_length (pos : InsertPos) (n : Node) (l : List Node) :
    (reinsert pos n l).length = l.length + 1 := by
  cases pos <;> simp [reinsert]

/-- R143, R234: the merge loop ends with one node. -/
theorem mergeLoop_length (pos : InsertPos) (f : Nat) (l : List Node) (h : l.length ≤ f + 1) (hne : l ≠ []) :
    (mergeLoop pos f l).length = 1 := by
  induction f generalizing l with
  | zero =>
    match l, hne with
    | [n], _ => rfl
    | a :: b :: l, _ => simp at h
  | succ f ih =>
    match l, hne with
    | [n], _ => rfl
    | a :: b :: l, _ =>
      rw [mergeLoop]
      apply ih
      · simp at h ⊢; omega
      · intro hn
        have := congrArg List.length hn
        simp at this

end Sys2Proof.Machine
end

