-- ==== Sys2Proof/Laws/Memory.lean ====
section
/-! SUPPORT. Memory.wf (10_state.md R28, R29): the capacities and the cursors. Every operation over the text buffer and the
bit buffers keeps it, and it holds after reset. -/
namespace Sys2Proof.Machine

/-- What Memory.wf says of one bit buffer. -/
def BitBuf.wf (cap : Nat) (B : BitBuf) : Prop := B.bits.length ≤ cap ∧ B.cur ≤ B.bits.length

theorem Memory.wf_iff (s : State) :
    Memory.wf s = true ↔
      s.txt.length ≤ s.cfg.txtCap.val ∧ s.bb0.wf s.cfg.bbCap.val ∧ s.bb1.wf s.cfg.bbCap.val := by
  simp only [Memory.wf, BitBuf.wf, Bool.and_eq_true, decide_eq_true_eq]
  tauto

theorem Memory.wf_reset : Memory.wf State.reset = true := by decide

theorem Memory.wf_bb {s : State} (h : Memory.wf s = true) (b : BufSel) : (s.bb b).wf s.cfg.bbCap.val := by
  obtain ⟨-, h0, h1⟩ := (Memory.wf_iff s).1 h
  cases b <;> assumption

theorem BitBuf.wf_empty (cap : Nat) : BitBuf.empty.wf cap := by simp [BitBuf.wf, BitBuf.empty]

theorem BitBuf.wf_fresh {cap : Nat} {t : Bits} (h : t.length ≤ cap) : (BitBuf.mk t 0).wf cap := by
  simp [BitBuf.wf, h]

theorem BitBuf.wf_rewind {cap : Nat} {B : BitBuf} (h : B.wf cap) : ({ B with cur := 0 } : BitBuf).wf cap :=
  ⟨h.1, Nat.zero_le _⟩

theorem BitBuf.wf_atEnd {cap : Nat} {B : BitBuf} (h : B.wf cap) :
    ({ B with cur := B.bits.length } : BitBuf).wf cap := ⟨h.1, le_rfl⟩

theorem appendBits_wf {cap : Nat} {B B' : BitBuf} {v width : Nat} (h : B.wf cap)
    (hr : appendBits cap B v width = .ok B') : B'.wf cap := by
  obtain ⟨-, hc, rfl⟩ := appendBits_eq_ok.1 hr
  have := h.2
  simp only [BitBuf.wf, List.length_append, bits_length]
  omega

theorem appendLiteral_wf {cap : Nat} {B B' : BitBuf} {t : Bits} (h : B.wf cap)
    (hr : appendLiteral cap B t = .ok B') : B'.wf cap := by
  obtain ⟨hc, rfl⟩ := appendLiteral_eq_ok.1 hr
  have := h.2
  simp only [BitBuf.wf, List.length_append]
  omega

theorem readBits_wf {cap : Nat} {B B' : BitBuf} {n v : Nat} (h : B.wf cap)
    (hr : readBits B n = .ok (v, B')) : B'.wf cap := by
  obtain ⟨hn, -, rfl⟩ := readLim_eq_ok.1 hr
  have := h.1
  have := h.2
  simp only [BitBuf.wf]
  omega

theorem Memory.wf_setBB {s : State} {b : BufSel} {B : BitBuf} (h : Memory.wf s = true)
    (hB : B.wf s.cfg.bbCap.val) : Memory.wf (s.setBB b B) = true := by
  obtain ⟨ht, h0, h1⟩ := (Memory.wf_iff s).1 h
  cases b
  · exact (Memory.wf_iff _).2 ⟨ht, hB, h1⟩
  · exact (Memory.wf_iff _).2 ⟨ht, h0, hB⟩

theorem Memory.wf_setTxt {s : State} {t : List Byte} (h : Memory.wf s = true)
    (ht : t.length ≤ s.cfg.txtCap.val) : Memory.wf { s with txt := t } = true := by
  obtain ⟨-, h0, h1⟩ := (Memory.wf_iff s).1 h
  exact (Memory.wf_iff _).2 ⟨ht, h0, h1⟩

@[simp] theorem Memory.wf_recordError (r : Raise) (s : State) : Memory.wf (recordError r s) = Memory.wf s := rfl
@[simp] theorem Memory.wf_complete (s : State) : Memory.wf (complete s) = Memory.wf s := rfl
@[simp] theorem Memory.wf_clearError (s : State) : Memory.wf (clearError s) = Memory.wf s := rfl
@[simp] theorem Memory.wf_setMode (m : Mode) (s : State) : Memory.wf (setMode m s) = Memory.wf s := rfl

theorem Memory.wf_applyReset (s : State) : Memory.wf (applyReset s) = true := by
  simp [Memory.wf_iff, BitBuf.wf, State.reset, BitBuf.empty]

theorem Memory.wf_writeReg (r : Reg) (v : Word) (s : State) : Memory.wf (writeReg r v s) = Memory.wf s := by
  cases r <;> rfl

/-- R243: the envelope keeps the form when the command's pseudocode does. -/
theorem Memory.wf_command {body : State → Result State} {s t : State} (h : Memory.wf s = true)
    (hb : ∀ u, body s = .ok u → Memory.wf u = true) (ht : command body s = .next t) : Memory.wf t = true := by
  obtain ⟨-, rfl⟩ | ⟨-, u, hu, rfl⟩ | ⟨-, r, -, rfl⟩ := command_cases ht
  · exact h
  · exact hb u hu
  · exact h

end Sys2Proof.Machine
end

