-- ==== Sys2Proof/Laws/PerInstr.lean ====
section
/-! SUPPORT. Lemmas for all instructions, one per constructor. EncodingFields: the fields of a command's word are the
command's own (30_encoding.md R80, R82). -/
namespace Sys2Proof.Laws.EncodingFields

/-- R80: `op`, `imm8` and `b` of the word are the command's, and `rsv` is 0. -/
def Statement (i : Instr) : Prop :=
  opOf (encode i) = i.opcode ∧ imm8Of (encode i) = i.imm8
    ∧ (encode i).extractLsb' 16 1 = i.selBit ∧ (encode i).extractLsb' 17 15 = 0

/-- R80: the bits of a word written field by field. -/
theorem word_getLsbD (sel : BitVec 1) (imm op : BitVec 8) (j : Nat) :
    ((0 : BitVec 15) ++ sel ++ imm ++ op).getLsbD j =
      if j < 8 then op.getLsbD j else if j < 16 then imm.getLsbD (j - 8) else if j < 17 then sel.getLsbD (j - 16)
      else false := by
  simp only [BitVec.getLsbD_append, BitVec.ofNat_eq_ofNat, BitVec.getLsbD_zero]
  repeat' split
  all_goals first | rfl | omega

theorem fields_of_append (sel : BitVec 1) (imm op : BitVec 8) :
    ((0 : BitVec 15) ++ sel ++ imm ++ op).extractLsb' 0 8 = op
      ∧ ((0 : BitVec 15) ++ sel ++ imm ++ op).extractLsb' 8 8 = imm
      ∧ ((0 : BitVec 15) ++ sel ++ imm ++ op).extractLsb' 16 1 = sel
      ∧ ((0 : BitVec 15) ++ sel ++ imm ++ op).extractLsb' 17 15 = 0 := by
  refine ⟨?_, ?_, ?_, ?_⟩ <;> ext j hj <;> rw [BitVec.getElem_extractLsb', word_getLsbD]
  · simp [hj]
  · rw [if_neg (by omega), if_pos (by omega)]; simp [hj]
  · rw [if_neg (by omega), if_neg (by omega), if_pos (by omega)]; simp [hj]
  · rw [if_neg (by omega), if_neg (by omega), if_neg (by omega)]; simp

theorem all (i : Instr) : Statement i := fields_of_append i.selBit i.imm8 i.opcode

theorem nop : Statement .nop := all _
theorem bbClear (b : BufSel) : Statement (.bbClear b) := all _
theorem bbAppend (b : BufSel) (width : Nat) : Statement (.bbAppend b width) := all _
theorem bbAppendl (b : BufSel) : Statement (.bbAppendl b) := all _
theorem bbRead (b : BufSel) (count : Nat) : Statement (.bbRead b count) := all _
theorem bbRewind (b : BufSel) : Statement (.bbRewind b) := all _
theorem txtClear : Statement .txtClear := all _
theorem txtPut (v : Byte) : Statement (.txtPut v) := all _
theorem tokenize : Statement .tokenize := all _
theorem freq : Statement .freq := all _
theorem runs : Statement .runs := all _
theorem detok : Statement .detok := all _
theorem huffBuild : Statement .huffBuild := all _
theorem tblSer : Statement .tblSer := all _
theorem tblDes : Statement .tblDes := all _
theorem rleEnc : Statement .rleEnc := all _
theorem rleDec : Statement .rleDec := all _
theorem ascEnc : Statement .ascEnc := all _
theorem ascDec : Statement .ascDec := all _
theorem hufEnc : Statement .hufEnc := all _
theorem hufDec : Statement .hufDec := all _

end Sys2Proof.Laws.EncodingFields
end

