-- ==== Sys2Proof/Machine/Assembler.lean ====
section
/-! DEFINITION. The host program lines and pseudo-instructions of 30_encoding.md R90 and R91, as lists of host events
(DESIGN CHOICE, log entry 14). -/
namespace Sys2Proof.Machine

/-- R90 `WR <reg>, <value>`. -/
def lineWr (base : Nat) (r : Reg) (v : Word) : HostEvent := .write (base + r.offset) v

/-- R90 `RD <reg>`. -/
def lineRd (base : Nat) (r : Reg) : HostEvent := .read (base + r.offset)

/-- R90, a command line of any format: `WR CMD, op | imm8<<8 | b<<16`. -/
def lineCmd (base : Nat) (i : Instr) : HostEvent := .write (base + Reg.cmd.offset) (encode i)

/-- R91 `CLRERR`. -/
def clrErr (base : Nat) : List HostEvent := [lineWr base .err 0]

/-- R91 `LDW v`: eight writes. -/
def ldw (base : Nat) (v : Wide) : List HostEvent := (List.finRange 8).map fun k => lineWr base (.w k) (wideWord v k)

/-- R91 `APPENDV b, w, v`. -/
def appendV (base : Nat) (b : BufSel) (width : Nat) (v : Wide) : List HostEvent := ldw base v ++ [lineCmd base (.bbAppend b width)]

/-- R91 `PUTS "text"`. -/
def puts (base : Nat) (text : List Byte) : List HostEvent := text.map fun c => lineCmd base (.txtPut c)

/-- R91 `LOADTXT "text"`. -/
def loadTxt (base : Nat) (text : List Byte) : List HostEvent := lineCmd base .txtClear :: puts base text

/-- R91, the appends of `LOADART` for `n` bits: whole bytes first, then the high bits of the next byte. R91
takes the bytes to hold `n` bits; that fewer bytes end the appends at the last byte is the model's choice (DESIGN CHOICE, log
entry 18). -/
def loadBytes (base : Nat) (b : BufSel) : List Byte → Nat → List HostEvent
  | [], _ => []
  | B :: rest, n =>
    if 8 ≤ n then appendV base b 8 (B.setWidth 256) ++ loadBytes base b rest (n - 8)
    else if n = 0 then []
    else appendV base b n ((B >>> (8 - n)).setWidth 256)

/-- R91 `LOADART b, bytes, n`. With `n` above 8 times the bytes it appends what is there (DESIGN CHOICE, log entry 18). -/
def loadArt (base : Nat) (b : BufSel) (bytes : List Byte) (n : Nat) : List HostEvent :=
  lineCmd base (.bbClear b) :: loadBytes base b bytes n

/-- R91, one read of `READART`. -/
def readOut (base : Nat) (b : BufSel) (count : Nat) : List HostEvent := [lineCmd base (.bbRead b count), lineRd base (.w 0)]

/-- R91 `READART b`; `n` is the length the host read from `BBb_LEN`. -/
def readArt (base : Nat) (b : BufSel) (n : Nat) : List HostEvent :=
  [lineCmd base (.bbRewind b), lineRd base (.bbLen b)] ++ (List.replicate (n / 8) (readOut base b 8)).flatten
    ++ (if n % 8 = 0 then [] else readOut base b (n % 8))

end Sys2Proof.Machine
end

