-- ==== Sys2Proof/Tests/Slice0.lean ====
section
/-! SUPPORT. Tests: the well-formedness smoke, words written out from the encoding, single commands on small states with the
results of spec/95_test_vectors.md, and for every statement with hypotheses a state and operands that meet them. -/
namespace Sys2Proof.Tests
open Sys2Proof.Machine Sys2Proof.Safety

/-! ### Helpers -/

/-- A text from its codes. -/
def text (codes : List Nat) : List Byte := codes.map (BitVec.ofNat 8)

/-- A bit sequence from its digits. -/
def digits (ds : List Nat) : Bits := ds.map (· == 1)

/-- The state after reset with a text. -/
def withText (m : Mode) (codes : List Nat) : State := { State.reset with mode := m, txt := text codes }

/-- The state after reset with the bits of BB[0], and of BB[1], their cursors at 0. -/
def withBits0 (m : Mode) (b : Bits) : State := { State.reset with mode := m, bb0 := ⟨b, 0⟩ }
def withBits1 (m : Mode) (b : Bits) : State := { State.reset with mode := m, bb1 := ⟨b, 0⟩ }

/-- The state after reset with capacities. -/
def withCaps (txtCap bbCap : Fin 4294967296) : State :=
  { State.reset with cfg := { Config.standard with txtCap := txtCap, bbCap := bbCap } }

/-- The state after reset whose next host event is `e`. -/
def offering (e : HostEvent) : State := { State.reset with pending := [e] }

/-- The command answers a next state in which `p` holds. -/
def gives (i : Instr) (s : State) (p : State → Bool) : Bool :=
  match exec i s with
  | .next t => p t
  | .fault _ => false
  | .refused _ => false

/-- The command answers exactly the state `t`. -/
def becomes (i : Instr) (s t : State) : Bool := gives i s fun u => decide (u = t)

/-- One step answers a next state in which `p` holds. -/
def stepGives (s : State) (p : State → Bool) : Bool :=
  match step s with
  | .next t => p t
  | .fault _ => false
  | .refused _ => false

/-- The value a host read at an offset returns. -/
def rd (s : State) (off : Nat) : Word := readOffset s off

/-! ### Well-formedness: each check refuses an ill-formed term and accepts the boundary (R84) -/

theorem smoke_bbAppend_width_256_refused : ¬ (Instr.bbAppend .b0 256).WellFormed := by decide
theorem smoke_bbRead_count_256_refused : ¬ (Instr.bbRead .b1 256).WellFormed := by decide
theorem smoke_boundary_accepted :
    (Instr.bbAppend .b0 255).WellFormed ∧ (Instr.bbRead .b1 0).WellFormed ∧ (Instr.txtPut 255).WellFormed := by decide

/-! ### Decoding: every constructor by a word written out from R80 to R83 (95_test_vectors.md section 2) -/

theorem test_decode_system : decode 0x00000000 = .ok .nop := by decide
theorem test_decode_bitbuffer :
    decode 0x00000001 = .ok (.bbClear .b0) ∧ decode 0x00010001 = .ok (.bbClear .b1)
      ∧ decode 0x00000702 = .ok (.bbAppend .b0 7) ∧ decode 0x0001FF02 = .ok (.bbAppend .b1 255)
      ∧ decode 0x00000003 = .ok (.bbAppendl .b0) ∧ decode 0x00010003 = .ok (.bbAppendl .b1)
      ∧ decode 0x00000804 = .ok (.bbRead .b0 8) ∧ decode 0x00010004 = .ok (.bbRead .b1 0)
      ∧ decode 0x00010005 = .ok (.bbRewind .b1) := by decide
theorem test_decode_symbolmodel :
    decode 0x00000010 = .ok .txtClear ∧ decode 0x00006111 = .ok (.txtPut 0x61) ∧ decode 0x00007F11 = .ok (.txtPut 127)
      ∧ decode 0x00000011 = .ok (.txtPut 0) ∧ decode 0x00000012 = .ok .tokenize ∧ decode 0x00000013 = .ok .freq
      ∧ decode 0x00000014 = .ok .runs ∧ decode 0x00000015 = .ok .detok := by decide
theorem test_decode_codecs :
    decode 0x00000020 = .ok .huffBuild ∧ decode 0x00000028 = .ok .tblSer ∧ decode 0x00000029 = .ok .tblDes
      ∧ decode 0x00000030 = .ok .rleEnc ∧ decode 0x00000031 = .ok .rleDec ∧ decode 0x00000038 = .ok .ascEnc
      ∧ decode 0x00000039 = .ok .ascDec ∧ decode 0x00000040 = .ok .hufEnc ∧ decode 0x00000041 = .ok .hufDec := by decide

/-- The sixteen illegal words of 95_test_vectors.md section 2, with the reason the decoder names: first a field
that must be 0, then an opcode that is not assigned. -/
theorem test_decode_illegal_fields :
    decode 0x00000100 = .error .fieldNotZero ∧ decode 0x00010000 = .error .fieldNotZero
      ∧ decode 0x00010010 = .error .fieldNotZero ∧ decode 0x00000130 = .error .fieldNotZero
      ∧ decode 0x00000101 = .error .fieldNotZero ∧ decode 0x00016111 = .error .fieldNotZero
      ∧ decode 0x00020001 = .error .fieldNotZero ∧ decode 0x80000000 = .error .fieldNotZero := by decide
theorem test_decode_illegal_opcodes :
    decode 0x00000006 = .error .unassignedOpcode ∧ decode 0x00000016 = .error .unassignedOpcode
      ∧ decode 0x00000021 = .error .unassignedOpcode ∧ decode 0x0000002A = .error .unassignedOpcode
      ∧ decode 0x00000032 = .error .unassignedOpcode ∧ decode 0x0000003A = .error .unassignedOpcode
      ∧ decode 0x00000042 = .error .unassignedOpcode ∧ decode 0x000000FF = .error .unassignedOpcode := by decide

/-- R83: the patterns of the 21 rows are pairwise different, so no word selects two rows. -/
theorem test_rows_disjoint :
    opcodeTable.length = 21 ∧ opcodeTable.Pairwise fun a b => a.op ≠ b.op := by decide

theorem test_encode_words :
    encode (.bbAppend .b1 255) = 0x0001FF02 ∧ encode (.txtPut 0x61) = 0x00006111 ∧ encode (.bbRewind .b1) = 0x00010005
      ∧ encode .hufDec = 0x00000041 := by decide

/-- The host's two questions on one row, TXT_PUT 'a'. -/
theorem test_decodeTableWord : decodeTableWord 32 0x00006111 = some (.txtPut 0x61) := by decide
theorem test_withFetchWord_runs : stepGives (State.reset.withFetchWord 32 0x00006111)
    (fun t => decide (t.txt = [0x61] ∧ t.done = true ∧ t.pending = [])) = true := by decide

/-- With BASE = 0x1000 the word goes to address 0x1000, and one at address 0 is outside the window (R69). -/
theorem test_base :
    stepGives ({ State.reset with cfg := { Config.standard with baseWord := 0x400 } }.withFetchWord 32 0x00006111)
      (fun t => decide (t.txt = [0x61])) = true
      ∧ stepGives { offering (.write 0x00 0x00006111) with cfg := { Config.standard with baseWord := 0x400 } }
        (fun _ => true) = false := by decide

/-! ### Single commands, expected results from 95_test_vectors.md section 3 -/

theorem test_nop_status : gives .nop State.reset (fun t => rd t 0x04 == 2) = true := by decide
theorem test_bbClear_one_buffer :
    becomes (.bbClear .b0) { State.reset with bb0 := ⟨digits [1, 0], 2⟩, bb1 := ⟨digits [1], 1⟩ }
      { State.reset with bb1 := ⟨digits [1], 1⟩, done := true } = true := by decide
theorem test_bbAppend_writes_after_the_bits :
    becomes (.bbAppend .b0 7) { State.reset with bb0 := ⟨digits [1, 0, 1], 0⟩, w := 97 }
      { State.reset with bb0 := ⟨digits [1, 0, 1, 1, 1, 0, 0, 0, 0, 1], 0⟩, w := 97, done := true } = true := by decide
theorem test_bbAppend_all_of_w_counts :
    becomes (.bbAppend .b0 8) { State.reset with w := 0x100000041 }
      (failed { State.reset with w := 0x100000041 } .fieldOverflow 0) = true := by decide
theorem test_bbAppendl_from_the_other_buffer :
    becomes (.bbAppendl .b1) { State.reset with bb0 := ⟨digits [1, 0], 1⟩, bb1 := ⟨digits [0, 0, 1, 1], 4⟩ }
      { State.reset with
        bb0 := ⟨digits [1, 0], 1⟩, bb1 := ⟨digits [0, 0, 1, 1, 1, 0], 4⟩, done := true } = true := by decide
theorem test_bbRead_from_the_cursor :
    becomes (.bbRead .b0 7) { State.reset with bb0 := ⟨digits [1, 0, 1, 1, 1, 0, 0, 0, 0, 1], 3⟩ }
      { State.reset with bb0 := ⟨digits [1, 0, 1, 1, 1, 0, 0, 0, 0, 1], 10⟩, w := 97, done := true } = true := by decide
theorem test_bbRead_too_many :
    becomes (.bbRead .b0 7) { State.reset with bb0 := ⟨digits [1, 0, 1, 1, 1, 0, 0, 0, 0, 1], 4⟩, w := 97 }
      (failed { State.reset with bb0 := ⟨digits [1, 0, 1, 1, 1, 0, 0, 0, 0, 1], 4⟩, w := 97 }
        .insufficientBits 4) = true := by decide
theorem test_bbRewind : becomes (.bbRewind .b1) { State.reset with bb1 := ⟨digits [1, 0], 2⟩ }
    { State.reset with bb1 := ⟨digits [1, 0], 0⟩, done := true } = true := by decide
theorem test_txtClear : becomes .txtClear { withText .word [0x61] with txtAddr := 7 }
    { State.reset with mode := .word, txtAddr := 7, done := true } = true := by decide
theorem test_txtPut_unchecked : becomes (.txtPut 0xFF) (withText .character [0x61])
    { withText .character [0x61, 0xFF] with done := true } = true := by decide
theorem test_txtPut_full : becomes (.txtPut 0x63) { withCaps 2 8 with txt := text [0x61, 0x62] }
    (failed { withCaps 2 8 with txt := text [0x61, 0x62] } .capacityExceeded 0) = true := by decide

/-- ` the  cat ` in word mode: empty tokens are discarded. -/
theorem test_tokenize_word :
    gives .tokenize (withText .word [32, 116, 104, 101, 32, 32, 99, 97, 116, 32])
      (fun t => t.syms == [[116, 104, 101], [99, 97, 116]]) = true := by decide
theorem test_tokenize_invalid : becomes .tokenize (withText .word [0x61, 0x62, 0xFF, 0x7F])
    (failed (withText .word [0x61, 0x62, 0xFF, 0x7F]) .invalidSymbol 2) = true := by decide
theorem test_freq : gives .freq { State.reset with syms := [[97], [97], [98], [98], [98], [97], [97]] }
    (fun t => t.ft == [([97], 4), ([98], 3)]) = true := by decide
theorem test_runs : gives .runs { State.reset with syms := [[97], [97], [98], [98], [98], [97], [97]] }
    (fun t => t.rl == [([97], 2), ([98], 3), ([97], 2)]) = true := by decide

/-- `a\tb` and `c`: one space after every word. -/
theorem test_detok_word : gives .detok { State.reset with mode := .word, syms := [[97, 9, 98], [99]] }
    (fun t => t.txt == text [97, 9, 98, 32, 99, 32]) = true := by decide

/-- `abccdd`: an internal node goes before a leaf of the same frequency. -/
theorem test_huffBuild_internal_first :
    gives .huffBuild { State.reset with ft := [([97], 1), ([98], 1), ([99], 2), ([100], 2)] }
      (fun t => t.cm == [([100], digits [1]), ([97], digits [0, 1, 1]), ([98], digits [0, 1, 0]),
        ([99], digits [0, 0])] && !t.degen) = true := by decide

/-- `abcd` with INSERT_POS = front. -/
theorem test_huffBuild_front :
    gives .huffBuild { State.reset with
        cfg := { Config.standard with insertPos := .front }, ft := [([97], 1), ([98], 1), ([99], 1), ([100], 1)] }
      (fun t => t.cm == [([99], digits [1, 1]), ([100], digits [1, 0]), ([97], digits [0, 1]),
        ([98], digits [0, 0])]) = true := by decide
theorem test_tblSer_word : gives .tblSer { State.reset with mode := .word, cm := [([104, 105], digits [0])] }
    (fun t => t.bb1 == ⟨digits [1, 1, 0, 1, 0, 0, 0, 1, 1, 0, 1, 0, 0, 1, 1, 1, 1, 1, 1, 1, 1, 0, 0, 0, 0, 0, 0, 0, 1,
      0], 0⟩) = true := by decide
theorem test_tblDes_one_entry :
    gives .tblDes (withBits1 .character (digits [1, 1, 0, 0, 0, 0, 1, 0, 0, 0, 0, 0, 0, 0, 1, 0]))
      (fun t => t.cm == [([97], digits [0])] && t.bb1.cur == 16) = true := by decide

/-- The codeword `0` twice: the second codeword field starts at bit 31. -/
theorem test_tblDes_repeated_codeword :
    gives .tblDes (withBits1 .character (digits [1, 1, 0, 0, 0, 0, 1, 0, 0, 0, 0, 0, 0, 0, 1, 0,
        1, 1, 0, 0, 0, 1, 0, 0, 0, 0, 0, 0, 0, 0, 1, 0]))
      (fun t => t.err == some .malformedTable && t.errInfo == 31) = true := by decide

/-- `aaabbbbc`: 39 bits, `01 BC 33 11 C6`. -/
theorem test_rleEnc : gives .rleEnc (withText .character [97, 97, 97, 98, 98, 98, 98, 99])
    (fun t => artifact t.bb0.bits == ([0x01, 0xBC, 0x33, 0x11, 0xC6], 39)
      && t.rl == [([97], 3), ([98], 4), ([99], 1)]) = true := by decide +kernel
theorem test_rleDec_skips_empty_runs :
    gives .rleDec (withBits0 .word (digits [0, 0, 0, 0, 0, 0, 0, 1, 0, 0, 0, 1, 1, 0, 0, 0, 0, 1,
        1, 1, 1, 1, 0, 0, 0, 1, 0]))
      (fun t => t.rl == [([97], 0), ([98], 3)] && t.txt == text [98, 98, 98] && t.mode == .character) = true := by
  decide +kernel
theorem test_rleDec_sentinel :
    gives .rleDec (withBits0 .word (digits [0, 0, 0, 0, 0, 0, 0, 0, 1, 1, 1, 1, 1, 1, 1, 1, 1]))
      (fun t => t.err == some .invalidSymbol && t.errInfo == 10 && t.mode == .word) = true := by decide +kernel

/-- `Hi!`: 21 bits, `91 A5 08`. -/
theorem test_ascEnc : gives .ascEnc (withText .word [72, 105, 33])
    (fun t => artifact t.bb0.bits == ([0x91, 0xA5, 0x08], 21)) = true := by decide +kernel
theorem test_ascDec_length_first :
    gives .ascDec (withBits0 .character (digits [1, 1, 1, 1, 1, 1, 1, 1, 1, 0, 0, 0, 0]))
      (fun t => t.err == some .truncatedStream && t.errInfo == 7) = true := by decide
theorem test_ascDec : gives .ascDec (withBits0 .word (unbytes [0x91, 0xA5, 0x08] 21))
    (fun t => t.txt == text [72, 105, 33] && t.bb0.cur == 21) = true := by decide +kernel

/-- `aaaa`: 37 bits, `00 88 61 01 00`, one entry, DEGEN. -/
theorem test_hufEnc_one_symbol : gives .hufEnc (withText .character [97, 97, 97, 97])
    (fun t => artifact t.bb0.bits == ([0x00, 0x88, 0x61, 0x01, 0x00], 37) && rd t 0x04 == 0x0A) = true := by
  decide +kernel

/-- Word mode, `the cat the dog the`: 137 bits. -/
theorem test_hufEnc_words :
    gives .hufEnc (withText .word [116, 104, 101, 32, 99, 97, 116, 32, 116, 104, 101, 32, 100, 111, 103, 32, 116,
      104, 101])
      (fun t => artifact t.bb0.bits == ([0x80, 0xB8, 0xE3, 0xC3, 0xD3, 0xF8, 0x17, 0x93, 0x7E, 0x7F, 0xE0, 0x57, 0x4D,
        0x19, 0x7F, 0x80, 0x9A, 0x00], 137) && t.bb1.bits.length == 113) = true := by decide +kernel
theorem test_hufDec_words :
    gives .hufDec (withBits0 .character (unbytes [0x80, 0xB8, 0xE3, 0xC3, 0xD3, 0xF8, 0x17, 0x93, 0x7E, 0x7F, 0xE0,
      0x57,
        0x4D, 0x19, 0x7F, 0x80, 0x9A, 0x00] 137))
      (fun t => t.txt == text [116, 104, 101, 32, 99, 97, 116, 32, 116, 104, 101, 32, 100, 111, 103, 32, 116, 104,
        101, 32]
        && t.mode == .word && t.bb1.bits.length == 113) = true := by decide +kernel
theorem test_hufDec_table_past_its_length :
    gives .hufDec (withBits0 .character (digits [0, 0, 0, 0, 0, 0, 0, 0, 1, 0, 0, 0, 0, 1, 1, 1, 1,
        1, 1, 0, 0, 0, 0, 1, 0, 0, 0, 0, 0, 0, 0, 1, 0, 0, 0, 0, 0]))
      (fun t => t.err == some .malformedTable && t.errInfo == 32) = true := by decide +kernel

/-! ### The register window and the byte view -/

/-- The table port of 95_test_vectors.md section 3.3: TIDX = 2 of the map of `abracadabra`. -/
theorem test_table_port :
    (fun s => [rd s 0x3C, rd s 0x40, rd s 0x44, rd s 0x48, rd s 0x80])
      { State.reset with
        tsel := 2, tidx := 2, cm := [([97], digits [1]), ([114], digits [0, 1]), ([99], digits [0, 0, 1, 1]),
          ([100], digits [0, 0, 1, 0]), ([98], digits [0, 0, 0])] } = [5, 1, 0x63, 4, 3] := by decide

/-- W0 = 5, `WR W3, 0x80000000`: W = 2^127 + 5. -/
theorem test_write_w3 : stepGives { offering (lineWr 0 (.w 3) 0x80000000) with w := 5 }
    (fun t => t.w == BitVec.ofNat 256 (2 ^ 127 + 5)) = true := by decide
theorem test_write_mode_keeps_bit_0 :
    stepGives { offering (lineWr 0 .mode 0xFFFFFFFE) with mode := .word, degen := true, syms := [[97]] }
      (fun t => decide (t.mode = .character ∧ t.syms = [] ∧ t.degen = true)) = true := by decide
theorem test_illegal_word_recorded : stepGives (offering (.write 0x00 0xFF))
    (fun t => rd t 0x08 == 7 && rd t 0x0C == 0xFF && rd t 0x04 == 4) = true := by decide
theorem test_offsets : allRegs.map Reg.offset = [0x00, 0x04, 0x08, 0x0C, 0x10, 0x14, 0x18, 0x1C, 0x20, 0x24, 0x28, 0x2C,
    0x30, 0x34, 0x38, 0x3C, 0x40, 0x44, 0x48, 0x60, 0x64, 0x68, 0x6C, 0x70, 0x74, 0x78, 0x7C, 0x80, 0x84, 0x88, 0x8C,
    0x90, 0x94, 0x98, 0x9C] := by decide
theorem test_bytes_padded : artifact (digits [1, 1, 1, 1, 1, 1, 1, 1, 1]) = ([0xFF, 0x80], 9) := by decide +kernel

/-- R91, `LOADART b0` of the 7 bits of byte C6: BB_CLEAR, eight writes of W, BB_APPEND b0, 7 of the high bits 0x63. -/
theorem test_loadArt_line :
    loadArt 0 .b0 [0xC6] 7 = .write 0x00 0x00000001 :: .write 0x60 0x63 ::
      ((List.range 7).map fun k => .write (0x64 + 4 * k) 0) ++ [.write 0x00 0x00000702] := by decide

/-! ### Witnesses: for each statement with hypotheses, a state and operands that meet them, clause by clause -/

theorem next_of_gives {i : Instr} {s : State} {p : State → Bool} (h : gives i s p = true) :
    ∃ t, exec i s = .next t ∧ p t = true := by
  unfold gives at h
  split at h
  · exact ⟨_, by assumption, h⟩
  all_goals exact absurd h (by decide)

/-- A state in which every element a run can change has a value of its own; its window starts at BASE = 0x1000. -/
def busy : State :=
  { State.reset with
    txt := text [98, 99], bb0 := ⟨digits [1, 0, 1], 1⟩, bb1 := ⟨digits [0, 1], 2⟩, syms := [[97], [98]],
    ft := [([97], 2), ([98], 1)], cm := [([98], digits [1]), ([97], digits [0])], rl := [([97], 2), ([98], 3)],
    w := 5, done := true, degen := true, txtAddr := 1, tidx := 1,
    cfg := { Config.standard with baseWord := 0x400 } }

theorem witness_DecodeInvertsEncode :
    (Instr.bbAppend .b1 255).WellFormed ∧ (Instr.bbRead .b0 0).WellFormed ∧ Instr.hufDec.WellFormed := by decide
theorem witness_LegalWordIsItsCommandsEncoding : decode 0x0001FF04 = .ok (.bbRead .b1 255) := by decide
theorem witness_IllegalWordsAreRecorded :
    ∃ (s : State) (c : Word) (rest : List HostEvent), s.pending = .write (s.cfg.base + 0x00) c :: rest ∧ s.err = none
      ∧ illegal c = true :=
  ⟨{ busy with pending := [.write 0x1000 0x00020000, .reset] }, 0x00020000, [.reset], by decide⟩
theorem witness_StepRunsTheDecodedCommand :
    ∃ (s : State) (c : Word) (rest : List HostEvent) (i : Instr), s.pending = .write (s.cfg.base + 0x00) c :: rest
      ∧ decode c = .ok i ∧ s.err = none :=
  ⟨{ busy with pending := [.write 0x1000 0x0001FF04] }, 0x0001FF04, [], .bbRead .b1 255, by decide⟩
theorem witness_CommandsRefusedWhileErrorStands :
    ∃ (s : State) (c : Word) (rest : List HostEvent), s.pending = .write (s.cfg.base + 0x00) c :: rest ∧ s.err ≠ none :=
  ⟨{ busy with err := some .illegalCommand, pending := [.write 0x1000 0xFF] }, 0xFF, [], by decide⟩

/-- Both cases of the statement occur: TOKENIZE completes on a valid text and fails on a byte above 126. -/
theorem witness_FailingCommandHasNoPartialEffect :
    busy.err = none ∧ gives .tokenize busy (fun t => t.err == none) = true
      ∧ gives .tokenize { busy with txt := text [127] } (fun t => t.err == some .invalidSymbol) = true := by decide
theorem witness_CommandsChangeOnlyTheirWriteSet :
    Elem.w ∉ writeSet .hufDec ∧ Elem.degen ∉ writeSet .hufDec ∧ Elem.bits .b1 ∉ writeSet .tblDes
      ∧ Elem.cur .b0 ∉ writeSet (.bbAppend .b0 255) := by decide
theorem witness_StoresTouchOnlyTheirAddresses :
    (∃ t, exec (.bbAppend .b0 3) busy = .next t ∧ (t.err == none) = true)
      ∧ (∃ t, exec (.bbAppendl .b1) busy = .next t ∧ (t.err == none) = true)
      ∧ ∃ t, exec (.txtPut 0xFF) busy = .next t ∧ (t.err == none) = true :=
  ⟨next_of_gives (by decide), next_of_gives (by decide), next_of_gives (by decide)⟩

/-- Two states that differ in every element HUF_DEC does not read, on an artifact it decodes. -/
theorem witness_CommandsReadOnlyTheirReadSet :
    ∃ s1 s2 : State, s1.cfg = s2.cfg ∧ s1.err = none ∧ s2.err = none ∧ (∀ e ∈ readSet .hufDec, e.same s1 s2)
      ∧ s1.txt ≠ s2.txt ∧ s1.bb1 ≠ s2.bb1 ∧ s1.bb0.cur ≠ s2.bb0.cur
      ∧ gives .hufDec s1 (fun t => t.err == none) = true :=
  ⟨{ busy with bb0 := ⟨unbytes [0x00, 0x88, 0x61, 0x01, 0x00] 37, 7⟩ },
    { withBits0 .word (unbytes [0x00, 0x88, 0x61, 0x01, 0x00] 37) with cfg := busy.cfg }, rfl, rfl, rfl,
    by intro e he; simp only [readSet, List.mem_singleton] at he; subst he; rfl,
    by decide, by decide, by decide, by decide +kernel⟩
theorem witness_NopSetsOnlyDone : { busy with done := false }.err = none := by decide
theorem witness_ResetGivesTheResetValues : ∃ (s : State) (rest : List HostEvent), s.pending = .reset :: rest
  ∧ s.err ≠ none :=
  ⟨{ busy with err := some .fieldOverflow, pending := [.reset, .read 0x1004] }, [.read 0x1004], by decide⟩
theorem witness_HostReadsChangeNothing :
    ∃ (s : State) (off : Nat) (rest : List HostEvent), s.pending = .read (s.cfg.base + off) :: rest ∧ off < 256 ∧ off % 4 = 0
      ∧ s.err ≠ none :=
  ⟨{ busy with err := some .fieldOverflow, pending := [.read 0x10FC] }, 0xFC, [], by decide⟩
theorem witness_RegistersReadTheirState :
    busy.txt[busy.txtAddr.toNat]? = some 99
      ∧ { busy with txtAddr := 2 }.txt.length ≤ ({ busy with txtAddr := 2 }).txtAddr.toNat
      ∧ 7 < 8 ∧ ∀ off ∈ [0x4C, 0x5C, 0xA0, 0xFC, 0x05, 0xFF],
        off < 256 ∧ (0x48 < off ∧ off < 0x60 ∨ 0xA0 ≤ off ∨ off % 4 ≠ 0) := by decide

/-- For each value of TSEL, the table with an entry at TIDX, a character at TCHI and one past the end. -/
theorem witness_TablePortShowsTheSelectedEntry :
    (∀ sel ∈ ([0, 1, 2, 3] : List (BitVec 2)), ∃ T : List (Symbol × Nat × Bits),
      (sel = 0 → T = busy.syms.map fun y => (y, 0, [])) ∧ (sel = 1 → T = busy.ft.map fun e => (e.1, e.2, []))
        ∧ (sel = 2 → T = busy.cm.map fun e => (e.1, e.2.length, e.2))
          ∧ (sel = 3 → T = busy.rl.map fun e => (e.1, e.2, []))
        ∧ T.length = 2 ∧ T[busy.tidx.toNat]?.isSome = true)
      ∧ busy.cm[1]? = some ([97], digits [0]) ∧ ([97] : Symbol)[busy.tchi.toNat]? = some 97
      ∧ ([97] : Symbol).length ≤ ({ busy with tchi := 1 }).tchi.toNat ∧ 2 ≤ ({ busy with tidx := 2 }).tidx.toNat := by
  refine ⟨fun sel h => ?_, by decide, by decide, by decide, by decide⟩
  simp only [List.mem_cons, List.not_mem_nil, or_false] at h
  rcases h with h | h | h | h <;> subst h
  · exact ⟨busy.syms.map fun y => (y, 0, []), fun _ => rfl, by decide, by decide, by decide, by decide, by decide⟩
  · exact ⟨busy.ft.map fun e => (e.1, e.2, []), by decide, fun _ => rfl, by decide, by decide, by decide, by decide⟩
  · exact ⟨busy.cm.map fun e => (e.1, e.2.length, e.2), by decide, by decide, fun _ => rfl, by decide, by decide,
    by decide⟩
  · exact ⟨busy.rl.map fun e => (e.1, e.2, []), by decide, by decide, by decide, fun _ => rfl, by decide, by decide⟩
theorem witness_ErrorClearChangesOnlyErrAndErrInfo :
    ∃ (s : State) (v : Word) (rest : List HostEvent), s.pending = .write (s.cfg.base + 0x08) v :: rest ∧ s.err ≠ none :=
  ⟨{ busy with err := some .malformedTable, errInfo := 7, pending := [.write 0x1008 0x12345678] }, 0x12345678, [],
    by decide⟩
theorem witness_ModeWriteEmptiesTheTables : ∃ (s : State) (v : Word) (rest : List HostEvent),
  s.pending = .write (s.cfg.base + 0x10) v :: rest ∧ s.cm ≠ [] :=
  ⟨{ busy with pending := [.write 0x1010 0xFFFFFFFF] }, 0xFFFFFFFF, [], by decide⟩
theorem witness_WideRegisterIsEightWords : ∃ (s : State) (k : Nat) (v : Word) (rest : List HostEvent), k < 8
  ∧ s.pending = .write (s.cfg.base + (0x60 + 4 * k)) v :: rest :=
  ⟨{ busy with pending := [.write 0x107C 0x80000000] }, 7, 0x80000000, [], by decide⟩

/-- One host write for each clause, the selectors, a read-only register, a reserved offset and both ends of the last one. -/
theorem witness_SelectorAndIgnoredWrites :
    ∀ off ∈ [0x18, 0x30, 0x34, 0x38, 0x04, 0x5C, 0x80, 0xFC],
      ({ busy with pending := [.write (busy.cfg.base + off) 0xFFFFFFFF] }).pending
          = .write (busy.cfg.base + off) 0xFFFFFFFF :: []
        ∧ (off ∈ [0x18, 0x30, 0x34, 0x38, 0x04, 0x5C] ∨ 0x80 ≤ off ∧ off < 256 ∧ off % 4 = 0) := by decide
theorem witness_AccessesOutsideTheInterfaceStop :
    ({ busy with pending := [.subWord 0x1014] }).pending = .subWord 0x1014 :: []
      ∧ ({ busy with pending := [.read 0xFFF] }).pending = .read 0xFFF :: [] ∧ 0xFFF < busy.cfg.base
      ∧ ({ busy with pending := [.read 0x1100] }).pending = .read 0x1100 :: [] ∧ busy.cfg.base + 256 ≤ 0x1100
      ∧ ({ busy with pending := [.write 0x10FF 7] }).pending = .write 0x10FF 7 :: []
      ∧ busy.cfg.base ≤ 0x10FF ∧ 0x10FF < busy.cfg.base + 256 ∧ 0x10FF % 4 ≠ 0 := by decide
theorem witness_RunPerformsEveryOfferedEvent :
    (∀ e ∈ [HostEvent.reset, .read 0x10FC, .write 0x1000 0x40, .write 0x10FC 1], offered busy.cfg.base e = true)
      ∧ busy.pending = [] := by decide

theorem witness_ClearAndRewindABuffer : busy.err = none := by decide

/-- FieldOverflow, CapacityExceeded and completion, at width 255 and at a full buffer. -/
theorem witness_AppendWritesTheOperandRegister :
    2 ^ 2 ≤ busy.w.toNat ∧ ({ withCaps 2 3 with w := 5, bb0 := ⟨digits [1], 0⟩ }).w.toNat < 2 ^ 3
      ∧ (withCaps 2 3).cfg.bbCap.val < (digits [1]).length + 3
      ∧ busy.w.toNat < 2 ^ 255 ∧ (busy.bb .b0).bits.length + 255 ≤ busy.cfg.bbCap.val ∧ busy.err = none := by decide
theorem witness_AppendLiteralTakesTheOtherBuffer :
    BufSel.b1 ≠ BufSel.b0 ∧ busy.err = none
      ∧ (busy.bb .b0).bits.length + (busy.bb .b1).bits.length ≤ busy.cfg.bbCap.val
      ∧ ({ busy with cfg := (withCaps 2 4).cfg }).cfg.bbCap.val
        < (busy.bb .b0).bits.length + (busy.bb .b1).bits.length := by decide
theorem witness_ReadMovesBitsToTheOperandRegister :
    (busy.bb .b0).bits.length - (busy.bb .b0).cur < 3 ∧ 2 ≤ (busy.bb .b0).bits.length - (busy.bb .b0).cur
      ∧ (busy.bb .b0).bits.length - (busy.bb .b0).cur < 255 ∧ busy.err = none := by decide
theorem witness_BitBufferLaws :
    appendBits 8 ⟨digits [1, 0], 2⟩ 5 3 = .ok ⟨digits [1, 0, 1, 0, 1], 2⟩ ∧ 5 < 2 ^ (2 + 1)
      ∧ 2 + 1 ≤ remaining ⟨digits [1, 0, 1], 0⟩
      ∧ appendLiteral 4 ⟨digits [1, 0], 1⟩ (digits [0, 1]) = .ok ⟨digits [1, 0, 0, 1], 1⟩
      ∧ readBits ⟨digits [1, 0, 1], 1⟩ 2 = .ok (1, ⟨digits [1, 0, 1], 3⟩) := by decide
theorem witness_ByteViewRecoversTheBits : 7 < 8 ∧ 1 < ((digits [1, 0, 1, 1, 1, 0, 0, 0, 0]).length + 7) / 8 := by decide

theorem witness_TextCommandsEmptyAndExtendTheText :
    busy.err = none ∧ busy.txt.length + 1 ≤ busy.cfg.txtCap.val
      ∧ ({ busy with cfg := (withCaps 2 4).cfg }).cfg.txtCap.val < busy.txt.length + 1 := by decide
theorem witness_InvalidTextIsRejectedAtItsFirstBadByte :
    ∃ (s : State) (pre : List Byte) (bad : Byte) (post : List Byte), s.err = none ∧ s.txt = pre ++ bad :: post
      ∧ (∀ v ∈ pre, v.toNat ≤ 126) ∧ 126 < bad.toNat :=
  ⟨withText .word [126, 0, 127, 255], text [126, 0], 127, text [255], by decide⟩
theorem witness_TokenizeStoresTheTokens :
    ∃ (s : State) (cs : List Chr), s.err = none ∧ s.txt = cs.map chrByte ∧ s.mode = .word :=
  ⟨withText .word [126, 32, 0], [126, 32, 0], by decide⟩
theorem witness_TokenizerSplitsAtSpacesOnly :
    ([97, 9] : List Chr) ≠ [] ∧ space ∉ ([97, 9] : List Chr) ∧ [97, 9] ∈ tokenize .word [32, 97, 9, 32] := by decide
theorem witness_FreqCountsInFirstOccurrenceOrder : busy.err = none
  ∧ ([97], 2) ∈ freqTable [[97], [98], [97]] := by decide
theorem witness_RunsAreMaximal :
    ∃ pre a b post, runsOf [[97], [97], [98], [97]] = pre ++ a :: b :: post :=
  ⟨[([97], 2)], ([98], 1), ([97], 1), [], by decide⟩
theorem witness_DetokWritesTheText :
    (∃ (s : State) (t : List Chr), s.err = none ∧ (s.mode = .character → t = s.syms.flatten)
        ∧ (s.mode = .word → t = s.syms.flatMap fun y => y ++ [space]) ∧ t.length ≤ s.cfg.txtCap.val)
      ∧ ∃ (s : State) (t : List Chr), s.err = none ∧ (s.mode = .character → t = s.syms.flatten)
        ∧ (s.mode = .word → t = s.syms.flatMap fun y => y ++ [space]) ∧ s.cfg.txtCap.val < t.length :=
  ⟨⟨{ busy with mode := .word }, [97, 32, 98, 32], by decide⟩,
    ⟨{ busy with cfg := (withCaps 1 4).cfg }, [97, 98], by decide⟩⟩
theorem witness_TextOfTokensIsTheTextAgain :
    ([[116, 104, 101], [99, 97, 116]] : List Symbol) ≠ []
      ∧ (∀ y ∈ ([[116, 104, 101], [99, 97, 116]] : List Symbol), IsWord y)
      ∧ ∀ c ∈ ([32, 32] : List Chr), c = space := by decide
theorem witness_ReadSymInvertsSymEnc :
    ((Mode.character = .character → ([126] : Symbol).length = 1) ∧ 2 + (symEnc .character [126]).length ≤ 9)
      ∧ ((Mode.word = .character → ([] : Symbol).length = 1) ∧ 2 + (symEnc .word []).length ≤ 9)
      ∧ 2 + 7 ≤ 9 ∧ 8 < 2 + 7 ∧ 2 + 7 * ([97] : Symbol).length ≤ 9 ∧ 15 < 2 + 7 * ([97] : Symbol).length + 7 := by decide

theorem witness_StableSortKeepsTiesInOrder :
    ([.internal 2 (.leaf [97] 1) (.leaf [98] 1), .leaf [99] 2] : List Node).Pairwise (fun a b => a.keyLe b = true) := by
  decide
theorem witness_HuffBuildStoresTheCodeMap :
    busy.err = none ∧ ([97] : Symbol) ≠ [98] ∧ (1 : Nat) ≤ 1 ∧ (1 : Nat) < 2 ∧ 2 ≤ busy.ft.length
      ∧ (busy.ft.map Prod.fst).Nodup ∧ busy.cfg.tableOrder = .walk
      ∧ ({ busy.cfg with tableOrder := .firstOccurrence }).tableOrder = .firstOccurrence := by decide
theorem witness_BuiltCodeIsPrefixFree :
    ((([([97], 1), ([98], 1), ([99], 2)] : FreqTab)).map Prod.fst).Nodup
      ∧ 2 ≤ ([([97], 1), ([98], 1), ([99], 2)] : FreqTab).length := by decide

/-- The code a = 00, b = 01, c = 1, which costs as much as the built one. -/
theorem witness_BuiltCodeIsOptimal :
    ∃ (ft : FreqTab) (code : Symbol → Bits), (ft.map Prod.fst).Nodup ∧ (∀ e ∈ ft, code e.1 ≠ [])
      ∧ ∀ e ∈ ft, ∀ f ∈ ft, e.1 ≠ f.1 → ¬ code e.1 <+: code f.1 :=
  ⟨[([97], 1), ([98], 1), ([99], 2)],
    fun y => if y = [97] then digits [0, 0] else if y = [98] then digits [0, 1] else digits [1], by decide⟩

/-- A map that fits, one that passes BB_CAP, and one whose second codeword has 256 bits after one of 255. -/
theorem witness_TableSerWritesTheSegment :
    ((∀ e ∈ busy.cm, e.2.length ≤ 255) ∧ (tableBits busy.mode busy.cm).length ≤ busy.cfg.bbCap.val)
      ∧ (withCaps 2 31).cfg.bbCap.val < (tableBits busy.mode busy.cm).length
      ∧ ∃ (cm pre : CodeMap) (e : Symbol × Bits) (post : CodeMap), cm = pre ++ e :: post
        ∧ (∀ f ∈ pre, f.2.length ≤ 255) ∧ 255 < e.2.length :=
  ⟨by decide, by decide, [([97], List.replicate 255 true), ([98], List.replicate 256 true)],
    [([97], List.replicate 255 true)], ([98], List.replicate 256 true), [], rfl, by decide +kernel,
    by decide +kernel⟩
theorem witness_TableDesReadsTheSegmentBack :
    ∃ (s : State) (cm : CodeMap), s.err = none ∧ TableFits s.mode cm ∧ s.bb1.bits = tableBits s.mode cm
      ∧ cm.length = 2 :=
  ⟨withBits1 .word (tableBits .word [([], digits [0]), ([97, 98], digits [0, 1])]),
    [([], digits [0]), ([97, 98], digits [0, 1])], by decide⟩

/-- One segment for each way to fail, with the kinds and bit indexes of 95_test_vectors.md section 3.4: the chunk, the `P`
field and the codeword field cut, in word mode the sentinel missing, `P = 0`, a repeated codeword and a sentinel. -/
theorem witness_TableDesRejectsBadEntries :
    BadTable .character (digits [1, 1, 0, 0, 0, 0]) .malformedTable 0
      ∧ BadTable .character (digits [1, 1, 0, 0, 0, 0, 1]) .malformedTable 7
      ∧ BadTable .character (digits [1, 1, 0, 0, 0, 0, 1, 0, 0, 0, 0, 0, 0, 0, 1]) .malformedTable 15
      ∧ BadTable .word (digits [1, 1, 0, 0, 0, 0, 1, 1, 1, 0, 0, 0, 1, 0]) .malformedTable 14
      ∧ BadTable .word (digits [1, 1, 0, 0, 0, 0, 1, 1, 1, 1, 1, 1, 1, 1, 0, 0, 0, 0, 0, 0, 1, 1, 1, 0]) .malformedTable 22
      ∧ BadTable .character (digits [1, 1, 0, 0, 0, 0, 1, 0, 0, 0, 0, 0, 0, 0, 0]) .malformedTable 7
      ∧ BadTable .character (digits [1, 1, 0, 0, 0, 0, 1, 0, 0, 0, 0, 0, 0, 0, 1, 0,
          1, 1, 0, 0, 0, 1, 0, 0, 0, 0, 0, 0, 0, 0, 1, 0]) .malformedTable 31
      ∧ BadTable .character (digits [1, 1, 1, 1, 1, 1, 1, 0, 0, 0, 0, 0, 0, 0, 1, 0]) .invalidSymbol 0
      ∧ busy.err = none :=
  ⟨.shortSymbol [] [] (digits [1, 1, 0, 0, 0, 0]) (by decide) (by decide) (by decide) (by decide),
    .shortLength [] [97] [] (by decide) (by decide) (by decide),
    .shortCode [] [97] 1 [] (by decide) (by decide) (by decide) (by decide),
    .shortSymbol [] [97, 98] [] (by decide) (by decide) (by decide) (by decide),
    .shortCode [] [97] 3 (digits [1, 0]) (by decide) (by decide) (by decide) (by decide),
    .zeroLength [] [97] [] (by decide) (by decide),
    .repeatedCode [([97], digits [0])] [98] ([97], digits [0]) [] (by decide) (by decide) (by decide),
    .sentinel [] (digits [0, 0, 0, 0, 0, 0, 0, 1, 0]) (by decide) rfl, rfl⟩
theorem witness_ThreeStateParserIsTableDes : (⟨digits [1, 1, 0], 1⟩ : BitBuf).cur ≤ 3 := by decide

theorem witness_FieldWidthsAreMinimal :
    1 ≤ 8 ∧ busy.rl ≠ [] ∧ 1 ≤ 2 ∧ 256 < 2 ^ (8 * 2) := by decide

/-- The runs of one repeated symbol. -/
theorem runsOf_replicate (y : Symbol) (n : Nat) : runsOf (List.replicate (n + 1) y) = [(y, n + 1)] := by
  induction n with
  | zero => rfl
  | succ n ih =>
    have h : runsOf (List.replicate (n + 1) y ++ [y]) = extendRuns (runsOf (List.replicate (n + 1) y)) y := by
      simp [runsOf, List.foldl_append]
    rw [List.replicate_succ', h, ih]
    simp [extendRuns]

theorem long_run (n : Nat) (h : 2 ^ 255 ≤ n + 1) :
    ∃ (s : State) (cs : List Chr), s.err = none ∧ s.txt = cs.map chrByte
      ∧ 255 < freqWidth (runsOf (tokenize s.mode cs)) := by
  refine ⟨{ State.reset with txt := (List.replicate (n + 1) (97 : Chr)).map chrByte }, List.replicate (n + 1) 97,
    rfl, rfl, ?_⟩
  have e : tokenize .character (List.replicate (n + 1) (97 : Chr)) = List.replicate (n + 1) [97] := by
    simp [tokenize, List.map_replicate]
  have k : 255 ≤ (n + 1).log2 := (Nat.le_log2 (by omega)).2 h
  show 255 < freqWidth (runsOf (tokenize .character _))
  rw [e, runsOf_replicate]
  have hm : maxRun [(([97] : Symbol), n + 1)] = n + 1 := by simp [maxRun]
  rw [freqWidth, hm, bitLength, if_neg (by omega)]
  omega

/-- FieldOverflow needs a run of 2^255 characters (no text within TXT_CAP has one), then CapacityExceeded and completion. -/
theorem witness_RleEncWritesTheLayout :
    (∃ (s : State) (cs : List Chr), s.err = none ∧ s.txt = cs.map chrByte
        ∧ 255 < freqWidth (runsOf (tokenize s.mode cs)))
      ∧ (∃ (s : State) (cs : List Chr), s.err = none ∧ s.txt = cs.map chrByte
        ∧ freqWidth (runsOf (tokenize s.mode cs)) ≤ 255
        ∧ s.cfg.bbCap.val < (rleLayout s.mode (freqWidth (runsOf (tokenize s.mode cs))) (runsOf (tokenize s.mode cs))).length)
      ∧ ∃ (s : State) (cs : List Chr), s.err = none ∧ s.txt = cs.map chrByte
        ∧ freqWidth (runsOf (tokenize s.mode cs)) ≤ 255
        ∧ (rleLayout s.mode (freqWidth (runsOf (tokenize s.mode cs))) (runsOf (tokenize s.mode cs))).length
          ≤ s.cfg.bbCap.val := by
  refine ⟨long_run (2 ^ 255 - 1) (by decide), ?_, ?_⟩
  · exact ⟨{ withCaps 8 16 with txt := text [97] }, [97], by decide⟩
  · exact ⟨withText .word [97, 32, 97], [97, 32, 97], by decide⟩

/-- Run lengths of 0 and of the largest number of the width, an empty word, within and past TXT_CAP. -/
theorem witness_RleDecReadsEveryRunList :
    (∀ e ∈ ([([], 0), ([97], 3)] : RunList), e.2 < 2 ^ 2)
      ∧ SymbolsFit .word (([([], 0), ([97], 3)] : RunList).map Prod.fst)
      ∧ (([([], 0), ([97], 3)] : RunList).map fun e => e.2 * outLen .word e.1).sum ≤ State.reset.cfg.txtCap.val
      ∧ (withCaps 5 99).cfg.txtCap.val < (([([], 0), ([97], 3)] : RunList).map fun e => e.2 * outLen .word e.1).sum
      ∧ ∃ s : State, s.err = none ∧ s.bb0.bits = rleLayout .word 2 [([], 0), ([97], 3)] :=
  ⟨by decide, by decide, by decide, by decide, ⟨withBits0 .character _, rfl, rfl⟩⟩
theorem witness_RleRoundTrip :
    ∃ (s t : State) (cs : List Chr), s.err = none ∧ s.txt = cs.map chrByte ∧ exec .rleEnc s = .next t ∧ t.err = none
      ∧ (detok s.mode (tokenize s.mode cs)).length ≤ s.cfg.txtCap.val := by
  obtain ⟨t, h, ht⟩ := next_of_gives (i := .rleEnc) (s := withText .word [97, 32,
    97]) (p := fun t => decide (t.err = none))
    (by decide +kernel)
  exact ⟨_, t, [97, 32, 97], rfl, rfl, h, of_decide_eq_true ht, by decide⟩

/-- The header cut, and the runs of 95_test_vectors.md section 3.5 that fail, their indexes less the 9 bits of the header: a
run length cut, a character cut, a word without its sentinel, and a sentinel in character mode. -/
theorem witness_ShortRleArtifactIsInsufficientBits :
    State.reset.bb0.bits = [] ∧ (1 ≤ (List.replicate 8 false).length ∧ (List.replicate 8 false).length < 9)
      ∧ BadRuns .character 3 (digits [0, 1]) .insufficientBits 0
      ∧ BadRuns .character 3 (digits [0, 1, 1, 1, 1, 0, 0, 0, 0]) .insufficientBits 3
      ∧ BadRuns .word 1 (digits [1, 1, 1, 0, 0, 0, 0, 1, 1, 1, 0, 0, 0, 1, 0]) .insufficientBits 15
      ∧ BadRuns .character 1 (digits [1, 1, 1, 1, 1, 1, 1, 1]) .invalidSymbol 1
      ∧ (withBits0 .word (bits Mode.character.bit 1 ++ bits 1 8 ++ digits [1, 1, 1, 1, 1, 1, 1, 1])).bb0.bits
        = bits Mode.character.bit 1 ++ bits 1 8 ++ digits [1, 1, 1, 1, 1, 1, 1, 1] ∧ busy.err = none :=
  ⟨rfl, by decide,
    .shortLength [] (digits [0, 1]) (by decide) (by decide) (by decide),
    .shortSymbol [] (digits [0, 1, 1]) [] (digits [1, 1, 0, 0, 0, 0]) (by decide) rfl (by decide) (by decide) (by decide),
    .shortSymbol [] (digits [1]) [97, 98] [] (by decide) rfl (by decide) (by decide) (by decide),
    .sentinel [] (digits [1]) [] (by decide) rfl rfl, rfl, rfl⟩

theorem witness_AscEncPacksSevenBits :
    ∃ (s : State) (cs : List Chr), s.err = none ∧ s.txt = cs.map chrByte ∧ 7 * cs.length ≤ s.cfg.bbCap.val
      ∧ (withCaps 9 20).cfg.bbCap.val < 7 * cs.length :=
  ⟨withText .word [126, 32, 0], [126, 32, 0], by decide⟩
theorem witness_AsciiRoundTrip :
    (∃ (s : State) (cs : List Chr), s.err = none ∧ (s.bb0.bits = cs.flatMap fun c => bits c.val 7)
        ∧ cs.length ≤ s.cfg.txtCap.val)
      ∧ ∃ (s : State) (cs : List Chr), s.err = none ∧ s.txt = cs.map chrByte ∧ cs.length ≤ s.cfg.txtCap.val
        ∧ 7 * cs.length ≤ s.cfg.bbCap.val :=
  ⟨⟨withBits0 .word (digits [1, 1, 1, 1, 1, 1, 0, 0, 0, 0, 0, 0, 0, 0]), [126, 0], by decide⟩,
    ⟨withText .word [126, 32, 0], [126, 32, 0], by decide⟩⟩
theorem witness_AscDecRejectsBadStreams :
    (withBits0 .word (digits [1, 1, 1, 1, 1, 1])).bb0.bits.length % 7 ≠ 0
      ∧ (List.replicate 14 false).length % 7 = 0 ∧ (withCaps 1 99).cfg.txtCap.val < (List.replicate 14 false).length / 7
      ∧ ∃ (s : State) (cs : List Chr) (post : Bits), s.err = none
        ∧ (s.bb0.bits = (cs.flatMap fun c => bits c.val 7) ++ bits 127 7 ++ post) ∧ s.bb0.bits.length % 7 = 0
        ∧ s.bb0.bits.length / 7 ≤ s.cfg.txtCap.val :=
  ⟨by decide, by decide, by decide, withBits0 .word (digits [1, 1, 0, 0, 0, 0, 1, 1, 1, 1, 1, 1, 1, 1]), [97], [],
    by decide⟩


/-- A list with an element past a bound splits at the first one. -/
theorem split_at_first (l : CodeMap) (h : ∃ e ∈ l, 255 < e.2.length) :
    ∃ pre e post, l = pre ++ e :: post ∧ (∀ f ∈ pre, f.2.length ≤ 255) ∧ 255 < e.2.length := by
  induction l with
  | nil => simp at h
  | cons a l ih =>
    by_cases ha : 255 < a.2.length
    · exact ⟨[], a, l, rfl, by simp, ha⟩
    · obtain ⟨e, he, hlen⟩ := h
      have hne : e ≠ a := fun h => ha (h ▸ hlen)
      obtain ⟨pre, f, post, rfl, hpre, hf⟩ := ih ⟨e, (List.mem_cons.1 he).resolve_left hne, hlen⟩
      refine ⟨a :: pre, f, post, rfl, fun g hg => ?_, hf⟩
      rcases List.mem_cons.1 hg with rfl | hg
      · omega
      · exact hpre g hg

/-- Word `i` is `i + 1` times `a` and occurs `2 ^ i` times. -/
def doublingTable : FreqTab := (List.range' 0 257).map fun i => (List.replicate (i + 1) 97, 2 ^ i)

theorem doublingTable_nodup : (doublingTable.map Prod.fst).Nodup := by
  rw [doublingTable, List.map_map]
  refine List.Nodup.map (fun i j h => ?_) (List.nodup_range' (step := 1))
  have := congrArg List.length (show List.replicate (i + 1) (97 : Chr) = List.replicate (j + 1) 97 from h)
  simpa using this

theorem doublingTable_words : ∀ e ∈ doublingTable, (e.1 ≠ [] ∧ space ∉ e.1) ∧ 1 ≤ e.2 := by
  intro e he
  obtain ⟨i, -, rfl⟩ := List.mem_map.1 he
  refine ⟨⟨by simp, fun h => ?_⟩, Nat.one_le_two_pow⟩
  exact absurd (List.eq_of_mem_replicate h) (by decide)

theorem doublingTable_long (cfg : Config) (hi : cfg.insertPos = .front) (ho : cfg.tableOrder = .walk) :
    ∃ e ∈ huffBuild cfg doublingTable, 255 < e.2.length := by
  have hinit : initialNodes doublingTable
      = .leaf [97] 1 :: doublingLeaves (fun i => List.replicate (i + 1) 97) 1 256 := by
    have h : doublingTable.map (fun e => Node.leaf e.1 e.2)
        = doublingLeaves (fun i => List.replicate (i + 1) 97) 0 257 := by
      rw [doublingTable, List.map_map]; rfl
    rw [initialNodes, h, stableSort_sorted _ (doublingLeaves_sorted _ _ _)]
    exact doublingLeaves_succ _ 0 256
  obtain ⟨R, h1, h2, h3⟩ := mergeLoop_doubling (fun i => List.replicate (i + 1) 97) 256 doublingTable.length 1 0
    (.leaf [97] 1) (by simp [doublingTable]) (by decide) (fun path => ⟨([97], path), by simp [walk], by simp⟩)
  obtain ⟨e, he, hlen⟩ := h3 []
  rcases h2 with rfl | ⟨f, l, r, rfl⟩
  · have he' : e = ([97], []) := by simpa [walk] using he
    subst he'
    exact absurd hlen (by decide)
  · refine ⟨e, ?_, by simp only [List.length_nil] at hlen; omega⟩
    rw [huffBuild, hi, hinit, h1]
    simpa [ho, orderEntries] using he

/-- Word mode, the words of `doublingTable` as often as it says: a codeword longer than 255 bits. -/
theorem witness_HufEncWritesTheLayout_long_codeword :
    ∃ (s : State) (cs : List Chr) (cm : CodeMap) (pre : CodeMap) (e : Symbol × Bits) (post : CodeMap), s.err = none
      ∧ s.txt = cs.map chrByte ∧ cm = huffBuild s.cfg (freqTable (tokenize s.mode cs)) ∧ cm = pre ++ e :: post
      ∧ (∀ f ∈ pre, f.2.length ≤ 255) ∧ 255 < e.2.length := by
  obtain ⟨cfg, hi, ho⟩ : ∃ cfg : Config, cfg.insertPos = .front ∧ cfg.tableOrder = .walk :=
    ⟨{ Config.standard with insertPos := .front }, rfl, rfl⟩
  obtain ⟨ys, hys⟩ : ∃ ys, ys = doublingTable.flatMap fun e => List.replicate e.2 e.1 := ⟨_, rfl⟩
  have hw : ∀ y ∈ ys, y ≠ [] ∧ space ∉ y := by
    intro y hy
    rw [hys] at hy
    obtain ⟨e, he, hy⟩ := List.mem_flatMap.1 hy
    rw [List.eq_of_mem_replicate hy]
    exact (doublingTable_words e he).1
  have hft : freqTable (tokenize .word (ys.flatMap fun y => y ++ [space])) = doublingTable := by
    rw [tokenize_words ys hw, hys]
    exact freqTable_blocks _ doublingTable_nodup fun e he => (doublingTable_words e he).2
  obtain ⟨pre, e, post, hcm, hpre, hlen⟩ := split_at_first _ (doublingTable_long cfg hi ho)
  refine ⟨{ State.reset with mode := .word, cfg := cfg, txt := (ys.flatMap fun y => y ++ [space]).map chrByte },
    ys.flatMap fun y => y ++ [space], _, pre, e, post, rfl, rfl, rfl, ?_, hpre, hlen⟩
  rw [← hcm, ← hft]

theorem xOf_above (L k : Nat) (hk : 2040 ≤ k) (h : 2 ^ k ≤ L) : 255 < xOf L := by
  have h0 : L ≠ 0 := (lt_of_lt_of_le (Nat.two_pow_pos k) h).ne'
  have hlog : k ≤ L.log2 := (Nat.le_log2 h0).2 h
  simp only [xOf, bitLength, if_neg h0]
  omega

/-- Word mode, one word so long that its table segment has at least 2 ^ 2040 bits: `X` above 255. -/
theorem long_word (n k : Nat) (hk : 2040 ≤ k) (h : 2 ^ k ≤ n) :
    ∃ (s : State) (cs : List Chr) (cm : CodeMap) (seg : Bits), s.err = none ∧ s.txt = cs.map chrByte
      ∧ cm = huffBuild s.cfg (freqTable (tokenize s.mode cs)) ∧ (∀ e ∈ cm, e.2.length ≤ 255)
      ∧ seg = tableBits s.mode cm ∧ 255 < xOf seg.length := by
  have hs : space ∉ List.replicate (n + 1) (97 : Chr) := fun h => absurd (List.eq_of_mem_replicate h) (by decide)
  have hcm : huffBuild State.reset.cfg (freqTable (tokenize .word (List.replicate (n + 1) (97 : Chr))))
      = [(List.replicate (n + 1) 97, [false])] := by
    rw [tokenize_one_word _ (by simp) hs]
    rfl
  refine ⟨{ State.reset with mode := .word, txt := (List.replicate (n + 1) (97 : Chr)).map chrByte },
    List.replicate (n + 1) 97, _, _, rfl, rfl, rfl, ?_, rfl, ?_⟩
  · show ∀ e ∈ huffBuild State.reset.cfg (freqTable (tokenize .word (List.replicate (n + 1) (97 : Chr)))), e.2.length ≤ 255
    rw [hcm]
    simp
  · show 255 < xOf (tableBits .word
      (huffBuild State.reset.cfg (freqTable (tokenize .word (List.replicate (n + 1) (97 : Chr)))))).length
    rw [hcm]
    refine xOf_above _ k hk (le_trans h ?_)
    simp only [tableBits, symEnc, List.flatMap_cons, List.flatMap_nil, List.length_append, List.length_flatMap, chrBits,
      bits_length, charW, List.map_const', List.sum_replicate, List.length_replicate, smul_eq_mul]
    omega
theorem witness_HufEncWritesTheLayout_long_table :
    ∃ (s : State) (cs : List Chr) (cm : CodeMap) (seg : Bits), s.err = none ∧ s.txt = cs.map chrByte
      ∧ cm = huffBuild s.cfg (freqTable (tokenize s.mode cs)) ∧ (∀ e ∈ cm, e.2.length ≤ 255)
      ∧ seg = tableBits s.mode cm ∧ 255 < xOf seg.length := long_word (2 ^ 2040) 2040 le_rfl le_rfl

/-- Completion, and the same artifact past BB_CAP. -/
theorem witness_HufEncWritesTheLayout :
    ∃ (s : State) (cs : List Chr) (cm : CodeMap) (out : Bits), s.err = none ∧ s.txt = cs.map chrByte
      ∧ cm = huffBuild s.cfg (freqTable (tokenize s.mode cs)) ∧ (∀ e ∈ cm, e.2.length ≤ 255)
      ∧ xOf (tableBits s.mode cm).length ≤ 255
      ∧ out = huffHeader s.mode (xOf (tableBits s.mode cm).length) (tableBits s.mode cm).length ++ tableBits s.mode cm
        ++ (tokenize s.mode cs).flatMap (codeOf cm)
      ∧ out.length ≤ s.cfg.bbCap.val ∧ (withCaps 9 50).cfg.bbCap.val < out.length :=
  ⟨withText .character [97, 98], [97, 98], [([97], digits [1]), ([98], digits [0])],
    digits [0, 0, 0, 0, 0, 0, 0, 0, 1, 0, 0, 1, 0, 0, 0, 0, 0, 1, 1, 0, 0, 0, 0, 1, 0, 0, 0, 0, 0, 0, 0, 1, 1,
      1, 1, 0, 0, 0, 1, 0, 0, 0, 0, 0, 0, 0, 0, 1, 0, 1, 0], by decide +kernel⟩
theorem witness_CompositeEncodersAreTheSubUnitSequence :
    (∃ t, exec .hufEnc busy = .next t ∧ (t.err == none) = true) ∧ (∃ t, exec .rleEnc busy = .next t
      ∧ (t.err == none) = true)
      ∧ busy.err = none :=
  ⟨next_of_gives (by decide +kernel), next_of_gives (by decide +kernel), rfl⟩

/-- `X` wider than needed, a table of two entries and a payload of three codewords, within and past TXT_CAP. -/
theorem witness_HufDecReadsEveryArtifact :
    ∃ (s : State) (cm es : CodeMap), s.err = none ∧ 2 ≤ 255 ∧ TableFits .character cm
      ∧ (tableBits .character cm).length < 2 ^ (8 * 2) ∧ (∀ e ∈ es, e ∈ cm ∧ ∀ f ∈ cm, f.2 <+: e.2 → f.2 = e.2)
      ∧ s.bb0.bits = huffHeader .character 2 (tableBits .character cm).length ++ tableBits .character cm
        ++ es.flatMap Prod.snd
      ∧ (es.map fun e => outLen .character e.1).sum ≤ s.cfg.txtCap.val
      ∧ (withCaps 2 99).cfg.txtCap.val < (es.map fun e => outLen .character e.1).sum :=
  ⟨withBits0 .word (huffHeader .character 2 32 ++ tableBits .character [([97], digits [1]), ([98], digits [0])]
      ++ digits [0, 1, 0]), [([97], digits [1]), ([98], digits [0])],
    [([98], digits [0]), ([97], digits [1]), ([98], digits [0])], by decide +kernel⟩
theorem witness_HuffmanRoundTrip :
    ∃ (s t : State) (cs : List Chr), s.err = none ∧ s.txt = cs.map chrByte ∧ exec .hufEnc s = .next t ∧ t.err = none
      ∧ (detok s.mode (tokenize s.mode cs)).length ≤ s.cfg.txtCap.val := by
  obtain ⟨t, h, ht⟩ := next_of_gives (i := .hufEnc) (s := withText .word [97, 32,
    98]) (p := fun t => decide (t.err = none))
    (by decide +kernel)
  exact ⟨_, t, [97, 32, 98], rfl, rfl, h, of_decide_eq_true ht, by decide⟩

/-- Each clause: no bit, a cut `X`, a cut `L`, a cut table, a table of 15 bits whose codeword is left out (95_test_vectors.md
section 3.7, `L = 15`), and a payload that ends inside the codeword 01. -/
theorem witness_HufDecReportsShortArtifacts :
    (∃ s : State, s.err = none ∧ s.bb0.bits = [])
      ∧ (∃ s : State, s.err = none ∧ 1 ≤ s.bb0.bits.length ∧ s.bb0.bits.length < 9)
      ∧ (∃ s : State, s.err = none ∧ s.bb0.bits = bits Mode.word.bit 1 ++ bits 255 8 ++ [true]
          ∧ [true].length < 8 * 255)
      ∧ (∃ s : State, s.err = none ∧ s.bb0.bits = huffHeader .word 1 255 ++ [true] ∧ 255 < 2 ^ (8 * 1)
        ∧ [true].length < 255)
      ∧ (∃ s : State, s.err = none ∧ 15 < 2 ^ (8 * 1)
          ∧ BadTable .character (digits [1, 1, 0, 0, 0, 0, 1, 0, 0, 0, 0, 0, 0, 0, 1]) .malformedTable 15
          ∧ s.bb0.bits = huffHeader .character 1 15 ++ digits [1, 1, 0, 0, 0, 0, 1, 0, 0, 0, 0, 0, 0, 0, 1] ++ digits [0, 0])
      ∧ ∃ s : State, s.err = none ∧ TableFits .character [([97], digits [1]), ([98], digits [0, 1])]
        ∧ (∀ e ∈ ([([97], digits [1])] : CodeMap), e ∈ ([([97], digits [1]), ([98], digits [0, 1])] : CodeMap)
          ∧ ∀ f ∈ ([([97], digits [1]), ([98], digits [0, 1])] : CodeMap), f.2 <+: e.2 → f.2 = e.2)
        ∧ (∀ f ∈ ([([97], digits [1]), ([98], digits [0, 1])] : CodeMap), ¬ f.2 <+: digits [0])
        ∧ s.bb0.bits = huffHeader .character 1 (tableBits .character [([97], digits [1]), ([98], digits [0, 1])]).length
          ++ tableBits .character [([97], digits [1]), ([98], digits [0, 1])]
          ++ ([([97], digits [1])] : CodeMap).flatMap Prod.snd ++ digits [0] :=
  ⟨⟨State.reset, by decide⟩, ⟨withBits0 .character (List.replicate 8 false), by decide⟩,
    ⟨withBits0 .character _, rfl, rfl, by decide⟩, ⟨withBits0 .character _, rfl, rfl, by decide, by decide⟩,
    ⟨withBits0 .character _, rfl, by decide, .shortCode [] [97] 1 [] (by decide) (by decide) (by decide) (by decide), rfl⟩,
    ⟨withBits0 .character _, rfl, by decide, by decide, by decide, rfl⟩⟩

/-- States that meet the invariants, with an error recorded and without. -/
theorem witness_StepKeepsCapacitiesAndErrorRegisters :
    ∃ s t : State, Memory.wf s = true ∧ ErrorRegsInv s ∧ s.pending ≠ [] ∧ step s = .next t :=
  ⟨{ busy with pending := [.write 0x1008 0] }, { busy with pending := [] }, by decide, by decide, by decide, by rfl⟩
theorem witness_StepKeepsTheTablesInvariant :
    ∃ s t : State, TablesInv s ∧ s.pending ≠ [] ∧ step s = .next t :=
  ⟨{ busy with pending := [.write 0x1008 0] }, { busy with pending := [] }, by decide, by decide, by rfl⟩

end Sys2Proof.Tests
end

section
/-! PROOF. The byte view of a bit sequence (20_memory.md R62, R63): the padded sequence cut into groups of eight, each
group one byte, most significant bit first. -/
namespace Sys2Proof.Machine

/-- R10: the bits of `Bits(v, w)`, counted from the most significant. -/
theorem bits_getElem? (v w j : Nat) (h : j < w) : (bits v w)[j]? = some (v.testBit (w - 1 - j)) := by
  induction w generalizing j with
  | zero => omega
  | succ w ih =>
    cases j with
    | zero => simp [bits]
    | succ j => rw [bits, List.getElem?_cons_succ, ih j (by omega)]; congr 2; omega

/-- R10: the bits of `Val(s)`, read off the sequence. -/
theorem getElem?_eq_testBit_val (s : Bits) (j : Nat) (h : j < s.length) :
    s[j]? = some ((val s).testBit (s.length - 1 - j)) := by
  rw [← bits_getElem? _ _ _ h, bits_val]

/-- Reading a slice is reading the sequence from the slice's start. -/
theorem slice_getElem? {α : Type} (s : List α) (i j m : Nat) (h : m < j - i) : (slice s i j)[m]? = s[i + m]? := by
  rw [slice, List.getElem?_take_of_lt h, List.getElem?_drop]

/-- Consecutive groups of `w` elements make up a prefix. -/
theorem flatMap_slice_range {α : Type} (s : List α) (w n : Nat) :
    (List.range n).flatMap (fun k => slice s (w * k) (w * k + w)) = s.take (w * n) := by
  induction n with
  | zero => simp
  | succ n ih => rw [List.range_succ, List.flatMap_append, ih, Nat.mul_succ, List.take_add]; simp [slice]

@[simp] theorem padded_length (s : Bits) : (padded s).length = 8 * ((s.length + 7) / 8) := by
  simp only [padded, List.length_append, List.length_replicate]; omega

/-- R62: the padding is zero bits. -/
theorem padded_getElem? (s : Bits) (i : Nat) (h : i < (padded s).length) :
    (padded s)[i]? = some (s[i]?.getD false) := by
  rcases lt_or_ge i s.length with hi | hi
  · simp [padded, List.getElem?_append_left, hi]
  · have hp : i - s.length < (8 - s.length % 8) % 8 := by rw [padded_length] at h; omega
    simp [padded, List.getElem?_append_right, hi, hp]

/-- R62: the eight bits that make up byte `k`. -/
def byteGroup (s : Bits) (k : Nat) : Bits := slice (padded s) (8 * k) (8 * k + 8)

theorem bytesOf_eq_map_byteGroup (s : Bits) :
    bytesOf s = (List.range ((s.length + 7) / 8)).map fun k => BitVec.ofNat 8 (val (byteGroup s k)) := rfl

@[simp] theorem bytesOf_length (s : Bits) : (bytesOf s).length = (s.length + 7) / 8 := by
  simp [bytesOf_eq_map_byteGroup]

theorem byteGroup_length {s : Bits} {k : Nat} (hk : k < (s.length + 7) / 8) : (byteGroup s k).length = 8 := by
  rw [byteGroup, slice_length _ _ _ (by rw [padded_length]; omega)]; omega

theorem byteGroup_getElem? {s : Bits} {k j : Nat} (hk : k < (s.length + 7) / 8) (hj : j < 8) :
    (byteGroup s k)[j]? = some (s[8 * k + j]?.getD false) := by
  rw [byteGroup, slice_getElem? _ _ _ _ (by omega), padded_getElem? _ _ (by rw [padded_length]; omega)]

/-- The bits of a byte made from a group of eight are the group. -/
theorem bits_toNat_ofNat_val {q : Bits} (hq : q.length = 8) : bits (BitVec.ofNat 8 (val q)).toNat 8 = q := by
  have hlt : val q < 2 ^ 8 := hq ▸ val_lt q
  rw [BitVec.toNat_ofNat, Nat.mod_eq_of_lt hlt, ← hq, bits_val]

/-- R62: the first bit of a byte's group is bit 7 of the byte. -/
theorem getLsbD_ofNat_val {q : Bits} (hq : q.length = 8) {j : Nat} (hj : j < 8) :
    some ((BitVec.ofNat 8 (val q)).getLsbD (7 - j)) = q[j]? := by
  rw [getElem?_eq_testBit_val q j (by omega), hq, BitVec.getLsbD_ofNat]
  simp [show 7 - j < 8 by omega]

theorem bytesOf_getLsbD {s : Bits} {k j : Nat} (hj : j < 8) (hk : k < (s.length + 7) / 8) :
    ((bytesOf s)[k]?).map (fun v => v.getLsbD (7 - j)) = some ((s[8 * k + j]?).getD false) := by
  have hbyte : (bytesOf s)[k]? = some (BitVec.ofNat 8 (val (byteGroup s k))) := by
    simp [bytesOf_eq_map_byteGroup, hk]
  rw [hbyte, Option.map_some, getLsbD_ofNat_val (byteGroup_length hk) hj, byteGroup_getElem? hk hj]

/-- The bits of all bytes of the byte view are the padded sequence. -/
theorem flatMap_bits_bytesOf (s : Bits) : ((bytesOf s).flatMap fun b => bits b.toNat 8) = padded s := by
  have hgroup : ∀ k ∈ List.range ((s.length + 7) / 8),
      bits (BitVec.ofNat 8 (val (byteGroup s k))).toNat 8 = byteGroup s k :=
    fun k hk => bits_toNat_ofNat_val (byteGroup_length (List.mem_range.mp hk))
  calc ((bytesOf s).flatMap fun b => bits b.toNat 8)
      = (List.range ((s.length + 7) / 8)).flatMap (byteGroup s) := by
        rw [bytesOf_eq_map_byteGroup, List.flatMap_map, List.flatMap_congr hgroup]
    _ = (padded s).take (8 * ((s.length + 7) / 8)) := flatMap_slice_range (padded s) 8 _
    _ = padded s := List.take_of_length_le (padded_length s).le

/-- R63: `Unbytes(Bytes(s), |s|) = s`. -/
theorem unbytes_bytesOf (s : Bits) : unbytes (bytesOf s) s.length = s := by
  rw [unbytes, flatMap_bits_bytesOf, padded, List.take_left]

/-- Settles O27: a byte's bits are its group's, and the groups in order are the padded sequence. -/
theorem byteViewRecoversTheBits : Obligations.ByteViewRecoversTheBits := by
  intro s
  exact ⟨bytesOf_length s, fun _ _ hj hk => bytesOf_getLsbD hj hk, unbytes_bytesOf s⟩

end Sys2Proof.Machine
end

section
/-! PROOF. Which row of the opcode table a command word written field by field selects (30_encoding.md R80 to R83), and
so the command the words of the BitBuffer commands decode to. -/
namespace Sys2Proof
open Sys2Proof.Safety

/-- R81: the bit of the field `b` that a format holds at 0. -/
def Format.selMask : Format → BitVec 1
  | .N | .I => 1
  | .B | .BI => 0

/-- R81: the bits of the field `imm8` that a format holds at 0. -/
def Format.immMask : Format → BitVec 8
  | .N | .B => 0xFF
  | .I | .BI => 0

/-- R80, R81: the mask of a format, field by field; `rsv` and `op` are always compared. -/
theorem Format.mask_eq_append (f : Format) :
    f.mask = (0x7FFF : BitVec 15) ++ f.selMask ++ f.immMask ++ (0xFF : BitVec 8) := by
  cases f <;> rfl

/-- R83: a pattern is the word whose only field is the opcode. -/
theorem Row.pattern_eq_append (r : Row) :
    r.pattern = (0 : BitVec 15) ++ (0 : BitVec 1) ++ (0 : BitVec 8) ++ r.op := by
  rw [Row.pattern, BitVec.setWidth_eq_append (by decide)]; rfl

/-- R80: words written field by field are equal exactly when their fields are. -/
theorem fields_append_inj (sel sel' : BitVec 1) (imm imm' op op' : BitVec 8) :
    (0 : BitVec 15) ++ sel ++ imm ++ op = (0 : BitVec 15) ++ sel' ++ imm' ++ op' ↔
      sel = sel' ∧ imm = imm' ∧ op = op' := by
  constructor
  · intro h
    obtain ⟨hop, himm, hsel, -⟩ := Laws.EncodingFields.fields_of_append sel imm op
    obtain ⟨hop', himm', hsel', -⟩ := Laws.EncodingFields.fields_of_append sel' imm' op'
    rw [h] at hop himm hsel
    exact ⟨hsel.symm.trans hsel', himm.symm.trans himm', hop.symm.trans hop'⟩
  · rintro ⟨rfl, rfl, rfl⟩; rfl

/-- A byte at the low end of a word, on numbers. -/
theorem toNat_append_byte {n : Nat} (x : BitVec n) (y : BitVec 8) : (x ++ y).toNat = x.toNat * 256 + y.toNat := by
  rw [BitVec.toNat_append, ← Nat.shiftLeft_add_eq_or_of_lt y.isLt, Nat.shiftLeft_eq]

/-- R90: the word of the fields, as a number and as bits. -/
theorem cmdWord_eq_append (op imm : BitVec 8) (b : BufSel) :
    cmdWord op.toNat imm.toNat (selNat b) = (0 : BitVec 15) ++ b.bit ++ imm ++ op := by
  have hop := op.isLt
  have himm := imm.isLt
  have hsel : ((0 : BitVec 15) ++ b.bit).toNat = selNat b := by cases b <;> rfl
  have hb : selNat b < 2 := by cases b <;> decide
  apply BitVec.eq_of_toNat_eq
  rw [toNat_append_byte, toNat_append_byte, hsel, cmdWord, BitVec.toNat_ofNat]
  omega

/-- R81: a word selects a row exactly when it has the row's opcode and holds at 0 every field the row's format does
not use. -/
theorem Row.selects_cmdWord (r : Row) (op imm : BitVec 8) (b : BufSel) :
    r.selects (cmdWord op.toNat imm.toNat (selNat b)) = true ↔
      b.bit &&& r.format.selMask = 0 ∧ imm &&& r.format.immMask = 0 ∧ op = r.op := by
  rw [Row.selects, beq_iff_eq, cmdWord_eq_append, Format.mask_eq_append, Row.pattern_eq_append,
    BitVec.and_append, BitVec.and_append, BitVec.and_append,
    show (0 : BitVec 15) &&& 0x7FFF = 0 from rfl, show op &&& 0xFF = op from BitVec.and_allOnes, fields_append_inj]

@[simp] theorem selOf_cmdWord (op imm : BitVec 8) (b : BufSel) :
    selOf (cmdWord op.toNat imm.toNat (selNat b)) = b := by
  rw [cmdWord_eq_append, selOf, Laws.EncodingFields.word_getLsbD]
  cases b <;> rfl

@[simp] theorem imm8Of_cmdWord (op imm : BitVec 8) (b : BufSel) :
    imm8Of (cmdWord op.toNat imm.toNat (selNat b)) = imm := by
  rw [cmdWord_eq_append]; exact (Laws.EncodingFields.fields_of_append b.bit imm op).2.1

/-- R83: no two rows share an opcode. -/
theorem row_eq_of_op_eq {r r' : Row} (h : r ∈ opcodeTable) (h' : r' ∈ opcodeTable) (hop : r.op = r'.op) : r = r' :=
  List.inj_on_of_nodup_map (f := Row.op) (by decide) h h' hop

/-- R81, R83: a row's opcode with the fields its format uses is a word of that row's command. -/
theorem decode_cmdWord {r : Row} {imm : BitVec 8} {b : BufSel} (hr : r ∈ opcodeTable)
    (hsel : b.bit &&& r.format.selMask = 0) (himm : imm &&& r.format.immMask = 0) :
    decode (cmdWord r.op.toNat imm.toNat (selNat b)) = .ok (r.build b imm) := by
  have hself := (Row.selects_cmdWord r r.op imm b).2 ⟨hsel, himm, rfl⟩
  obtain ⟨r', hfind⟩ : ∃ r', opcodeTable.find?
      (fun r' => r'.selects (cmdWord r.op.toNat imm.toNat (selNat b))) = some r' :=
    Option.isSome_iff_exists.1 (List.find?_isSome.2 ⟨r, hr, hself⟩)
  have hselects := List.find?_some hfind
  obtain ⟨-, -, hop⟩ := (Row.selects_cmdWord r' r.op imm b).1 hselects
  obtain rfl := row_eq_of_op_eq hr (List.mem_of_find?_eq_some hfind) hop
  rw [decode, hfind, selOf_cmdWord, imm8Of_cmdWord]

/-- R83: the word of a format B row, which holds `imm8` at 0. -/
theorem decode_cmdWord_B {r : Row} (hr : r ∈ opcodeTable) (hf : r.format = .B) (b : BufSel) :
    decode (cmdWord r.op.toNat 0 (selNat b)) = .ok (r.build b 0) := by
  have h := decode_cmdWord (imm := 0) (b := b) hr (by simp [hf, Format.selMask]) (by simp)
  rwa [show (0 : BitVec 8).toNat = 0 from rfl] at h

/-- R83: the word of a format BI row, at every value of `imm8`. -/
theorem decode_cmdWord_BI {r : Row} (hr : r ∈ opcodeTable) (hf : r.format = .BI) (b : BufSel) (imm : BitVec 8) :
    decode (cmdWord r.op.toNat imm.toNat (selNat b)) = .ok (r.build b imm) :=
  decode_cmdWord hr (by simp [hf, Format.selMask]) (by simp [hf, Format.immMask])

/-- R84: every width and count up to 255 is a value of the field `imm8`. -/
theorem exists_imm8 {n : Nat} (h : n ≤ 255) : ∃ imm : BitVec 8, imm.toNat = n :=
  ⟨BitVec.ofNat 8 n, by rw [BitVec.toNat_ofNat]; omega⟩

theorem decode_bbClear (b : BufSel) : decode (cmdWord 0x01 0 (selNat b)) = .ok (.bbClear b) :=
  decode_cmdWord_B (r := ⟨"BB_CLEAR", 0x01, .B, fun b _ => .bbClear b⟩)
    (by simp [opcodeTable, bitBufferRows]) rfl b

theorem decode_bbAppend (b : BufSel) {width : Nat} (h : width ≤ 255) :
    decode (cmdWord 0x02 width (selNat b)) = .ok (.bbAppend b width) := by
  obtain ⟨imm, rfl⟩ := exists_imm8 h
  exact decode_cmdWord_BI (r := ⟨"BB_APPEND", 0x02, .BI, fun b imm => .bbAppend b imm.toNat⟩)
    (by simp [opcodeTable, bitBufferRows]) rfl b imm

theorem decode_bbAppendl (b : BufSel) : decode (cmdWord 0x03 0 (selNat b)) = .ok (.bbAppendl b) :=
  decode_cmdWord_B (r := ⟨"BB_APPENDL", 0x03, .B, fun b _ => .bbAppendl b⟩)
    (by simp [opcodeTable, bitBufferRows]) rfl b

theorem decode_bbRead (b : BufSel) {count : Nat} (h : count ≤ 255) :
    decode (cmdWord 0x04 count (selNat b)) = .ok (.bbRead b count) := by
  obtain ⟨imm, rfl⟩ := exists_imm8 h
  exact decode_cmdWord_BI (r := ⟨"BB_READ", 0x04, .BI, fun b imm => .bbRead b imm.toNat⟩)
    (by simp [opcodeTable, bitBufferRows]) rfl b imm

theorem decode_bbRewind (b : BufSel) : decode (cmdWord 0x05 0 (selNat b)) = .ok (.bbRewind b) :=
  decode_cmdWord_B (r := ⟨"BB_REWIND", 0x05, .B, fun b _ => .bbRewind b⟩)
    (by simp [opcodeTable, bitBufferRows]) rfl b

end Sys2Proof
end

section
/-! PROOF. The BitBuffer commands and the laws of the primitives (40_bitbuffer.md). -/
namespace Sys2Proof.Machine
open Sys2Proof.Safety

/-! ### Bits of a value in two parts, and a slice in two parts (R10) -/

/-- R10: only the low `w` bits of a value are written. -/
theorem bits_mod (v w : Nat) : bits (v % 2 ^ w) w = bits v w := by
  have h := bits_val (bits v w)
  rwa [val_bits_mod, bits_length] at h

/-- R10: `w1 + w2` bits are the `w1` high ones and then the `w2` low ones. -/
theorem bits_add (v w1 w2 : Nat) : bits v (w1 + w2) = bits (v >>> w2) w1 ++ bits (v % 2 ^ w2) w2 := by
  induction w1 with
  | zero => simp [bits_mod]
  | succ w1 ih =>
    rw [Nat.add_right_comm, bits, ih, bits, List.cons_append, Nat.testBit_shiftRight, Nat.add_comm w1 w2]

/-- Two slices that meet are one. -/
theorem slice_add {α : Type} (s : List α) (i m n : Nat) :
    slice s i (i + (m + n)) = slice s i (i + m) ++ slice s (i + m) (i + m + n) := by
  simp only [slice, Nat.add_sub_cancel_left, List.take_add, List.drop_drop]

/-! ### The laws of the primitives (R110) -/

/-- R110: a value appended at the cursor is read back in the same width. -/
theorem readBits_appendBits {cap : Nat} {B B' : BitBuf} {v width : Nat} (hcur : B.cur = B.bits.length)
    (h : appendBits cap B v width = .ok B') : readBits B' width = .ok (v, ⟨B'.bits, B'.bits.length⟩) := by
  obtain ⟨hv, -, rfl⟩ := appendBits_eq_ok.1 h
  have := readLim_bits B.bits [] v width (B.bits.length + width) .insufficientBits hv le_rfl
  simpa [readBits, hcur] using this

/-- R110: an append of `w1 + w2` bits is one of `w1` bits and then one of `w2` bits, its errors included. -/
theorem appendBits_add {cap : Nat} {B : BitBuf} {v w1 w2 : Nat} (hv : v < 2 ^ (w1 + w2)) :
    appendBits cap B v (w1 + w2) =
      (appendBits cap B (v >>> w2) w1 >>= fun B' => appendBits cap B' (v % 2 ^ w2) w2) := by
  have hhigh : v >>> w2 < 2 ^ w1 := by
    rw [Nat.shiftRight_eq_div_pow, Nat.div_lt_iff_lt_mul (by positivity), ← pow_add]; exact hv
  have hlow : v % 2 ^ w2 < 2 ^ w2 := Nat.mod_lt _ (by positivity)
  by_cases h1 : B.bits.length + w1 ≤ cap
  · rw [appendBits_eq_ok.2 ⟨hhigh, h1, rfl⟩, ok_bind]
    by_cases h2 : B.bits.length + w1 + w2 ≤ cap
    · rw [appendBits_eq_ok.2 ⟨hv, by omega, rfl⟩, appendBits_eq_ok.2 ⟨hlow, by simpa using h2, rfl⟩]
      simp [bits_add]
    · rw [appendBits_eq_error.2 (.inr ⟨hv, by omega, rfl⟩),
        appendBits_eq_error.2 (.inr ⟨hlow, by simpa using h2, rfl⟩)]
  · rw [appendBits_eq_error.2 (.inr ⟨hv, by omega, rfl⟩), appendBits_eq_error.2 (.inr ⟨hhigh, by omega, rfl⟩),
      error_bind]

/-- The bits a read takes are as many as it asks for, also where the cursor stands past the end and it asks for none. -/
theorem slice_cur_length {B : BitBuf} {n : Nat} (h : n ≤ remaining B) :
    (slice B.bits B.cur (B.cur + n)).length = n := by
  simp only [remaining] at h
  simp [slice, h]

/-- R102: a read of bits that are there. -/
theorem readBits_of_le {B : BitBuf} {n : Nat} (h : n ≤ remaining B) :
    readBits B n = .ok (val (slice B.bits B.cur (B.cur + n)), ⟨B.bits, B.cur + n⟩) :=
  readLim_eq_ok.2 ⟨h, rfl, rfl⟩

/-- R110: a read of `n1 + n2` bits is one of `n1` bits and then one of `n2` bits, the first the high part. -/
theorem readBits_add {B : BitBuf} {n1 n2 : Nat} (h : n1 + n2 ≤ remaining B) :
    ∃ x y B1 B2, readBits B n1 = .ok (x, B1) ∧ readBits B1 n2 = .ok (y, B2)
      ∧ readBits B (n1 + n2) = .ok (x * 2 ^ n2 + y, B2) := by
  have h1 : n1 ≤ remaining B := by omega
  have h2 : n2 ≤ remaining ⟨B.bits, B.cur + n1⟩ := by simp only [remaining] at h ⊢; omega
  refine ⟨_, _, _, _, readBits_of_le h1, readBits_of_le h2, ?_⟩
  rw [readBits_of_le h, slice_add, val_append, slice_cur_length h2, Nat.add_assoc]

/-- R110: an append keeps the bits before it, and the cursor. -/
theorem appendBits_keeps {cap : Nat} {B B' : BitBuf} {v width : Nat} (h : appendBits cap B v width = .ok B') :
    B.bits <+: B'.bits ∧ B'.cur = B.cur := by
  obtain ⟨-, -, rfl⟩ := appendBits_eq_ok.1 h
  exact ⟨List.prefix_append .., rfl⟩

/-- R110: a literal append keeps the bits before it, and the cursor. -/
theorem appendLiteral_keeps {cap : Nat} {B B' : BitBuf} {t : Bits} (h : appendLiteral cap B t = .ok B') :
    B.bits <+: B'.bits ∧ B'.cur = B.cur := by
  obtain ⟨-, rfl⟩ := appendLiteral_eq_ok.1 h
  exact ⟨List.prefix_append .., rfl⟩

/-! ### The commands (R104 to R108) -/

/-- R104: BB_CLEAR's pseudocode under the envelope. -/
theorem exec_bbClear (b : BufSel) (s : State) :
    exec (.bbClear b) s = command (fun s => .ok (s.setBB b ⟨[], 0⟩)) s := rfl

/-- R108: BB_REWIND's pseudocode under the envelope. -/
theorem exec_bbRewind (b : BufSel) (s : State) :
    exec (.bbRewind b) s = command (fun s => .ok (s.setBB b ⟨(s.bb b).bits, 0⟩)) s := rfl

/-- R105: when BB_APPEND's pseudocode reaches its end, and what it leaves. -/
theorem bbAppendBody_eq_ok {b : BufSel} {width : Nat} {s u : State} :
    bbAppendBody b width s = .ok u ↔
      ∃ B, appendBits s.cfg.bbCap.val (s.bb b) s.w.toNat width = .ok B ∧ u = s.setBB b B := by
  simp [bbAppendBody, appendValue, bind_eq_ok, eq_comm (b := u)]

theorem bbAppendBody_eq_error {b : BufSel} {width : Nat} {s : State} {r : Raise} :
    bbAppendBody b width s = .error r ↔
      appendBits s.cfg.bbCap.val (s.bb b) s.w.toNat width = .error r := by
  simp [bbAppendBody, appendValue, bind_eq_error]

/-- R106: when BB_APPENDL's pseudocode reaches its end, and what it leaves. -/
theorem bbAppendlBody_eq_ok {b : BufSel} {s u : State} :
    bbAppendlBody b s = .ok u ↔
      ∃ B, appendLiteral s.cfg.bbCap.val (s.bb b) (s.bb (otherBuf b)).bits = .ok B ∧ u = s.setBB b B := by
  simp [bbAppendlBody, bind_eq_ok, eq_comm (b := u)]

theorem bbAppendlBody_eq_error {b : BufSel} {s : State} {r : Raise} :
    bbAppendlBody b s = .error r ↔
      appendLiteral s.cfg.bbCap.val (s.bb b) (s.bb (otherBuf b)).bits = .error r := by
  simp [bbAppendlBody, bind_eq_error]

/-- R107: when BB_READ's pseudocode reaches its end, and what it leaves. -/
theorem bbReadBody_eq_ok {b : BufSel} {count : Nat} {s u : State} :
    bbReadBody b count s = .ok u ↔
      ∃ v B, readBits (s.bb b) count = .ok (v, B) ∧ u = { s.setBB b B with w := zext256 v } := by
  simp [bbReadBody, bind_eq_ok, eq_comm (b := u)]

theorem bbReadBody_eq_error {b : BufSel} {count : Nat} {s : State} {r : Raise} :
    bbReadBody b count s = .error r ↔ readBits (s.bb b) count = .error r := by
  simp [bbReadBody, bind_eq_error]

/-- R107: W holds the bits read, the first the most significant, when they are no more than W has. -/
theorem zext256_val {q : Bits} (hq : q.length ≤ 256) :
    (zext256 (val q)).toNat < 2 ^ q.length
      ∧ ∀ j < q.length, q[j]? = some ((zext256 (val q)).getLsbD (q.length - 1 - j)) := by
  have hlt := val_lt q
  refine ⟨(Nat.mod_le _ _).trans_lt hlt, fun j hj => ?_⟩
  rw [getElem?_eq_testBit_val q j hj, zext256, BitVec.getLsbD_ofNat]
  simp [show q.length - 1 - j < 256 by omega]

/-- R82: there are two buffers, so one that is not BB[b] is the source of BB_APPENDL b. -/
theorem eq_otherBuf_of_ne {b c : BufSel} (h : c ≠ b) : c = otherBuf b := by
  cases b <;> cases c <;> simp_all [otherBuf]

/-! ### The buffer a command does not name (R110) -/

/-- R243: the envelope keeps a buffer that the command's pseudocode keeps. -/
theorem command_keeps_bb {body : State → Result State} {s : State} {c : BufSel}
    (h : ∀ u, body s = .ok u → u.bb c = s.bb c) : ∃ t, command body s = .next t ∧ t.bb c = s.bb c := by
  obtain ⟨t, ht⟩ := command_answers body s
  refine ⟨t, ht, ?_⟩
  obtain ⟨-, rfl⟩ | ⟨-, u, hu, rfl⟩ | ⟨-, r, -, rfl⟩ := command_cases ht
  · rfl
  · exact h u hu
  · rfl

/-- R110: no BitBuffer command touches the buffer it does not name, as its pseudocode writes BB[b] alone. -/
theorem bbCommands_keep_other (b : BufSel) (n : Nat) (s : State) :
    ∀ i ∈ [Instr.bbClear b, .bbAppend b n, .bbAppendl b, .bbRead b n, .bbRewind b],
      ∃ t, exec i s = .next t ∧ t.bb (otherBuf b) = s.bb (otherBuf b) := by
  simp only [List.forall_mem_cons, List.not_mem_nil, IsEmpty.forall_iff, implies_true, and_true]
  refine ⟨?clear, command_keeps_bb fun u hu => ?append, command_keeps_bb fun u hu => ?appendl,
    command_keeps_bb fun u hu => ?read, ?rewind⟩
  case clear =>
    rw [exec_bbClear]
    exact command_keeps_bb fun u hu => by cases hu; exact State.setBB_bb_other b _ s
  case append =>
    obtain ⟨B, -, rfl⟩ := bbAppendBody_eq_ok.1 hu
    exact State.setBB_bb_other b B s
  case appendl =>
    obtain ⟨B, -, rfl⟩ := bbAppendlBody_eq_ok.1 hu
    exact State.setBB_bb_other b B s
  case read =>
    obtain ⟨v, B, -, rfl⟩ := bbReadBody_eq_ok.1 hu
    exact State.setBB_bb_other b B s
  case rewind =>
    rw [exec_bbRewind]
    exact command_keeps_bb fun u hu => by cases hu; exact State.setBB_bb_other b _ s

/-! ### The obligations -/

/-- Settles O22: both commands replace BB[b] and nothing else. -/
theorem clearAndRewindABuffer : Obligations.ClearAndRewindABuffer := fun s b =>
  ⟨decode_bbClear b, decode_bbRewind b, fun h =>
    ⟨(exec_bbClear b s).trans (command_of_ok h rfl), (exec_bbRewind b s).trans (command_of_ok h rfl)⟩⟩

/-- Settles O23: the append's three outcomes (R100), each under the envelope. -/
theorem appendWritesTheOperandRegister : Obligations.AppendWritesTheOperandRegister := by
  intro s b width
  refine ⟨decode_bbAppend b, fun h => ⟨fun hover => ?_, fun hv hcap => ?_, fun hv hcap => ?_⟩⟩
  · exact command_of_error h (bbAppendBody_eq_error.2 (appendBits_eq_error.2 (.inl ⟨hover, rfl⟩)))
  · exact command_of_error h (bbAppendBody_eq_error.2 (appendBits_eq_error.2 (.inr ⟨hv, hcap, rfl⟩)))
  · exact ⟨bits s.w.toNat width, bits_length _ _, fun j hj => bits_getElem? _ _ _ hj,
      command_of_ok h (bbAppendBody_eq_ok.2 ⟨_, appendBits_eq_ok.2 ⟨hv, hcap, rfl⟩, rfl⟩)⟩

/-- Settles O24: the source is the one buffer that is not BB[b], and the literal append takes all its bits. -/
theorem appendLiteralTakesTheOtherBuffer : Obligations.AppendLiteralTakesTheOtherBuffer := by
  intro s b c hc
  obtain rfl := eq_otherBuf_of_ne hc
  refine ⟨decode_bbAppendl b, fun h => ⟨fun hcap => ?_, fun hcap => ?_⟩⟩
  · exact command_of_error h (bbAppendlBody_eq_error.2 (appendLiteral_eq_error.2 ⟨hcap, rfl⟩))
  · exact command_of_ok h (bbAppendlBody_eq_ok.2 ⟨_, appendLiteral_eq_ok.2 ⟨hcap, rfl⟩, rfl⟩)

/-- Settles O25: W is the value of the slice read, whose bits are those of the buffer from the cursor. -/
theorem readMovesBitsToTheOperandRegister : Obligations.ReadMovesBitsToTheOperandRegister := by
  intro s b count hcount
  refine ⟨decode_bbRead b hcount, fun h => ⟨fun hfew => ?_, fun hn => ?_⟩⟩
  · exact command_of_error h (bbReadBody_eq_error.2 (readLim_eq_error.2 ⟨hfew, rfl⟩))
  · have hlen := slice_cur_length (B := s.bb b) hn
    obtain ⟨hlt, hbit⟩ := zext256_val (hlen.trans_le (by omega))
    rw [hlen] at hlt hbit
    refine ⟨_, hlt, fun j hj => ?_, command_of_ok h (bbReadBody_eq_ok.2 ⟨_, _, readBits_of_le hn, rfl⟩)⟩
    rw [← hbit j hj, slice_getElem? _ _ _ _ (by omega)]

/-- Settles O26: the laws above, one by one. -/
theorem bitBufferLaws : Obligations.BitBufferLaws :=
  ⟨fun _ _ _ _ _ hcur h => ⟨_, readBits_appendBits hcur h, rfl⟩, fun _ _ _ _ _ => appendBits_add,
    fun _ _ _ => readBits_add, fun _ _ _ _ _ => appendBits_keeps, fun _ _ _ _ => appendLiteral_keeps,
    fun _ _ _ _ h => (readLim_cur h).1, bbCommands_keep_other⟩

end Sys2Proof.Machine
end

section
/-! PROOF. The words of the SymbolModel commands, read off the opcode table (30_encoding.md R83). -/
namespace Sys2Proof
open Sys2Proof.Safety

/-- R83: the word of a format I row, which uses `imm8` and holds `b` at 0, at every value of `imm8`. -/
theorem decode_cmdWord_I {r : Row} (hr : r ∈ opcodeTable) (hf : r.format = .I) (imm : BitVec 8) :
    decode (cmdWord r.op.toNat imm.toNat 0) = .ok (r.build .b0 imm) :=
  decode_cmdWord (b := .b0) hr (by simp [BufSel.bit]) (by simp [hf, Format.immMask])

theorem decode_txtPut (v : Byte) : decode (cmdWord 0x11 v.toNat 0) = .ok (.txtPut v) :=
  decode_cmdWord_I (r := ⟨"TXT_PUT", 0x11, .I, fun _ imm => .txtPut imm⟩)
    (by simp [opcodeTable, symbolModelRows]) rfl v

/-- R83: a row's opcode alone, every other field 0, is a word of that row's command whatever the row's format. -/
theorem decode_cmdWord_opcode {r : Row} (hr : r ∈ opcodeTable) :
    decode (cmdWord r.op.toNat 0 0) = .ok (r.build .b0 0) := by
  have h := decode_cmdWord (imm := 0) (b := .b0) hr (by simp [BufSel.bit]) (by simp)
  rwa [show (0 : BitVec 8).toNat = 0 from rfl] at h

theorem decode_txtClear : decode 0x00000010 = .ok .txtClear :=
  decode_cmdWord_opcode (r := ⟨"TXT_CLEAR", 0x10, .N, fun _ _ => .txtClear⟩)
    (by simp [opcodeTable, symbolModelRows])

theorem decode_freq : decode 0x00000013 = .ok .freq :=
  decode_cmdWord_opcode (r := ⟨"FREQ", 0x13, .N, fun _ _ => .freq⟩)
    (by simp [opcodeTable, symbolModelRows])

theorem decode_runs : decode 0x00000014 = .ok .runs :=
  decode_cmdWord_opcode (r := ⟨"RUNS", 0x14, .N, fun _ _ => .runs⟩)
    (by simp [opcodeTable, symbolModelRows])

theorem decode_detok : decode 0x00000015 = .ok .detok :=
  decode_cmdWord_opcode (r := ⟨"DETOK", 0x15, .N, fun _ _ => .detok⟩)
    (by simp [opcodeTable, symbolModelRows])

end Sys2Proof
end

section
/-! PROOF. The envelope around pseudocode that cannot raise (60_exceptions.md R243). -/
namespace Sys2Proof.Machine

theorem command_of_total {s : State} (f : State → State) (h : s.err = none) :
    command (fun s => .ok (f s)) s = .next (complete (f s)) := command_of_ok h rfl

end Sys2Proof.Machine
end

section
/-! PROOF. Validation and the four commands that consume the text (41_symbolmodel.md R122). -/
namespace Sys2Proof.Machine
open Sys2Proof.Safety

/-- R122: `Validate` raises at the first byte above 126, with its index. -/
theorem validateFrom_first_bad (i : Nat) (pre : List Byte) {bad : Byte} (post : List Byte)
    (hpre : ∀ v ∈ pre, v.toNat ≤ 126) (hbad : 126 < bad.toNat) :
    validateFrom i (pre ++ bad :: post) = .error ⟨.invalidSymbol, i + pre.length⟩ := by
  induction pre generalizing i with
  | nil =>
    rw [List.nil_append, validateFrom, (chr?_none_iff _).2 hbad]
    rfl
  | cons v pre ih =>
    obtain ⟨hv, hrest⟩ := List.forall_mem_cons.1 hpre
    have hc : chr? v.toNat = some ⟨v.toNat, by omega⟩ := dif_pos _
    rw [List.cons_append, validateFrom, hc]
    simp only [ih (i + 1) hrest, error_bind, List.length_cons, Nat.add_assoc, Nat.add_comm 1]

/-- R122: a command that consumes the text does nothing but record what `Validate` raises. -/
theorem exec_of_validate_error {s : State} {r : Raise} (h : s.err = none) (hv : validate s.txt = .error r) :
    ∀ i ∈ [Instr.tokenize, .rleEnc, .ascEnc, .hufEnc], exec i s = .next (recordError r s) := by
  simp only [List.forall_mem_cons, List.not_mem_nil, IsEmpty.forall_iff, implies_true, and_true]
  refine ⟨command_of_error h ?tokenize, command_of_error h ?rleEnc, command_of_error h ?ascEnc,
    command_of_error h ?hufEnc⟩
  case tokenize => simp [tokenizeBody, hv]
  case rleEnc => simp [rleEncBody, rleEncode, hv]
  case ascEnc => simp [ascEncBody, asciiEncode, hv]
  case hufEnc => simp [hufEncBody, huffEncode, hv]

/-- Settles O29: all four commands start with `Validate`, which stops at the first byte above 126. -/
theorem invalidTextIsRejectedAtItsFirstBadByte : Obligations.InvalidTextIsRejectedAtItsFirstBadByte := by
  intro s pre bad post h htxt hpre hbad
  have hv : validate s.txt = .error ⟨.invalidSymbol, pre.length⟩ := by
    rw [htxt, validate, validateFrom_first_bad 0 pre post hpre hbad, Nat.zero_add]
  exact exec_of_validate_error h hv

end Sys2Proof.Machine
end

section
/-! PROOF. The tokenizer's equations (41_symbolmodel.md R123). -/
namespace Sys2Proof.Machine
open Sys2Proof.Safety

/-- R123: what is finished as a token is a word, when the characters read hold no space. -/
theorem isWord_of_mem_flushWord {cur y : Symbol} (hcur : space ∉ cur) (hy : y ∈ flushWord cur) : IsWord y := by
  unfold flushWord at hy
  split at hy
  next => cases hy
  next hne =>
    obtain rfl := List.mem_singleton.1 hy
    exact ⟨hne, hcur⟩

/-- R123: a space ends the token read so far, and the tokens after it are those of the rest of the text alone. -/
theorem tokenizeWords_append_space (cur : Symbol) (a b : List Chr) :
    tokenizeWords cur (a ++ space :: b) = tokenizeWords cur a ++ tokenizeWords [] b := by
  induction a generalizing cur with
  | nil => simp [tokenizeWords]
  | cons c a ih =>
    rw [List.cons_append, tokenizeWords, tokenizeWords]
    split
    next => rw [ih, List.append_assoc]
    next => exact ih _

/-- R123: every token is a word, as long as the token read so far holds no space. -/
theorem isWord_of_mem_tokenizeWords {cur y : Symbol} {t : List Chr} (hcur : space ∉ cur)
    (hy : y ∈ tokenizeWords cur t) : IsWord y := by
  induction t generalizing cur with
  | nil => exact isWord_of_mem_flushWord hcur hy
  | cons c t ih =>
    rw [tokenizeWords] at hy
    split at hy
    next =>
      rcases List.mem_append.1 hy with hy | hy
      · exact isWord_of_mem_flushWord hcur hy
      · exact ih List.not_mem_nil hy
    next hc => exact ih (by simp [hcur, Ne.symm hc]) hy

/-- Settles O31: the loop's equations with no token read so far. -/
theorem tokenizerSplitsAtSpacesOnly : Obligations.TokenizerSplitsAtSpacesOnly :=
  ⟨fun _ => rfl, rfl, tokenize_one_word, tokenizeWords_append_space [],
    fun _ _ hy => isWord_of_mem_tokenizeWords List.not_mem_nil hy⟩

end Sys2Proof.Machine
end

section
/-! PROOF. The frequency table in closed form: the distinct symbols in order of first occurrence, each with its count
(41_symbolmodel.md R125, R126). -/
namespace Sys2Proof.Machine
open Sys2Proof.Safety

/-! ### The distinct elements of a list in order of first occurrence -/

theorem eraseDups_concat_of_mem {y : Symbol} {ys : List Symbol} (h : y ∈ ys) :
    (ys ++ [y]).eraseDups = ys.eraseDups := by
  simp [List.eraseDups_append, List.removeAll, h]

theorem eraseDups_concat_of_notMem {y : Symbol} {ys : List Symbol} (h : y ∉ ys) :
    (ys ++ [y]).eraseDups = ys.eraseDups ++ [y] := by
  simp [List.eraseDups_append, List.removeAll, h, List.eraseDups_cons]

/-- The order is strict: later entries occur first at greater indices. -/
theorem eraseDups_pairwise_idxOf (ys : List Symbol) :
    ys.eraseDups.Pairwise fun a b => ys.idxOf a < ys.idxOf b := by
  induction ys using List.reverseRecOn with
  | nil => simp
  | append_singleton ys y ih =>
    have hold : ∀ a ∈ ys.eraseDups, (ys ++ [y]).idxOf a = ys.idxOf a := fun a ha =>
      List.idxOf_append_of_mem (List.mem_eraseDups.1 ha)
    have hkeep : ys.eraseDups.Pairwise fun a b => (ys ++ [y]).idxOf a < (ys ++ [y]).idxOf b :=
      ih.imp_of_mem fun ha hb hab => by rwa [hold _ ha, hold _ hb]
    by_cases hy : y ∈ ys
    · rwa [eraseDups_concat_of_mem hy]
    · rw [eraseDups_concat_of_notMem hy, List.pairwise_append]
      refine ⟨hkeep, List.pairwise_singleton _ _, fun a ha b hb => ?_⟩
      obtain rfl := List.mem_singleton.1 hb
      rw [hold a ha, List.idxOf_append_of_notMem hy]
      exact (List.idxOf_lt_length_iff.2 (List.mem_eraseDups.1 ha)).trans_le (Nat.le_add_right _ _)

theorem nodup_eraseDups (ys : List Symbol) : ys.eraseDups.Nodup :=
  (eraseDups_pairwise_idxOf ys).imp fun hlt heq => hlt.ne (congrArg (ys.idxOf ·) heq)

/-! ### The table -/

/-- R125: the loop's turn for one more symbol. -/
@[simp] theorem freqTable_concat (ys : List Symbol) (y : Symbol) :
    freqTable (ys ++ [y]) = countSymbol y (freqTable ys) := by
  simp [freqTable]

/-- R125: a symbol with an entry is counted there, and no other entry changes. -/
theorem countSymbol_map {y : Symbol} {ks : List Symbol} (f : Symbol → Nat) (hk : ks.Nodup) (hy : y ∈ ks) :
    countSymbol y (ks.map fun z => (z, f z)) = ks.map fun z => (z, f z + if z = y then 1 else 0) := by
  induction ks with
  | nil => cases hy
  | cons k ks ih =>
    obtain ⟨hnot, hk⟩ := List.nodup_cons.1 hk
    rw [List.map_cons, countSymbol, List.map_cons]
    by_cases h : k = y
    · have hrest : (ks.map fun z => (z, f z)) = ks.map fun z => (z, f z + if z = y then 1 else 0) :=
        List.map_congr_left fun z hz => by
          have hne : z ≠ y := fun heq => hnot (h ▸ heq ▸ hz)
          rw [if_neg hne, Nat.add_zero]
      rw [if_pos h, if_pos h, hrest]
    · rw [if_neg h, if_neg h, ih hk (List.mem_of_ne_of_mem (Ne.symm h) hy), Nat.add_zero]

/-- R125: one more symbol adds 1 to the sum of the counts. -/
theorem countSymbol_sum (y : Symbol) (ft : FreqTab) :
    ((countSymbol y ft).map Prod.snd).sum = (ft.map Prod.snd).sum + 1 := by
  induction ft with
  | nil => rfl
  | cons e ft ih =>
    rw [countSymbol]
    split
    next => simp only [List.map_cons, List.sum_cons]; omega
    next => simp only [List.map_cons, List.sum_cons, ih]; omega

/-- R125: the table in closed form. -/
theorem freqTable_eq_map_count (ys : List Symbol) :
    freqTable ys = ys.eraseDups.map fun y => (y, ys.count y) := by
  induction ys using List.reverseRecOn with
  | nil => rfl
  | append_singleton ys y ih =>
    have hcount : ∀ z, (ys ++ [y]).count z = ys.count z + if z = y then 1 else 0 := fun z => by
      simp [List.count_append, List.count_singleton, eq_comm (a := z)]
    rw [freqTable_concat, ih]
    by_cases hy : y ∈ ys
    · rw [eraseDups_concat_of_mem hy, countSymbol_map _ (nodup_eraseDups ys) (List.mem_eraseDups.2 hy)]
      simp only [hcount]
    · have hold : ∀ z ∈ ys.eraseDups, (ys ++ [y]).count z = ys.count z := fun z hz => by
        have hne : z ≠ y := fun heq => hy (heq ▸ List.mem_eraseDups.1 hz)
        rw [hcount, if_neg hne, Nat.add_zero]
      have hnew : y ∉ (ys.eraseDups.map fun z => (z, ys.count z)).map Prod.fst := by simpa using hy
      rw [countSymbol_new _ _ hnew, eraseDups_concat_of_notMem hy, List.map_append]
      congr 1
      · exact (List.map_congr_left fun z hz => by rw [hold z hz]).symm
      · simp [hcount, List.count_eq_zero_of_not_mem hy]

theorem mem_freqTable {ys : List Symbol} {y : Symbol} {n : Nat} :
    (y, n) ∈ freqTable ys ↔ y ∈ ys ∧ n = ys.count y := by
  simp only [freqTable_eq_map_count, List.mem_map, List.mem_eraseDups, Prod.mk.injEq]
  constructor
  · rintro ⟨z, hz, rfl, rfl⟩
    exact ⟨hz, rfl⟩
  · rintro ⟨hy, rfl⟩
    exact ⟨y, hy, rfl, rfl⟩

theorem freqTable_symbols (ys : List Symbol) : (freqTable ys).map Prod.fst = ys.eraseDups := by
  rw [freqTable_eq_map_count, List.map_map]
  exact List.map_id _

theorem freqTable_sum (ys : List Symbol) : ((freqTable ys).map Prod.snd).sum = ys.length := by
  induction ys using List.reverseRecOn with
  | nil => rfl
  | append_singleton ys y ih => rw [freqTable_concat, countSymbol_sum, ih, List.length_append, List.length_singleton]

/-- Settles O32: the table's entries, order and sum follow from its closed form and from the loop's turn. -/
theorem freqCountsInFirstOccurrenceOrder : Obligations.FreqCountsInFirstOccurrenceOrder := by
  refine ⟨decode_freq, fun _ h => command_of_total (fun s => { s with ft := freqTable s.syms }) h, fun ys =>
    ⟨fun y n => mem_freqTable, ?_, freqTable_sum ys⟩⟩
  rw [freqTable_symbols]
  exact eraseDups_pairwise_idxOf ys

end Sys2Proof.Machine
end

section
/-! PROOF. The run list: one more symbol either makes the last run longer or begins a new one (41_symbolmodel.md R127,
R128). -/
namespace Sys2Proof.Machine
open Sys2Proof.Safety

@[simp] theorem expandRuns_append (a b : RunList) : expandRuns (a ++ b) = expandRuns a ++ expandRuns b :=
  List.flatMap_append

@[simp] theorem expandRuns_singleton (y : Symbol) (n : Nat) : expandRuns [(y, n)] = List.replicate n y := by
  simp [expandRuns]

/-- R127: the loop's turn for one more symbol. -/
@[simp] theorem runsOf_concat (ys : List Symbol) (y : Symbol) : runsOf (ys ++ [y]) = extendRuns (runsOf ys) y := by
  simp [runsOf]

/-- R127: a symbol that the last run repeats makes it longer. -/
theorem extendRuns_same (rl : RunList) (y : Symbol) (n : Nat) :
    extendRuns (rl ++ [(y, n)]) y = rl ++ [(y, n + 1)] := by
  simp [extendRuns]

/-- R127: a symbol that the last run does not repeat, or the first one, begins a run. -/
theorem extendRuns_new {rl : RunList} {y : Symbol} (h : ∀ e ∈ rl.getLast?, e.1 ≠ y) :
    extendRuns rl y = rl ++ [(y, 1)] := by
  unfold extendRuns
  split
  next z n hlast => exact if_neg (h _ hlast)
  next hlast => rw [List.getLast?_eq_none_iff.1 hlast, List.nil_append]

/-- Every run list is one of the two kinds that `extendRuns` tells apart. -/
theorem lastRun_same_or_new (rl : RunList) (y : Symbol) :
    (∃ rl' n, rl = rl' ++ [(y, n)]) ∨ ∀ e ∈ rl.getLast?, e.1 ≠ y := by
  rcases List.eq_nil_or_concat rl with rfl | ⟨rl', ⟨z, n⟩, rfl⟩
  · simp
  · by_cases hz : z = y
    · exact .inl ⟨rl', n, by simp [hz]⟩
    · exact .inr (by simp [hz])

/-- R127: one more symbol is spelled at the end. -/
theorem expandRuns_extendRuns (rl : RunList) (y : Symbol) : expandRuns (extendRuns rl y) = expandRuns rl ++ [y] := by
  obtain ⟨rl', n, rfl⟩ | hnew := lastRun_same_or_new rl y
  · simp [extendRuns_same, List.replicate_succ']
  · simp [extendRuns_new hnew]

/-- R127: no run is made empty. -/
theorem extendRuns_pos {rl : RunList} (h : ∀ e ∈ rl, 1 ≤ e.2) (y : Symbol) : ∀ e ∈ extendRuns rl y, 1 ≤ e.2 := by
  obtain ⟨rl', n, rfl⟩ | hnew := lastRun_same_or_new rl y
  · rw [extendRuns_same]
    simp only [List.forall_mem_append, List.forall_mem_singleton] at h ⊢
    exact ⟨h.1, Nat.le_add_left _ _⟩
  · rw [extendRuns_new hnew]
    exact List.forall_mem_append.2 ⟨h, by simp⟩

/-- R127: no two adjacent runs share their symbol. -/
def DistinctNeighbours (rl : RunList) : Prop := rl.IsChain fun a b => a.1 ≠ b.1

/-- A list's neighbours are distinct when a further run differs from the run before it. -/
theorem distinctNeighbours_concat {rl : RunList} {e : Symbol × Nat} :
    DistinctNeighbours (rl ++ [e]) ↔ DistinctNeighbours rl ∧ ∀ d ∈ rl.getLast?, d.1 ≠ e.1 := by
  simp [DistinctNeighbours, List.isChain_append]

theorem extendRuns_distinctNeighbours {rl : RunList} (h : DistinctNeighbours rl) (y : Symbol) :
    DistinctNeighbours (extendRuns rl y) := by
  obtain ⟨rl', n, rfl⟩ | hnew := lastRun_same_or_new rl y
  · rw [extendRuns_same]
    exact distinctNeighbours_concat.2 (distinctNeighbours_concat.1 h :)
  · rw [extendRuns_new hnew]
    exact distinctNeighbours_concat.2 ⟨h, hnew⟩

/-- What every turn of the loop of R127 keeps holds of the runs of every list of symbols. -/
theorem runsOf_induction {P : List Symbol → RunList → Prop} (h0 : P [] [])
    (hstep : ∀ ys rl y, P ys rl → P (ys ++ [y]) (extendRuns rl y)) (ys : List Symbol) : P ys (runsOf ys) := by
  induction ys using List.reverseRecOn with
  | nil => exact h0
  | append_singleton ys y ih => rw [runsOf_concat]; exact hstep _ _ _ ih

theorem expandRuns_runsOf (ys : List Symbol) : expandRuns (runsOf ys) = ys :=
  runsOf_induction (P := fun ys rl => expandRuns rl = ys) rfl
    (fun _ rl y ih => by rw [expandRuns_extendRuns, ih]) ys

theorem runsOf_pos (ys : List Symbol) : ∀ e ∈ runsOf ys, 1 ≤ e.2 :=
  runsOf_induction (P := fun _ rl => ∀ e ∈ rl, 1 ≤ e.2) (by simp) (fun _ _ y ih => extendRuns_pos ih y) ys

theorem runsOf_distinctNeighbours (ys : List Symbol) : DistinctNeighbours (runsOf ys) :=
  runsOf_induction (P := fun _ rl => DistinctNeighbours rl) List.isChain_nil
    (fun _ _ y ih => extendRuns_distinctNeighbours ih y) ys

/-- Settles O33: each property is kept by every turn of the loop. -/
theorem runsAreMaximal : Obligations.RunsAreMaximal := by
  refine ⟨decode_runs, fun _ h => command_of_total (fun s => { s with rl := runsOf s.syms }) h, fun ys =>
    ⟨expandRuns_runsOf ys, runsOf_pos ys, fun pre a b post hruns => ?_⟩⟩
  have hchain := runsOf_distinctNeighbours ys
  rw [hruns, DistinctNeighbours, List.isChain_append_cons_cons] at hchain
  obtain ⟨-, hne, -⟩ := hchain
  exact hne

end Sys2Proof.Machine
end

section
/-! PROOF. DETOK, and the commands that write the text (41_symbolmodel.md R120, R121, R130). -/
namespace Sys2Proof.Machine
open Sys2Proof.Safety

/-- R121: when TXT_PUT's pseudocode reaches its end, and what it leaves. -/
theorem txtPutBody_eq_ok {v : Byte} {s u : State} :
    txtPutBody v s = .ok u ↔ s.txt.length + 1 ≤ s.cfg.txtCap.val ∧ u = { s with txt := s.txt ++ [v] } := by
  simp [txtPutBody, bind_eq_ok, checkCapacity_eq_ok, eq_comm (b := u)]

theorem txtPutBody_eq_error {v : Byte} {s : State} {r : Raise} :
    txtPutBody v s = .error r ↔ s.cfg.txtCap.val < s.txt.length + 1 ∧ r = ⟨.capacityExceeded, 0⟩ := by
  simp [txtPutBody, bind_eq_error, checkCapacity_eq_error]

/-- R130: when DETOK's pseudocode reaches its end, and what it leaves. -/
theorem detokBody_eq_ok {s u : State} :
    detokBody s = .ok u ↔
      (detok s.mode s.syms).length ≤ s.cfg.txtCap.val ∧ u = { s with txt := detok s.mode s.syms } := by
  simp [detokBody, bind_eq_ok, checkCapacity_eq_ok, eq_comm (b := u)]

theorem detokBody_eq_error {s : State} {r : Raise} :
    detokBody s = .error r ↔
      s.cfg.txtCap.val < (detok s.mode s.syms).length ∧ r = ⟨.capacityExceeded, 0⟩ := by
  simp [detokBody, bind_eq_error, checkCapacity_eq_error]

/-- R129: in character mode the text is the symbols' characters. -/
theorem detok_character (ys : List Symbol) : detok .character ys = ys.flatten.map chrByte :=
  congrArg (List.map chrByte) List.flatMap_id

/-- R129: in word mode a space follows every word. -/
theorem detok_word (ys : List Symbol) : detok .word ys = (ys.flatMap fun y => y ++ [space]).map chrByte := rfl

/-- Settles O34: the text is R129's in either mode, and R130 tests only its length. -/
theorem detokWritesTheText : Obligations.DetokWritesTheText := by
  refine ⟨decode_detok, fun s t h hchar hword => ?_⟩
  have htext : detok s.mode s.syms = t.map chrByte := by
    cases hm : s.mode with
    | character => rw [detok_character, hchar hm]
    | word => rw [detok_word, hword hm]
  have hlen : (detok s.mode s.syms).length = t.length := by rw [htext, List.length_map]
  rw [← htext, ← hlen]
  exact ⟨fun hfits => command_of_ok h (detokBody_eq_ok.2 ⟨hfits, rfl⟩),
    fun hover => command_of_error h (detokBody_eq_error.2 ⟨hover, rfl⟩)⟩

/-- Settles O28: TXT_CLEAR cannot fail, and TXT_PUT tests the capacity alone. -/
theorem textCommandsEmptyAndExtendTheText : Obligations.TextCommandsEmptyAndExtendTheText :=
  ⟨decode_txtClear, fun _ v => ⟨decode_txtPut v, fun h =>
    ⟨command_of_total (fun s => { s with txt := [] }) h,
      fun hfits => command_of_ok h (txtPutBody_eq_ok.2 ⟨hfits, rfl⟩),
      fun hover => command_of_error h (txtPutBody_eq_error.2 ⟨hover, rfl⟩)⟩⟩⟩

end Sys2Proof.Machine
end

section
/-! PROOF. The stable sort as the library's insertion sort, its ties, and where a merged node goes back
(42_huffman_tree.md R140, R141, R143). -/
namespace Sys2Proof.Machine

/-! ### The key order (R140) -/

theorem keyLe_iff {a b : Node} :
    a.keyLe b = true ↔ a.freq < b.freq ∨ (a.freq = b.freq ∧ a.flag ≤ b.flag) := by simp [Node.keyLe]

theorem freq_le_of_keyLe {a b : Node} (h : a.keyLe b = true) : a.freq ≤ b.freq := by
  have := keyLe_iff.1 h; omega

theorem keyLe_trans {a b c : Node} (hab : a.keyLe b = true) (hbc : b.keyLe c = true) : a.keyLe c = true := by
  rw [keyLe_iff] at *; omega

theorem keyLe_total (a b : Node) : a.keyLe b = true ∨ b.keyLe a = true := by
  simp only [keyLe_iff]; omega

/-- R140: nodes in key order. -/
abbrev KeySorted (l : List Node) : Prop := l.Pairwise fun a b => a.keyLe b = true

/-! ### StableSort (R141) -/

theorem insertNode_eq_orderedInsert (n : Node) (l : List Node) :
    insertNode n l = l.orderedInsert (fun a b => a.keyLe b = true) n := by
  induction l with
  | nil => rfl
  | cons m l ih => rw [insertNode, List.orderedInsert_cons, ih]

theorem stableSort_eq_insertionSort (l : List Node) :
    stableSort l = l.insertionSort (fun a b => a.keyLe b = true) := by
  induction l with
  | nil => rfl
  | cons n l ih => rw [stableSort, List.insertionSort_cons, ih, insertNode_eq_orderedInsert]

theorem stableSort_perm (l : List Node) : (stableSort l).Perm l := by
  rw [stableSort_eq_insertionSort]; exact List.perm_insertionSort _ l

theorem stableSort_keySorted (l : List Node) : KeySorted (stableSort l) := by
  have : Std.Total fun a b : Node => a.keyLe b = true := ⟨keyLe_total⟩
  have : IsTrans Node fun a b => a.keyLe b = true := ⟨fun _ _ _ => keyLe_trans⟩
  rw [stableSort_eq_insertionSort]
  exact List.pairwise_insertionSort _ l

/-- R141: a node enters its list before the nodes of its own key, for it passes only nodes of another key. -/
theorem insertNode_filter_key (f g : Nat) (n : Node) (l : List Node) :
    (insertNode n l).filter (fun m => m.freq = f ∧ m.flag = g) =
      (n :: l).filter (fun m => m.freq = f ∧ m.flag = g) := by
  induction l with
  | nil => rfl
  | cons m l ih =>
    by_cases h : n.keyLe m = true
    · rw [insertNode, if_pos h]
    · have hkey : ¬((n.freq = f ∧ n.flag = g) ∧ (m.freq = f ∧ m.flag = g)) := by
        rw [keyLe_iff] at h; omega
      rw [insertNode, if_neg h, List.filter_cons, ih]
      by_cases hn : n.freq = f ∧ n.flag = g
      · have hm : ¬(m.freq = f ∧ m.flag = g) := fun hm => hkey ⟨hn, hm⟩
        simp [hn, hm]
      · simp [List.filter_cons, hn]

theorem stableSort_filter_key (f g : Nat) (l : List Node) :
    (stableSort l).filter (fun m => m.freq = f ∧ m.flag = g) =
      l.filter (fun m => m.freq = f ∧ m.flag = g) := by
  induction l with
  | nil => rfl
  | cons n l ih => rw [stableSort, insertNode_filter_key]; simp only [List.filter_cons, ih]

/-! ### Putting a merged node back (R143) -/

/-- R143, `INSERT_POS = front`: an insertion, which passes the nodes whose key is below the new one's. -/
theorem reinsert_front_sorted (new : Node) {rest : List Node} (h : KeySorted rest) :
    reinsert .front new rest =
      rest.takeWhile (fun n => !new.keyLe n) ++ new :: rest.dropWhile (fun n => !new.keyLe n) := by
  rw [reinsert, stableSort, stableSort_sorted rest h, insertNode_eq_orderedInsert, List.orderedInsert_eq_take_drop]
  simp

/-- R143, `INSERT_POS = back`: the new node passes no node whose key does not exceed its own, for it comes after it. -/
theorem reinsert_back_sorted (new : Node) {rest : List Node} (h : KeySorted rest) :
    reinsert .back new rest =
      rest.takeWhile (fun n => n.keyLe new) ++ new :: rest.dropWhile (fun n => n.keyLe new) := by
  rw [reinsert]
  induction rest with
  | nil => rfl
  | cons m rest ih =>
    obtain ⟨hm, hrest⟩ := List.pairwise_cons.1 h
    rw [List.cons_append, stableSort, ih hrest]
    by_cases hle : m.keyLe new = true
    · have hfirst : ∀ b ∈ rest.takeWhile (fun n => n.keyLe new) ++ new :: rest.dropWhile (fun n => n.keyLe new),
          m.keyLe b = true := by
        intro b hb
        rcases List.mem_append.1 hb with hb | hb
        · exact hm b ((List.takeWhile_sublist _).subset hb)
        · rcases List.mem_cons.1 hb with rfl | hb
          · exact hle
          · exact hm b ((List.dropWhile_sublist _).subset hb)
      rw [insertNode_first m _ hfirst]
      simp [hle]
    · have hpass : insertNode m (new :: rest) = new :: m :: rest := by
        rw [insertNode, if_neg hle, insertNode_first m rest hm]
      cases rest with
      | nil => simpa [hle] using hpass
      | cons b rest =>
        have hb : ¬b.keyLe new = true := fun hb => hle (keyLe_trans (hm b (by simp)) hb)
        simpa [hle, hb] using hpass

/-- Settles O37: insertion sort permutes, sorts and keeps ties; the two placements are those of the two insertions. -/
theorem stableSortKeepsTiesInOrder : Obligations.StableSortKeepsTiesInOrder :=
  ⟨fun l => ⟨stableSort_perm l, (stableSort_keySorted l).imp keyLe_iff.1, fun f g => stableSort_filter_key f g l⟩,
    fun new _ h => ⟨reinsert_back_sorted new h, reinsert_front_sorted new h⟩⟩

end Sys2Proof.Machine
end

section
/-! PROOF. The trees of the merge loop: their leaves, the weights of their inner nodes, and what a merge keeps
(42_huffman_tree.md R142, R143). -/
namespace Sys2Proof.Machine
open Sys2Proof.Safety

/-- The leaves below a node, from left to right, each as an entry of a frequency table. -/
def Node.leaves : Node → FreqTab
  | .leaf sym n => [(sym, n)]
  | .internal _ l r => l.leaves ++ r.leaves

/-- R143: every inner node's frequency is the sum of its children's. -/
def Node.Weighted : Node → Prop
  | .leaf _ _ => True
  | .internal n l r => n = l.freq + r.freq ∧ l.Weighted ∧ r.Weighted

theorem Node.leaves_length_pos (n : Node) : 1 ≤ n.leaves.length := by
  induction n with
  | leaf => simp [leaves]
  | internal _ l r ihl ihr => rw [leaves, List.length_append]; omega

/-! ### One merge -/

theorem reinsert_perm (pos : InsertPos) (new : Node) (rest : List Node) :
    (reinsert pos new rest).Perm (new :: rest) := by
  cases pos with
  | back => exact (stableSort_perm _).trans List.perm_append_comm
  | front => exact stableSort_perm _

theorem reinsert_keySorted (pos : InsertPos) (new : Node) (rest : List Node) :
    KeySorted (reinsert pos new rest) := by
  cases pos <;> exact stableSort_keySorted _

theorem mergeStep_iff {pos : InsertPos} {l l' : List Node} :
    MergeStep pos l l' ↔
      ∃ first second rest, l = first :: second :: rest ∧ l' = reinsert pos (mergedNode first second) rest := by
  cases pos <;> simp [MergeStep, reinsert, mergedNode]

/-- R143: the merge loop takes merge steps only. -/
theorem mergeLoop_reaches (pos : InsertPos) (fuel : Nat) (l : List Node) :
    Relation.ReflTransGen (MergeStep pos) l (mergeLoop pos fuel l) := by
  induction fuel generalizing l with
  | zero => exact .refl
  | succ fuel ih =>
    match l with
    | [] | [_] => exact .refl
    | first :: second :: rest => exact .head (mergeStep_iff.2 ⟨first, second, rest, rfl, rfl⟩) (ih _)

/-- What holds of the list of nodes at every turn: together the nodes have the table's leaves, their weights add up, and
they stand in key order. -/
structure IsForest (ft : FreqTab) (l : List Node) : Prop where
  leaves : (l.flatMap Node.leaves).Perm ft
  weighted : ∀ n ∈ l, n.Weighted
  sorted : KeySorted l

theorem flatMap_leaves_leaf (ft : FreqTab) : (ft.map fun e => Node.leaf e.1 e.2).flatMap Node.leaves = ft := by
  rw [List.flatMap_map]; exact List.flatMap_singleton' ft

theorem initialNodes_isForest (ft : FreqTab) : IsForest ft (initialNodes ft) where
  leaves := ((stableSort_perm _).flatMap_right _).trans (.of_eq (flatMap_leaves_leaf ft))
  weighted n hn := by
    obtain ⟨e, -, rfl⟩ := List.mem_map.1 ((stableSort_perm _).mem_iff.1 hn)
    trivial
  sorted := stableSort_keySorted _

theorem IsForest.mergeStep {pos : InsertPos} {ft : FreqTab} {l l' : List Node} (h : IsForest ft l)
    (hs : MergeStep pos l l') : IsForest ft l' := by
  obtain ⟨first, second, rest, rfl, rfl⟩ := mergeStep_iff.1 hs
  have hperm := reinsert_perm pos (mergedNode first second) rest
  refine ⟨(hperm.flatMap_right _).trans (by simpa [mergedNode, Node.leaves] using h.leaves), fun n hn => ?_,
    reinsert_keySorted _ _ _⟩
  rcases List.mem_cons.1 (hperm.mem_iff.1 hn) with rfl | hn
  · exact ⟨rfl, h.weighted first (by simp), h.weighted second (by simp)⟩
  · exact h.weighted n (by simp [hn])

theorem IsForest.merges {pos : InsertPos} {ft : FreqTab} {l l' : List Node} (h : IsForest ft l)
    (hs : Relation.ReflTransGen (MergeStep pos) l l') : IsForest ft l' := by
  induction hs with
  | refl => exact h
  | tail _ hstep ih => exact ih.mergeStep hstep

/-- R143, R147: with two or more entries the merges end at one tree with the table's leaves, and the map is its walk in
the order `TABLE_ORDER` asks for. -/
theorem exists_codeTree (cfg : Config) {ft : FreqTab} (h : 2 ≤ ft.length) :
    ∃ root : Node, Relation.ReflTransGen (MergeStep cfg.insertPos) (initialNodes ft) [root]
      ∧ IsForest ft [root] ∧ huffBuild cfg ft = orderEntries cfg.tableOrder ft (walk root []) := by
  have hlen : (initialNodes ft).length = ft.length := by rw [initialNodes, stableSort_length, List.length_map]
  obtain ⟨root, hroot⟩ : ∃ root, mergeLoop cfg.insertPos ft.length (initialNodes ft) = [root] :=
    List.length_eq_one_iff.1 (mergeLoop_length _ _ _ (by omega) (List.ne_nil_of_length_pos (by omega)))
  have hreach := mergeLoop_reaches cfg.insertPos ft.length (initialNodes ft)
  rw [hroot] at hreach
  have hforest := (initialNodes_isForest ft).merges hreach
  refine ⟨root, hreach, hforest, ?_⟩
  cases root with
  | leaf sym n =>
    have : 1 = ft.length := by simpa [Node.leaves] using hforest.leaves.length_eq
    omega
  | internal => rw [huffBuild, hroot]

end Sys2Proof.Machine
end

section
/-! PROOF. The walk: its entries are the leaves with their paths, in the order of their paths, and they fill the code
(42_huffman_tree.md R144, R149, R151). -/
namespace Sys2Proof.Machine
open Sys2Proof.Safety

theorem walk_symbols (n : Node) (path : Bits) : (walk n path).map Prod.fst = n.leaves.map Prod.fst := by
  induction n generalizing path with
  | leaf => rfl
  | internal _ l r ihl ihr => simp [walk, Node.leaves, ihl, ihr]

/-- R144: the entries are the leaves, each with its path after the path so far. -/
theorem mem_walk_iff {n : Node} {path : Bits} {y : Symbol} {cw : Bits} :
    (y, cw) ∈ walk n path ↔ ∃ q, cw = path ++ q ∧ leafAt n q = some y := by
  induction n generalizing path with
  | leaf sym k =>
    constructor
    · intro h
      obtain ⟨rfl, rfl⟩ := Prod.mk.inj (List.mem_singleton.1 h)
      exact ⟨[], by simp, rfl⟩
    · rintro ⟨_ | ⟨b, q⟩, rfl, hq⟩ <;> simp_all [leafAt, walk]
  | internal k l r ihl ihr =>
    rw [walk, List.mem_append, ihl, ihr]
    constructor
    · rintro (⟨q, rfl, hq⟩ | ⟨q, rfl, hq⟩)
      · exact ⟨true :: q, by simp, hq⟩
      · exact ⟨false :: q, by simp, hq⟩
    · rintro ⟨_ | ⟨_ | _, q⟩, rfl, hq⟩
      · simp [leafAt] at hq
      · exact .inr ⟨q, by simp, hq⟩
      · exact .inl ⟨q, by simp, hq⟩

theorem mem_walk_root_iff {n : Node} {y : Symbol} {cw : Bits} : (y, cw) ∈ walk n [] ↔ leafAt n cw = some y := by
  simp [mem_walk_iff]

/-- R144: the walk visits what is left of a parting before what is right of it. -/
theorem walk_pairwise (n : Node) (path : Bits) : (walk n path).Pairwise fun e f => WalksBefore e.2 f.2 := by
  induction n generalizing path with
  | leaf => exact List.pairwise_singleton _ _
  | internal _ l r ihl ihr =>
    rw [walk]
    refine List.pairwise_append.2 ⟨ihl _, ihr _, fun e he f hf => ?_⟩
    obtain ⟨u, hu, -⟩ := mem_walk_iff.1 he
    obtain ⟨v, hv, -⟩ := mem_walk_iff.1 hf
    exact ⟨path, u, v, by simp [hu], by simp [hv]⟩

/-- R149: two codewords that part are neither the beginning of the other. -/
theorem WalksBefore.not_prefix {a b : Bits} (h : WalksBefore a b) : ¬a <+: b ∧ ¬b <+: a := by
  obtain ⟨p, u, v, rfl, rfl⟩ := h
  simp [List.prefix_append_right_inj]

theorem walk_prefixFree (n : Node) (path : Bits) : PrefixFree (walk n path) :=
  (walk_pairwise n path).imp WalksBefore.not_prefix

/-- R149: the codewords below a path fill what the path leaves free. -/
theorem walk_kraft (n : Node) (path : Bits) :
    ((walk n path).map fun e => (1 / 2 : ℚ) ^ e.2.length).sum = (1 / 2) ^ path.length := by
  induction n generalizing path with
  | leaf => simp [walk]
  | internal _ l r ihl ihr =>
    rw [walk, List.map_append, List.sum_append, ihl, ihr, List.length_append, List.length_append]
    simp only [List.length_singleton, pow_succ]
    ring

/-- R151: at every inner node on a leaf's path at least one other leaf turns off. -/
theorem walk_length_lt {n : Node} {path : Bits} {e : Symbol × Bits} (h : e ∈ walk n path) :
    e.2.length < path.length + n.leaves.length := by
  induction n generalizing path with
  | leaf => simp_all [walk, Node.leaves]
  | internal _ l r ihl ihr =>
    have hl := l.leaves_length_pos
    have hr := r.leaves_length_pos
    rw [Node.leaves, List.length_append]
    rcases List.mem_append.1 h with h | h
    · have := ihl h; rw [List.length_append, List.length_singleton] at this; omega
    · have := ihr h; rw [List.length_append, List.length_singleton] at this; omega

end Sys2Proof.Machine
end

section
/-! PROOF. HUFF_BUILD: the codeword of a symbol, the two table orders, and the map of one tree (42_huffman_tree.md R144
to R149, R151). -/
namespace Sys2Proof
open Sys2Proof.Safety

theorem decode_huffBuild : decode 0x00000020 = .ok .huffBuild :=
  decode_cmdWord_opcode (r := ⟨"HUFF_BUILD", 0x20, .N, fun _ _ => .huffBuild⟩)
    (by simp [opcodeTable, codecRows])

end Sys2Proof

namespace Sys2Proof.Machine
open Sys2Proof.Safety

/-- R211: of distinct symbols each has the codeword of its own entry. -/
theorem codeOf_of_mem {cm : CodeMap} (hnd : (cm.map Prod.fst).Nodup) {e : Symbol × Bits} (h : e ∈ cm) :
    codeOf cm e.1 = e.2 := by
  induction cm with
  | nil => simp at h
  | cons f cm ih =>
    obtain ⟨hf, hnd⟩ := List.nodup_cons.1 hnd
    rcases List.mem_cons.1 h with rfl | h
    · rw [codeOf, List.lookup_cons, beq_self_eq_true]; rfl
    · have hne : (e.1 == f.1) = false := beq_eq_false_iff_ne.2 fun he => hf (he ▸ List.mem_map_of_mem h)
      rw [← ih hnd h, codeOf, codeOf, List.lookup_cons, hne]

/-- R144: either order has the entries of the walk. -/
theorem orderEntries_perm (order : TableOrder) {ft : FreqTab} {cm : CodeMap} (hnd : (cm.map Prod.fst).Nodup)
    (hsyms : (cm.map Prod.fst).Perm (ft.map Prod.fst)) : (orderEntries order ft cm).Perm cm := by
  cases order with
  | walk => exact .refl _
  | firstOccurrence =>
    have hself : (cm.map Prod.fst).map (fun y => (y, codeOf cm y)) = cm := by
      rw [List.map_map]
      exact (List.map_congr_left fun e he => by simp [codeOf_of_mem hnd he]).trans (List.map_id cm)
    have := (hsyms.map fun y => (y, codeOf cm y)).symm
    rwa [hself, List.map_map] at this

theorem codeOf_orderEntries (order : TableOrder) {ft : FreqTab} {cm : CodeMap} (hnd : (cm.map Prod.fst).Nodup)
    (hsyms : (cm.map Prod.fst).Perm (ft.map Prod.fst)) {e : Symbol × Bits} (he : e ∈ cm) :
    codeOf (orderEntries order ft cm) e.1 = e.2 :=
  have hperm := orderEntries_perm order hnd hsyms
  codeOf_of_mem ((hperm.map Prod.fst).nodup_iff.2 hnd) (hperm.mem_iff.2 he)

/-! ### Tables of no, one and two entries (R146, R145, R142 to R144) -/

theorem huffBuild_nil (cfg : Config) : huffBuild cfg [] = [] := rfl

theorem huffBuild_singleton (cfg : Config) (e : Symbol × Nat) : huffBuild cfg [e] = [(e.1, [false])] := rfl

theorem reinsert_nil (pos : InsertPos) (new : Node) : reinsert pos new [] = [new] := by cases pos <;> rfl

/-- R143, R144: of two entries the one ordered first gets the codeword 1 and the other 0, in either table order. -/
theorem codeOf_huffBuild_two (cfg : Config) {ft : FreqTab} {x y : Symbol} {n k : Nat} (hne : x ≠ y)
    (hft : ft.Perm [(x, n), (y, k)]) (hinit : initialNodes ft = [.leaf x n, .leaf y k]) :
    codeOf (huffBuild cfg ft) x = [true] ∧ codeOf (huffBuild cfg ft) y = [false] := by
  have hmap : huffBuild cfg ft = orderEntries cfg.tableOrder ft [(x, [true]), (y, [false])] := by
    rw [huffBuild, hinit, hft.length_eq]
    simp only [List.length_cons, mergeLoop, reinsert_nil]
    rfl
  have hsyms : ([(x, [true]), (y, [false])].map Prod.fst).Perm (ft.map Prod.fst) := (hft.map Prod.fst).symm
  have hnd : ([(x, [true]), (y, [false])].map Prod.fst).Nodup := by simpa using hne
  rw [hmap]
  exact ⟨codeOf_orderEntries _ hnd hsyms (e := (x, [true])) (by simp),
    codeOf_orderEntries _ hnd hsyms (e := (y, [false])) (by simp)⟩

theorem initialNodes_two_of_le {x y : Symbol} {n k : Nat} (h : n ≤ k) :
    initialNodes [(x, n), (y, k)] = [.leaf x n, .leaf y k] :=
  stableSort_sorted _ (by simp [keyLe_iff, Node.freq, Node.flag]; omega)

theorem initialNodes_two_of_lt {x y : Symbol} {n k : Nat} (h : k < n) :
    initialNodes [(x, n), (y, k)] = [.leaf y k, .leaf x n] := by
  have : ¬(Node.leaf x n).keyLe (.leaf y k) = true := by simp [keyLe_iff, Node.freq, Node.flag]; omega
  simp [initialNodes, stableSort, insertNode, this]

/-! ### Tables of two or more entries (R147, R149, R151) -/

theorem IsForest.symbols_perm {ft : FreqTab} {root : Node} (h : IsForest ft [root]) :
    ((walk root []).map Prod.fst).Perm (ft.map Prod.fst) := by
  rw [walk_symbols]
  exact List.Perm.map _ (by simpa using h.leaves)

/-- R147: with two or more distinct symbols the map is that of one merged tree, its entries those of the walk. -/
theorem exists_codeTree_perm (cfg : Config) {ft : FreqTab} (h : 2 ≤ ft.length) (hnd : (ft.map Prod.fst).Nodup) :
    ∃ root : Node, Relation.ReflTransGen (MergeStep cfg.insertPos) (initialNodes ft) [root] ∧ IsForest ft [root]
      ∧ huffBuild cfg ft = orderEntries cfg.tableOrder ft (walk root [])
      ∧ (huffBuild cfg ft).Perm (walk root []) := by
  obtain ⟨root, hreach, hforest, hmap⟩ := exists_codeTree cfg h
  have hsyms := hforest.symbols_perm
  exact ⟨root, hreach, hforest, hmap, hmap ▸ orderEntries_perm _ (hsyms.nodup_iff.2 hnd) hsyms⟩

/-- R149: of a tree with two or more leaves the root is no leaf, so no path is empty. -/
theorem walk_codeword_ne_nil {root : Node} (h : 2 ≤ root.leaves.length) {e : Symbol × Bits} (he : e ∈ walk root []) :
    e.2 ≠ [] := by
  cases root with
  | leaf => simp [Node.leaves] at h
  | internal =>
    intro hnil
    have hleaf : leafAt _ e.2 = some e.1 := mem_walk_root_iff.1 he
    simp [hnil, leafAt] at hleaf

/-- Settles O38: the merge loop takes the merge steps, the walk lists the leaves with their paths, and either table
order has the entries of the walk. -/
theorem huffBuildStoresTheCodeMap : Obligations.HuffBuildStoresTheCodeMap := by
  refine ⟨decode_huffBuild, fun s h => command_of_total
      (fun s => { s with cm := huffBuild s.cfg s.ft, degen := degenOf s.ft }) h,
    fun cfg x y n k => ⟨huffBuild_nil cfg, huffBuild_singleton cfg (x, n), fun hne => ⟨fun hle => ?_, fun hlt => ?_⟩⟩,
    fun cfg ft h hnd => ?_⟩
  · exact codeOf_huffBuild_two cfg hne (.refl _) (initialNodes_two_of_le hle)
  · exact codeOf_huffBuild_two cfg hne.symm (.swap _ _ _) (initialNodes_two_of_lt hlt)
  · obtain ⟨root, hreach, -, hmap, hperm⟩ := exists_codeTree_perm cfg h hnd
    refine ⟨root, hreach, fun y cw => hperm.mem_iff.trans mem_walk_root_iff, fun hwalk => ?_, fun hfirst => ?_⟩
    · rw [hmap, hwalk]
      exact List.pairwise_map.2 (walk_pairwise root [])
    · rw [hmap, hfirst, orderEntries, List.map_map]
      rfl

theorem prefixFree_of_perm {cm cm' : CodeMap} (h : cm.Perm cm') (hfree : PrefixFree cm') : PrefixFree cm :=
  (h.pairwise_iff fun hab => ⟨hab.2, hab.1⟩).2 hfree

/-- Settles O39: the entries are the leaves of a tree every inner node of which has two children. -/
theorem builtCodeIsPrefixFree : Obligations.BuiltCodeIsPrefixFree := by
  intro cfg ft hnd
  match ft, hnd with
  | [], _ => simp [huffBuild_nil, PrefixFree]
  | [e], _ => simp [huffBuild_singleton, PrefixFree]
  | e :: f :: ft, hnd =>
    obtain ⟨root, -, hforest, -, hperm⟩ := exists_codeTree_perm cfg (by simp) hnd
    have hleaves : root.leaves.length = (e :: f :: ft).length := by simpa using hforest.leaves.length_eq
    refine ⟨(hperm.map _).trans hforest.symbols_perm, fun c hc => ?_,
      prefixFree_of_perm hperm (walk_prefixFree root []), fun _ => ⟨?_, fun c hc => ?_⟩⟩
    · exact walk_codeword_ne_nil (by simp [hleaves]) (hperm.mem_iff.1 hc)
    · rw [(hperm.map _).sum_eq, walk_kraft, List.length_nil, pow_zero]
    · have := walk_length_lt (hperm.mem_iff.1 hc)
      rw [hleaves, List.length_nil] at this
      omega

end Sys2Proof.Machine
end

section
/-! PROOF. Codeword lengths apart from codewords: Kraft's sum, and one Huffman step on lengths (42_huffman_tree.md
R150). The optimality proof compares the merge loop with any lengths whose Kraft sum is at most 1. -/
namespace Sys2Proof.Machine

/-- Kraft's sum of a list of codeword lengths. -/
def kraftSum (ls : List Nat) : ℚ := (ls.map fun l => (1 / 2 : ℚ) ^ l).sum

/-- The payload bits of weights with lengths. -/
def lengthCost (P : List (Nat × Nat)) : Nat := (P.map fun e => e.1 * e.2).sum

@[simp] theorem kraftSum_nil : kraftSum [] = 0 := rfl

@[simp] theorem kraftSum_cons (l : Nat) (ls : List Nat) : kraftSum (l :: ls) = (1 / 2) ^ l + kraftSum ls := by
  simp [kraftSum]

@[simp] theorem lengthCost_nil : lengthCost [] = 0 := rfl

@[simp] theorem lengthCost_cons (e : Nat × Nat) (P : List (Nat × Nat)) :
    lengthCost (e :: P) = e.1 * e.2 + lengthCost P := by simp [lengthCost]

theorem kraftSum_perm {ls ls' : List Nat} (h : ls.Perm ls') : kraftSum ls = kraftSum ls' := (h.map _).sum_eq

theorem lengthCost_perm {P P' : List (Nat × Nat)} (h : P.Perm P') : lengthCost P = lengthCost P' := (h.map _).sum_eq

theorem kraftSum_nonneg (ls : List Nat) : 0 ≤ kraftSum ls := by
  induction ls with
  | nil => rfl
  | cons l ls ih => rw [kraftSum_cons]; positivity

/-- Of lengths up to `m` the Kraft sum is a multiple of `2 ^ -m`. -/
theorem kraftSum_eq_mul {m : Nat} {ls : List Nat} (h : ∀ l ∈ ls, l ≤ m) :
    ∃ N : Nat, kraftSum ls = N * (1 / 2) ^ m := by
  induction ls with
  | nil => exact ⟨0, by simp⟩
  | cons l ls ih =>
    obtain ⟨N, hN⟩ := ih fun k hk => h k (by simp [hk])
    obtain ⟨d, rfl⟩ := Nat.exists_eq_add_of_le (h l (by simp))
    refine ⟨2 ^ d + N, ?_⟩
    have hd : (2 : ℚ) ^ d * (1 / 2) ^ d = 1 := by rw [← mul_pow]; norm_num
    rw [kraftSum_cons, hN, pow_add]
    push_cast
    linear_combination -(1 / 2 : ℚ) ^ l * hd

/-- A length above all others may shrink to the longest of the others. -/
theorem kraftSum_shorten {a m : Nat} {ls : List Nat} (h : ∀ l ∈ ls, l ≤ m) (hk : kraftSum (a :: ls) ≤ 1) :
    kraftSum (m :: ls) ≤ 1 := by
  obtain ⟨N, hN⟩ := kraftSum_eq_mul h
  have ha : (0 : ℚ) < (1 / 2) ^ a := by positivity
  have hm : (0 : ℚ) < (1 / 2) ^ m := by positivity
  have hone : (2 : ℚ) ^ m * (1 / 2) ^ m = 1 := by rw [← mul_pow]; norm_num
  rw [kraftSum_cons, hN] at hk ⊢
  have hlt : N < 2 ^ m := by
    have : (N : ℚ) * (1 / 2) ^ m < 2 ^ m * (1 / 2) ^ m := by rw [hone]; linarith
    exact_mod_cast lt_of_mul_lt_mul_right this hm.le
  have hle : (N : ℚ) + 1 ≤ 2 ^ m := by exact_mod_cast hlt
  calc (1 / 2 : ℚ) ^ m + N * (1 / 2) ^ m = (N + 1) * (1 / 2) ^ m := by ring
    _ ≤ 2 ^ m * (1 / 2) ^ m := mul_le_mul_of_nonneg_right hle hm.le
    _ = 1 := hone

/-- Exchange: the lengths can be dealt out anew, at no cost, so that the lightest weight has the longest. -/
theorem exists_longest_first (w a : Nat) (Q : List (Nat × Nat)) (hw : ∀ e ∈ Q, w ≤ e.1) :
    ∃ m Q', Q'.map Prod.fst = Q.map Prod.fst ∧ (m :: Q'.map Prod.snd).Perm (a :: Q.map Prod.snd)
      ∧ (∀ l ∈ a :: Q.map Prod.snd, l ≤ m) ∧ lengthCost ((w, m) :: Q') ≤ lengthCost ((w, a) :: Q) := by
  induction Q generalizing a with
  | nil => exact ⟨a, [], rfl, .refl _, by simp, le_rfl⟩
  | cons e Q ih =>
    obtain ⟨x, b⟩ := e
    obtain ⟨m, Q', hfst, hsnd, hmax, hcost⟩ := ih (max a b) fun e he => hw e (by simp [he])
    have hwx : w ≤ x := hw (x, b) (by simp)
    have hswap : w * max a b + x * min a b ≤ w * a + x * b := by
      rcases le_total a b with h | h
      · simpa [h] using mul_add_mul_le_mul_add_mul hwx h
      · simp [h]
    have hpair : (min a b :: max a b :: Q.map Prod.snd).Perm (a :: b :: Q.map Prod.snd) := by
      rcases le_total a b with h | h
      · simp [h]
      · simpa [h] using List.Perm.swap _ _ _
    refine ⟨m, (x, min a b) :: Q', by simp [hfst], ?_, ?_, ?_⟩
    · exact (List.Perm.swap (min a b) m _).trans ((hsnd.cons _).trans hpair)
    · obtain ⟨hm, hQ⟩ := List.forall_mem_cons.1 hmax
      exact List.forall_mem_cons.2 ⟨(le_max_left a b).trans hm,
        List.forall_mem_cons.2 ⟨(le_max_right a b).trans hm, hQ⟩⟩
    · simp only [lengthCost_cons] at *; omega

/-- Exchange twice, and shrink the longest length: the two lightest weights can share a longest length. -/
theorem exists_twins_first {v a w b : Nat} {Q : List (Nat × Nat)} (hvw : v ≤ w) (hw : ∀ e ∈ Q, w ≤ e.1)
    (hk : kraftSum (a :: b :: Q.map Prod.snd) ≤ 1) :
    ∃ m Q', Q'.map Prod.fst = Q.map Prod.fst ∧ kraftSum (m :: m :: Q'.map Prod.snd) ≤ 1
      ∧ lengthCost ((v, m) :: (w, m) :: Q') ≤ lengthCost ((v, a) :: (w, b) :: Q) := by
  have hv : ∀ e ∈ (w, b) :: Q, v ≤ e.1 := List.forall_mem_cons.2 ⟨hvw, fun e he => hvw.trans (hw e he)⟩
  obtain ⟨M, P, hfst, hsnd, hmax, hcost⟩ := exists_longest_first v a ((w, b) :: Q) hv
  obtain ⟨⟨w, b'⟩, Q₁, rfl, rfl, hfst₁⟩ := List.map_eq_cons_iff.1 hfst
  have hw₁ : ∀ e ∈ Q₁, w ≤ e.1 := by
    intro e he
    obtain ⟨f, hf, hfe⟩ := List.mem_map.1 (hfst₁ ▸ List.mem_map_of_mem (f := Prod.fst) he)
    exact hfe ▸ hw f hf
  obtain ⟨m, Q₂, hfst₂, hsnd₂, hmax₂, hcost₂⟩ := exists_longest_first w b' Q₁ hw₁
  have hk₂ : kraftSum (M :: m :: Q₂.map Prod.snd) ≤ 1 := by
    rwa [kraftSum_perm ((hsnd₂.cons M).trans hsnd)]
  have hlongest : ∀ l ∈ m :: Q₂.map Prod.snd, l ≤ m := fun l hl => hmax₂ l (hsnd₂.mem_iff.1 hl)
  have hm : m ≤ M := hmax m (hsnd.mem_iff.1 (List.mem_cons_of_mem M (hsnd₂.mem_iff.1 List.mem_cons_self)))
  refine ⟨m, Q₂, hfst₂.trans hfst₁, kraftSum_shorten hlongest hk₂, ?_⟩
  have := Nat.mul_le_mul_left v hm
  simp only [lengthCost_cons] at *
  omega

/-- Two codewords of the same length fill what one that is shorter by 1 fills. -/
theorem kraftSum_twins (l : Nat) (ls : List Nat) : kraftSum ((l + 1) :: (l + 1) :: ls) = kraftSum (l :: ls) := by
  simp only [kraftSum_cons, pow_succ]; ring

theorem one_lt_kraftSum_zero_zero (ls : List Nat) : 1 < kraftSum (0 :: 0 :: ls) := by
  have := kraftSum_nonneg ls
  simp only [kraftSum_cons, pow_zero]; linarith

/-- One Huffman step: lengths for weights of which `v` and `w` are the two lowest give lengths for the weights with
`v + w` in their place, at a cost lower by at least `v + w`. -/
theorem exists_lengths_after_merge {v w : Nat} {R : List Nat} {P : List (Nat × Nat)}
    (hP : (P.map Prod.fst).Perm (v :: w :: R)) (hvw : v ≤ w) (hR : ∀ x ∈ R, w ≤ x)
    (hk : kraftSum (P.map Prod.snd) ≤ 1) :
    ∃ P', (P'.map Prod.fst).Perm ((v + w) :: R) ∧ kraftSum (P'.map Prod.snd) ≤ 1
      ∧ lengthCost P' + (v + w) ≤ lengthCost P := by
  obtain ⟨P₀, hfst, hperm⟩ : Relation.Comp (· = List.map Prod.fst ·) List.Perm (v :: w :: R) P := by
    rw [List.eq_map_comp_perm]; exact hP.symm
  obtain ⟨⟨_, a⟩, P₁, rfl, rfl, hfst₁⟩ := List.map_eq_cons_iff.1 hfst.symm
  obtain ⟨⟨_, b⟩, Q, rfl, rfl, rfl⟩ := List.map_eq_cons_iff.1 hfst₁
  rw [← kraftSum_perm (hperm.map Prod.snd)] at hk
  obtain ⟨m, Q', hfst', hk', hcost⟩ :=
    exists_twins_first hvw (fun e he => hR _ (List.mem_map_of_mem he)) hk
  cases m with
  | zero => exact absurd hk' (one_lt_kraftSum_zero_zero _).not_ge
  | succ l =>
    refine ⟨(_, l) :: Q', .of_eq (congrArg (List.cons _) hfst'), kraftSum_twins l _ ▸ hk', ?_⟩
    rw [← lengthCost_perm hperm]
    simp only [lengthCost_cons, Nat.mul_add, Nat.add_mul] at *
    omega

end Sys2Proof.Machine
end

section
/-! PROOF. Kraft's inequality for codes of non-empty codewords none of which begins another: they are uniquely
decodable (42_huffman_tree.md R149). -/
namespace Sys2Proof.Machine
open InformationTheory

/-- The first codeword of a sequence of codewords is determined, so the whole sequence is. -/
theorem uniquelyDecodable_of_prefixFree {S : Set Bits} (hne : [] ∉ S)
    (hfree : ∀ a ∈ S, ∀ b ∈ S, a <+: b → a = b) : UniquelyDecodable S := by
  have hnil : ∀ L : List Bits, (∀ w ∈ L, w ∈ S) → L.flatten = [] → L = [] := by
    rintro (_ | ⟨a, L⟩) hL h
    · rfl
    · exact absurd ((List.append_eq_nil_iff.1 h).1 ▸ hL a (by simp)) hne
  intro L₁
  induction L₁ with
  | nil => exact fun L₂ _ h₂ h => (hnil L₂ h₂ h.symm).symm
  | cons a L₁ ih =>
    rintro (_ | ⟨b, L₂⟩) h₁ h₂ h
    · exact hnil _ h₁ h
    · obtain ⟨ha, h₁⟩ := List.forall_mem_cons.1 h₁
      obtain ⟨hb, h₂⟩ := List.forall_mem_cons.1 h₂
      rw [List.flatten_cons, List.flatten_cons] at h
      have hab : a = b := by
        rcases List.prefix_or_prefix_of_prefix (List.prefix_append a L₁.flatten)
          (h ▸ List.prefix_append b _) with hp | hp
        · exact hfree a ha b hb hp
        · exact (hfree b hb a ha hp).symm
      rw [hab] at h ⊢
      rw [ih L₂ h₁ h₂ (List.append_cancel_left h)]

theorem kraftSum_le_one {cws : List Bits} (hnd : cws.Nodup) (hne : [] ∉ cws)
    (hfree : ∀ a ∈ cws, ∀ b ∈ cws, a <+: b → a = b) : kraftSum (cws.map List.length) ≤ 1 := by
  have hud : UniquelyDecodable (cws.toFinset : Set Bits) :=
    uniquelyDecodable_of_prefixFree (by simpa using hne) (by simpa using hfree)
  have hkraft := kraft_mcmillan_inequality hud
  have hsum : kraftSum (cws.map List.length) = ∑ w ∈ cws.toFinset, (1 / 2 : ℚ) ^ w.length := by
    rw [List.sum_toFinset _ hnd, kraftSum, List.map_map]; rfl
  rw [hsum, ← Rat.cast_le (K := ℝ)]
  push_cast
  simpa using hkraft

end Sys2Proof.Machine
end

section
/-! PROOF. Optimality: the merges cost no more than any lengths that satisfy Kraft's inequality, so no more than any
code none of whose codewords begins another (42_huffman_tree.md R150). -/
namespace Sys2Proof.Machine
open Sys2Proof.Safety

/-- The sum of the frequencies of a tree's inner nodes: what its merges have cost. -/
def Node.mergeCost : Node → Nat
  | .leaf _ _ => 0
  | .internal n l r => n + l.mergeCost + r.mergeCost

def forestCost (l : List Node) : Nat := (l.map Node.mergeCost).sum

theorem payloadCost_append (ft ft' : FreqTab) (code : Symbol → Bits) :
    payloadCost (ft ++ ft') code = payloadCost ft code + payloadCost ft' code := by simp [payloadCost]

/-- R144: every inner node above a leaf adds one bit to its codeword, so the payload of a tree is its merges' cost. -/
theorem payloadCost_leaves {n : Node} {path : Bits} {code : Symbol → Bits} (hn : n.Weighted)
    (hcode : ∀ e ∈ walk n path, code e.1 = e.2) :
    payloadCost n.leaves code = n.mergeCost + n.freq * path.length := by
  induction n generalizing path with
  | leaf sym k =>
    have : code sym = path := hcode (sym, path) (by simp [walk])
    simp [payloadCost, Node.leaves, Node.mergeCost, Node.freq, this]
  | internal k l r ihl ihr =>
    obtain ⟨rfl, hl, hr⟩ := hn
    rw [Node.leaves, payloadCost_append, ihl hl fun e he => hcode e (List.mem_append_left _ he),
      ihr hr fun e he => hcode e (List.mem_append_right _ he)]
    simp only [Node.mergeCost, Node.freq, List.length_append, List.length_singleton]
    ring

/-- R143: a merge costs its new node's frequency. -/
theorem forestCost_reinsert (pos : InsertPos) (first second : Node) (rest : List Node) :
    forestCost (reinsert pos (mergedNode first second) rest) =
      first.freq + second.freq + forestCost (first :: second :: rest) := by
  rw [forestCost, ((reinsert_perm pos _ rest).map Node.mergeCost).sum_eq]
  simp only [forestCost, mergedNode, Node.mergeCost, List.map_cons, List.sum_cons]
  ring

/-- R150: from a list in key order the merges cost no more than any lengths for its nodes. -/
theorem merges_mergeCost_le {pos : InsertPos} {l : List Node} {root : Node}
    (hs : Relation.ReflTransGen (MergeStep pos) l [root]) (hsorted : KeySorted l) (P : List (Nat × Nat))
    (hP : (P.map Prod.fst).Perm (l.map Node.freq)) (hk : kraftSum (P.map Prod.snd) ≤ 1) :
    root.mergeCost ≤ forestCost l + lengthCost P := by
  induction hs using Relation.ReflTransGen.head_induction_on generalizing P with
  | refl => simp [forestCost]
  | head hstep _ ih =>
    obtain ⟨first, second, rest, rfl, rfl⟩ := mergeStep_iff.1 hstep
    obtain ⟨hfirst, hsorted⟩ := List.pairwise_cons.1 hsorted
    obtain ⟨hsecond, -⟩ := List.pairwise_cons.1 hsorted
    have hrest : ∀ x ∈ rest.map Node.freq, second.freq ≤ x :=
      List.forall_mem_map.2 fun n hn => freq_le_of_keyLe (hsecond n hn)
    obtain ⟨P', hP', hk', hcost⟩ :=
      exists_lengths_after_merge hP (freq_le_of_keyLe (hfirst second (by simp))) hrest hk
    have hnew := (reinsert_perm pos (mergedNode first second) rest).map Node.freq
    have := ih (reinsert_keySorted _ _ _) P' (hP'.trans hnew.symm) hk'
    rw [forestCost_reinsert] at this
    omega

/-- The codeword lengths of a code, each with the count of its symbol. -/
def codeLengths (ft : FreqTab) (code : Symbol → Bits) : List (Nat × Nat) := ft.map fun e => (e.2, (code e.1).length)

theorem lengthCost_codeLengths (ft : FreqTab) (code : Symbol → Bits) :
    lengthCost (codeLengths ft code) = payloadCost ft code := by
  simp [lengthCost, codeLengths, payloadCost, Function.comp_def]

theorem kraftSum_codeLengths {ft : FreqTab} {code : Symbol → Bits} (hnd : (ft.map Prod.fst).Nodup)
    (hne : ∀ e ∈ ft, code e.1 ≠ []) (hfree : ∀ e ∈ ft, ∀ f ∈ ft, e.1 ≠ f.1 → ¬code e.1 <+: code f.1) :
    kraftSum ((codeLengths ft code).map Prod.snd) ≤ 1 := by
  have hprefix : ∀ y ∈ ft.map Prod.fst, ∀ z ∈ ft.map Prod.fst, code y <+: code z → y = z := by
    simp only [List.forall_mem_map]
    exact fun e he f hf h => by_contra fun hef => hfree e he f hf hef h
  have hcws : (codeLengths ft code).map Prod.snd = ((ft.map Prod.fst).map code).map List.length := by
    simp [codeLengths, Function.comp_def]
  rw [hcws]
  refine kraftSum_le_one (hnd.map_on fun y hy z hz h => hprefix y hy z hz (h ▸ List.prefix_refl _)) ?_ ?_
  · simpa using fun y n he => hne (y, n) he
  · simp only [List.forall_mem_map (l := ft.map Prod.fst)]
    exact fun y hy z hz h => congrArg code (hprefix y hy z hz h)

/-- The freshly sorted leaves have the table's counts, and no merge has cost anything. -/
theorem initialNodes_freq (ft : FreqTab) : ((initialNodes ft).map Node.freq).Perm (ft.map Prod.snd) := by
  have := (stableSort_perm (ft.map fun e => Node.leaf e.1 e.2)).map Node.freq
  rwa [List.map_map] at this

theorem forestCost_initialNodes (ft : FreqTab) : forestCost (initialNodes ft) = 0 := by
  rw [forestCost, initialNodes, ((stableSort_perm _).map _).sum_eq, List.map_map]
  exact List.sum_eq_zero (List.forall_mem_map.2 fun _ _ => rfl)

/-- R150: the payload under the built map is the cost of the merges. -/
theorem payloadCost_huffBuild {cfg : Config} {ft : FreqTab} {root : Node} (hnd : (ft.map Prod.fst).Nodup)
    (hforest : IsForest ft [root]) (hmap : huffBuild cfg ft = orderEntries cfg.tableOrder ft (walk root [])) :
    payloadCost ft (codeOf (huffBuild cfg ft)) = root.mergeCost := by
  have hsyms := hforest.symbols_perm
  have hleaves : root.leaves.Perm ft := by simpa using hforest.leaves
  have hcode : ∀ e ∈ walk root [], codeOf (huffBuild cfg ft) e.1 = e.2 := fun e he =>
    hmap ▸ codeOf_orderEntries _ (hsyms.nodup_iff.2 hnd) hsyms he
  calc payloadCost ft (codeOf (huffBuild cfg ft))
      = payloadCost root.leaves (codeOf (huffBuild cfg ft)) := (hleaves.symm.map _).sum_eq
    _ = root.mergeCost := by simpa using payloadCost_leaves (hforest.weighted root (by simp)) hcode

/-- Settles O40: the merges cost no more than the lengths of such a code, which satisfy Kraft's inequality. -/
theorem builtCodeIsOptimal : Obligations.BuiltCodeIsOptimal := by
  intro cfg ft code hnd hne hfree
  match ft with
  | [] => simp [payloadCost]
  | [e] =>
    have : 1 ≤ (code e.1).length := List.length_pos_iff.2 (hne e (by simp))
    simpa [payloadCost, huffBuild_singleton, codeOf] using Nat.le_mul_of_pos_right e.2 this
  | e :: f :: ft =>
    obtain ⟨root, hreach, hforest, hmap, -⟩ := exists_codeTree_perm cfg (by simp) hnd
    have hcounts : (codeLengths (e :: f :: ft) code).map Prod.fst = (e :: f :: ft).map Prod.snd := by
      simp [codeLengths]
    have := merges_mergeCost_le hreach (initialNodes_isForest _).sorted (codeLengths (e :: f :: ft) code)
      (hcounts ▸ (initialNodes_freq _).symm) (kraftSum_codeLengths hnd hne hfree)
    rwa [forestCost_initialNodes, lengthCost_codeLengths, Nat.zero_add,
      ← payloadCost_huffBuild hnd hforest hmap] at this

end Sys2Proof.Machine
end

section
/-! PROOF. TableSer and TBL_SER (43_huffman_table.md R160 to R162). -/
namespace Sys2Proof.Machine
open Sys2Proof.Safety

theorem decode_tblSer : decode 0x00000028 = .ok .tblSer :=
  decode_cmdWord_opcode (r := ⟨"TBL_SER", 0x28, .N, fun _ _ => .tblSer⟩) (by simp [opcodeTable, codecRows])

theorem tableSerFrom_cons_short (m : Mode) (k : Nat) {e : Symbol × Bits} (cm : CodeMap) (he : e.2.length ≤ 255) :
    tableSerFrom m k (e :: cm) = (tableSerFrom m (k + 1) cm >>= fun out => .ok (entryBits m e ++ out)) :=
  if_neg (Nat.not_lt.2 he)

/-- R161: with every codeword short enough for its field `P`, the segment is R87's layout. -/
theorem tableSerFrom_of_short (m : Mode) (k : Nat) {cm : CodeMap} (h : ∀ e ∈ cm, e.2.length ≤ 255) :
    tableSerFrom m k cm = .ok (tableBits m cm) := by
  induction cm generalizing k with
  | nil => rfl
  | cons e cm ih =>
    obtain ⟨he, hcm⟩ := List.forall_mem_cons.1 h
    rw [tableSerFrom_cons_short m k cm he, ih (k + 1) hcm]
    rfl

/-- R161: the loop stops at the first codeword that is too long, with its index. -/
theorem tableSerFrom_first_long (m : Mode) (k : Nat) (pre : CodeMap) {e : Symbol × Bits} (post : CodeMap)
    (hpre : ∀ f ∈ pre, f.2.length ≤ 255) (he : 255 < e.2.length) :
    tableSerFrom m k (pre ++ e :: post) = .error ⟨.fieldOverflow, k + pre.length⟩ := by
  induction pre generalizing k with
  | nil => exact if_pos he
  | cons f pre ih =>
    obtain ⟨hf, hpre⟩ := List.forall_mem_cons.1 hpre
    rw [List.cons_append, tableSerFrom_cons_short m k _ hf, ih (k + 1) hpre, error_bind, List.length_cons,
      Nat.add_assoc, Nat.add_comm 1]

/-- R162: when TBL_SER's pseudocode reaches its end, and what it leaves. -/
theorem tblSerBody_eq_ok {s u : State} :
    tblSerBody s = .ok u ↔
      ∃ seg, tableSer s.mode s.cm = .ok seg ∧ seg.length ≤ s.cfg.bbCap.val ∧ u = { s with bb1 := ⟨seg, 0⟩ } := by
  simp [tblSerBody, bind_eq_ok, checkCapacity_eq_ok, eq_comm (b := u)]

theorem tblSerBody_eq_error {s : State} {r : Raise} :
    tblSerBody s = .error r ↔ tableSer s.mode s.cm = .error r
      ∨ ∃ seg, tableSer s.mode s.cm = .ok seg ∧ s.cfg.bbCap.val < seg.length ∧ r = ⟨.capacityExceeded, 0⟩ := by
  simp [tblSerBody, bind_eq_error, checkCapacity_eq_error]

/-- Settles O41: TableSer yields the layout or stops at the first long codeword; R162 then tests the length. -/
theorem tableSerWritesTheSegment : Obligations.TableSerWritesTheSegment := by
  refine ⟨decode_tblSer, fun s h => ⟨fun hshort => ?_, fun pre e post hcm hpre he => ?_⟩⟩
  · have hseg := tableSerFrom_of_short s.mode 0 hshort
    exact ⟨fun hfits => command_of_ok h (tblSerBody_eq_ok.2 ⟨_, hseg, hfits, rfl⟩),
      fun hover => command_of_error h (tblSerBody_eq_error.2 (.inr ⟨_, hseg, hover, rfl⟩))⟩
  · have hseg := tableSerFrom_first_long s.mode 0 pre post hpre he
    rw [← hcm, Nat.zero_add] at hseg
    exact command_of_error h (tblSerBody_eq_error.2 (.inl hseg))

end Sys2Proof.Machine
end

section
/-! PROOF. Reading a field that stands at a bit index of a buffer, as what the bits left from that index begin with
(40_bitbuffer.md R103), and cutting a field off a sequence (00_scope.md R10). -/
namespace Sys2Proof.Machine

theorem append_prefix_drop {bs p q : Bits} {i : Nat} :
    p ++ q <+: bs.drop i ↔ p <+: bs.drop i ∧ q <+: bs.drop (i + p.length) := by
  rw [← List.drop_drop]
  constructor
  · rintro ⟨r, h⟩
    rw [← h, List.append_assoc, List.drop_left]
    exact ⟨List.prefix_append _ _, List.prefix_append _ _⟩
  · rintro ⟨⟨r, h⟩, hq⟩
    rw [← h, List.drop_left] at hq
    rw [← h]
    exact (List.prefix_append_right_inj p).2 hq

theorem readLim_of_prefix {bs q : Bits} {i lim : Nat} (E : ErrKind) (h : q <+: bs.drop i) (hlim : i + q.length ≤ lim) :
    readLim ⟨bs, i⟩ q.length lim E = .ok (val q, ⟨bs, i + q.length⟩) := by
  have hq : slice bs i (i + q.length) = q := by
    rw [slice, Nat.add_sub_cancel_left, ← List.prefix_iff_eq_take.1 h]
  exact readLim_eq_ok.2 ⟨Nat.le_sub_of_add_le' hlim, congrArg val hq.symm, rfl⟩

theorem readLim_bits_of_prefix {bs : Bits} {v w i lim : Nat} (E : ErrKind) (h : bits v w <+: bs.drop i) (hv : v < 2 ^ w)
    (hlim : i + w ≤ lim) : readLim ⟨bs, i⟩ w lim E = .ok (v, ⟨bs, i + w⟩) := by
  simpa [val_bits hv] using readLim_of_prefix E h (by simpa using hlim)

theorem exists_append_of_length_le {w : Nat} {t : Bits} (h : w ≤ t.length) : ∃ q post, q.length = w ∧ t = q ++ post :=
  ⟨t.take w, t.drop w, List.length_take_of_le h, (List.take_append_drop w t).symm⟩

/-- R10: the first `w` bits of a sequence are the field of some number. -/
theorem exists_bits_append {w : Nat} {t : Bits} (h : w ≤ t.length) : ∃ v post, v < 2 ^ w ∧ t = bits v w ++ post := by
  obtain ⟨q, post, rfl, rfl⟩ := exists_append_of_length_le h
  exact ⟨val q, post, val_lt q, by rw [bits_val]⟩

end Sys2Proof.Machine
end

section
/-! PROOF. ReadSym at a bit index: the symbol that stands there, the sentinel in a character position, and a chunk that
would pass the limit (41_symbolmodel.md R131, R132); and every sequence starts in one of these ways. -/
namespace Sys2Proof.Machine
open Sys2Proof.Safety

@[simp] theorem chrBits_length (c : Chr) : (chrBits c).length = 7 := bits_length _ _

@[simp] theorem flatMap_chrBits_length (y : Symbol) : (y.flatMap chrBits).length = 7 * y.length := by
  simp [List.length_flatMap, Nat.mul_comm]

theorem symEnc_word (y : Symbol) : symEnc .word y = y.flatMap chrBits ++ bits sentinel charW := rfl

theorem symbolsFit_character {y : Symbol} (h : SymbolsFit .character [y]) : ∃ c, y = [c] :=
  List.length_eq_one_iff.1 (h rfl y List.mem_cons_self)

theorem seven_le_symEnc_length {m : Mode} {y : Symbol} (h : SymbolsFit m [y]) : 7 ≤ (symEnc m y).length := by
  cases m with
  | character =>
    obtain ⟨c, rfl⟩ := symbolsFit_character h
    exact (chrBits_length c).ge
  | word => simp [symEnc_word, charW]

/-! ### Chunks -/

theorem readLim_chrBits {bs : Bits} {i lim : Nat} {c : Chr} (E : ErrKind) (h : chrBits c <+: bs.drop i)
    (hlim : i + 7 ≤ lim) : readLim ⟨bs, i⟩ charW lim E = .ok (c.val, ⟨bs, i + 7⟩) :=
  readLim_bits_of_prefix E h (c.isLt.trans (by decide)) hlim

theorem readLim_sentinel {bs : Bits} {i lim : Nat} (E : ErrKind) (h : bits sentinel charW <+: bs.drop i)
    (hlim : i + 7 ≤ lim) : readLim ⟨bs, i⟩ charW lim E = .ok (sentinel, ⟨bs, i + 7⟩) :=
  readLim_bits_of_prefix E h (by decide) hlim

theorem readLim_short_chunk {bs : Bits} {i lim : Nat} (E : ErrKind) (h : lim < i + 7) :
    readLim ⟨bs, i⟩ charW lim E = .error ⟨E, i⟩ :=
  readLim_eq_error.2 ⟨by simp only [charW]; omega, rfl⟩

theorem chr?_sentinel : chr? sentinel = none := (chr?_none_iff _).2 le_rfl

/-- R89: a sequence is too short for a chunk, or starts with the sentinel or with a character. -/
theorem chunk_cases (t : Bits) :
    t.length < 7 ∨ (∃ post, t = bits sentinel charW ++ post) ∨ ∃ c post, t = chrBits c ++ post := by
  by_cases hlen : t.length < 7
  · exact .inl hlen
  · obtain ⟨v, post, hv, rfl⟩ := exists_bits_append (Nat.not_lt.1 hlen)
    by_cases hc : v < 127
    · exact .inr (.inr ⟨⟨v, hc⟩, post, rfl⟩)
    · obtain rfl : v = 127 := by omega
      exact .inr (.inl ⟨post, rfl⟩)

/-! ### Words -/

/-- R132: one turn of the word loop, at a character. -/
theorem readWord_chrBits {bs : Bits} {i lim : Nat} {c : Chr} (E : ErrKind) (acc : Symbol) (h : chrBits c <+: bs.drop i)
    (hlim : i + 7 ≤ lim) :
    readWord lim E (lim - i) ⟨bs, i⟩ acc = readWord lim E (lim - (i + 7)) ⟨bs, i + 7⟩ (acc ++ [c]) := by
  obtain ⟨f, hf⟩ : ∃ f, lim - i = f + 1 := ⟨lim - i - 1, by omega⟩
  rw [hf, readWord, readLim_chrBits E h hlim]
  simp only [ok_bind, chr?_val]
  exact readWord_fuel lim E _ _ _ _ (by simp only; omega) le_rfl

/-- R132: the word loop at the characters of a word. -/
theorem readWord_flatMap_chrBits {bs : Bits} {i lim : Nat} {y : Symbol} (E : ErrKind) (acc : Symbol)
    (h : y.flatMap chrBits <+: bs.drop i) (hlim : i + 7 * y.length ≤ lim) :
    readWord lim E (lim - i) ⟨bs, i⟩ acc =
      readWord lim E (lim - (i + 7 * y.length)) ⟨bs, i + 7 * y.length⟩ (acc ++ y) := by
  induction y generalizing i acc with
  | nil => simp
  | cons c y ih =>
    obtain ⟨hc, hy⟩ := append_prefix_drop.1 h
    rw [chrBits_length] at hy
    rw [List.length_cons] at hlim
    rw [readWord_chrBits E acc hc (by omega), ih (acc ++ [c]) hy (by omega), List.append_assoc, List.singleton_append,
      List.length_cons, Nat.mul_succ, Nat.add_comm (7 * y.length), Nat.add_assoc]

theorem readWord_sentinel {bs : Bits} {i lim : Nat} (E : ErrKind) (acc : Symbol) (h : bits sentinel charW <+: bs.drop i)
    (hlim : i + 7 ≤ lim) : readWord lim E (lim - i) ⟨bs, i⟩ acc = .ok (acc, ⟨bs, i + 7⟩) := by
  obtain ⟨f, hf⟩ : ∃ f, lim - i = f + 1 := ⟨lim - i - 1, by omega⟩
  rw [hf, readWord, readLim_sentinel E h hlim]
  simp only [ok_bind, chr?_sentinel, pure_eq_ok]

theorem readWord_short_chunk {bs : Bits} {i lim : Nat} (E : ErrKind) (fuel : Nat) (acc : Symbol) (h : lim < i + 7) :
    readWord lim E fuel ⟨bs, i⟩ acc = .error ⟨E, i⟩ := by
  cases fuel with
  | zero => rfl
  | succ f => rw [readWord, readLim_short_chunk E h, error_bind]

/-- R132: every sequence starts with an encoded word, or ends inside one. -/
theorem word_cases (t : Bits) :
    (∃ y post, t = symEnc .word y ++ post)
      ∨ ∃ (y : Symbol) (tail : Bits), tail.length < 7 ∧ t = y.flatMap chrBits ++ tail := by
  induction hn : t.length using Nat.strong_induction_on generalizing t with
  | _ n ih =>
    obtain hlen | ⟨post, rfl⟩ | ⟨c, post, rfl⟩ := chunk_cases t
    · exact .inr ⟨[], t, hlen, rfl⟩
    · exact .inl ⟨[], post, rfl⟩
    · rw [List.length_append, chrBits_length] at hn
      obtain ⟨y, post, rfl⟩ | ⟨y, tail, hlen, rfl⟩ := ih _ (by omega) post rfl
      · exact .inl ⟨c :: y, post, by simp [symEnc_word]⟩
      · exact .inr ⟨c :: y, tail, hlen, by simp⟩

/-! ### Symbols in either mode -/

/-- R132: ReadSym reads back the symbol that stands at the cursor. -/
theorem readSym_symEnc {m : Mode} {bs : Bits} {i lim : Nat} {y : Symbol} (E : ErrKind) (hy : SymbolsFit m [y])
    (h : symEnc m y <+: bs.drop i) (hlim : i + (symEnc m y).length ≤ lim) :
    readSym ⟨bs, i⟩ m lim E = .ok (y, ⟨bs, i + (symEnc m y).length⟩) := by
  cases m with
  | character =>
    obtain ⟨c, rfl⟩ := symbolsFit_character hy
    have hlen : (symEnc .character [c]).length = 7 := chrBits_length c
    rw [hlen] at hlim ⊢
    rw [readSym, readLim_chrBits E h hlim]
    simp only [ok_bind, chr?_val, pure_eq_ok]
  | word =>
    obtain ⟨hchars, hend⟩ := append_prefix_drop.1 h
    have hlen : (symEnc .word y).length = 7 * y.length + 7 := by
      rw [symEnc_word, List.length_append, flatMap_chrBits_length, bits_length, charW]
    rw [flatMap_chrBits_length] at hend
    rw [hlen, ← Nat.add_assoc] at hlim ⊢
    exact (readWord_flatMap_chrBits E [] hchars (by omega)).trans (readWord_sentinel E y hend hlim)

/-- R132: the sentinel where a character must stand. -/
theorem readSym_sentinel {bs : Bits} {i lim : Nat} (E : ErrKind) (h : bits sentinel charW <+: bs.drop i)
    (hlim : i + 7 ≤ lim) : readSym ⟨bs, i⟩ .character lim E = .error ⟨.invalidSymbol, i⟩ := by
  rw [readSym, readLim_sentinel E h hlim]
  simp only [ok_bind, chr?_sentinel]
  rfl

/-- R132: a chunk that would pass the limit, after the characters `y` of a word. -/
theorem readSym_short_chunk {m : Mode} {bs : Bits} {i lim : Nat} {y : Symbol} (E : ErrKind)
    (hy : m = .character → y = []) (h : y.flatMap chrBits <+: bs.drop i) (hlim : i + 7 * y.length ≤ lim)
    (hshort : lim < i + 7 * y.length + 7) :
    readSym ⟨bs, i⟩ m lim E = .error ⟨E, i + 7 * y.length⟩ := by
  cases m with
  | character =>
    obtain rfl := hy rfl
    exact bind_eq_error.2 (.inl (readLim_short_chunk E hshort))
  | word => exact (readWord_flatMap_chrBits E [] h hlim).trans (readWord_short_chunk E _ _ hshort)

/-- R132: every sequence starts with an encoded symbol, with the sentinel in a character position, or ends inside a
symbol. -/
theorem symbol_cases (m : Mode) (t : Bits) :
    (∃ y post, SymbolsFit m [y] ∧ t = symEnc m y ++ post)
      ∨ (m = .character ∧ ∃ post, t = bits sentinel charW ++ post)
      ∨ ∃ (y : Symbol) (tail : Bits), (m = .character → y = []) ∧ tail.length < 7 ∧ t = y.flatMap chrBits ++ tail := by
  cases m with
  | character =>
    obtain hlen | hend | ⟨c, post, rfl⟩ := chunk_cases t
    · exact .inr (.inr ⟨[], t, fun _ => rfl, hlen, rfl⟩)
    · exact .inr (.inl ⟨rfl, hend⟩)
    · exact .inl ⟨[c], post, by simp, rfl⟩
  | word =>
    obtain ⟨y, post, rfl⟩ | ⟨y, tail, hlen, rfl⟩ := word_cases t
    · exact .inl ⟨y, post, nofun, rfl⟩
    · exact .inr (.inr ⟨y, tail, nofun, hlen, rfl⟩)

end Sys2Proof.Machine
end

section
/-! PROOF. TableDes at a bit index: the entries of an acceptable table, and each field at which it can fail
(43_huffman_table.md R164, R166, R167). -/
namespace Sys2Proof.Machine
open Sys2Proof.Safety

/-- R160: an entry in the order in which it is read. -/
theorem entryBits_eq (m : Mode) (e : Symbol × Bits) : entryBits m e = symEnc m e.1 ++ bits e.2.length 8 ++ e.2 := rfl

theorem entryBits_length (m : Mode) (e : Symbol × Bits) :
    (entryBits m e).length = (symEnc m e.1).length + 8 + e.2.length := by
  rw [entryBits_eq, List.length_append, List.length_append, bits_length]

theorem tableBits_cons (m : Mode) (e : Symbol × Bits) (cm : CodeMap) :
    tableBits m (e :: cm) = entryBits m e ++ tableBits m cm := rfl

theorem tableBits_concat (m : Mode) (cm : CodeMap) (e : Symbol × Bits) :
    tableBits m (cm ++ [e]) = tableBits m cm ++ entryBits m e := by
  simp [tableBits, entryBits, plenW]

theorem tableFits_nil (m : Mode) : TableFits m [] := by simp [TableFits, SymbolsFit]

/-- R164: one more entry that keeps a table acceptable. -/
theorem tableFits_concat {m : Mode} {cm : CodeMap} {e : Symbol × Bits} :
    TableFits m (cm ++ [e]) ↔
      TableFits m cm ∧ SymbolsFit m [e.1] ∧ e.2 ∉ cm.map Prod.snd ∧ 1 ≤ e.2.length ∧ e.2.length ≤ 255 := by
  have hnodup : (cm.map Prod.snd ++ [e.2]).Nodup ↔ e.2 ∉ cm.map Prod.snd ∧ (cm.map Prod.snd).Nodup := by
    rw [← List.concat_eq_append, List.nodup_concat]
  simp only [TableFits, SymbolsFit, List.map_append, List.map_cons, List.map_nil, List.forall_mem_append,
    List.forall_mem_singleton, hnodup]
  tauto

theorem tableFits_of_append {m : Mode} {cm cm' : CodeMap} (h : TableFits m (cm ++ cm')) : TableFits m cm := by
  induction cm' using List.reverseRecOn with
  | nil => simpa using h
  | append_singleton cm' e ih =>
    rw [← List.append_assoc] at h
    exact ih (tableFits_concat.1 h).1

/-! ### One entry -/

/-- R164: the reads of a symbol and of the field `P` after it. -/
theorem readSym_then_readLength {m : Mode} {bs : Bits} {i lim plen : Nat} {y : Symbol} (hy : SymbolsFit m [y])
    (h : symEnc m y ++ bits plen 8 <+: bs.drop i) (hplen : plen ≤ 255) (hlim : i + (symEnc m y).length + 8 ≤ lim) :
    readSym ⟨bs, i⟩ m lim .malformedTable = .ok (y, ⟨bs, i + (symEnc m y).length⟩)
      ∧ readLim ⟨bs, i + (symEnc m y).length⟩ plenW lim .malformedTable
        = .ok (plen, ⟨bs, i + (symEnc m y).length + 8⟩) := by
  obtain ⟨hsym, hP⟩ := append_prefix_drop.1 h
  exact ⟨readSym_symEnc _ hy hsym (by omega), readLim_bits_of_prefix _ hP (Nat.lt_succ_of_le hplen) hlim⟩

theorem readEntry_of_symbol_error {m : Mode} {B : BitBuf} {lim : Nat} {cm : CodeMap} {r : Raise}
    (h : readSym B m lim .malformedTable = .error r) : readEntry B m lim cm = .error r := by
  rw [readEntry, h, error_bind]

theorem readEntry_short_length {m : Mode} {bs : Bits} {i lim : Nat} {y : Symbol} (cm : CodeMap) (hy : SymbolsFit m [y])
    (h : symEnc m y <+: bs.drop i) (hlim : i + (symEnc m y).length ≤ lim) (hshort : lim < i + (symEnc m y).length + 8) :
    readEntry ⟨bs, i⟩ m lim cm = .error ⟨.malformedTable, i + (symEnc m y).length⟩ := by
  have hP : readLim ⟨bs, i + (symEnc m y).length⟩ plenW lim .malformedTable
      = .error ⟨.malformedTable, i + (symEnc m y).length⟩ :=
    readLim_eq_error.2 ⟨by simp only [plenW]; omega, rfl⟩
  simp [readEntry, readSym_symEnc _ hy h hlim, hP]

/-- R166: `P = 0` is rejected with the index of its field. -/
theorem readEntry_zero_length {m : Mode} {bs : Bits} {i lim : Nat} {y : Symbol} (cm : CodeMap) (hy : SymbolsFit m [y])
    (h : symEnc m y ++ bits 0 8 <+: bs.drop i) (hlim : i + (symEnc m y).length + 8 ≤ lim) :
    readEntry ⟨bs, i⟩ m lim cm = .error ⟨.malformedTable, i + (symEnc m y).length⟩ := by
  obtain ⟨hsym, hP⟩ := readSym_then_readLength hy h (by omega) hlim
  simp [readEntry, hsym, hP]

theorem readEntry_short_code {m : Mode} {bs : Bits} {i lim plen : Nat} {y : Symbol} (cm : CodeMap)
    (hy : SymbolsFit m [y]) (h : symEnc m y ++ bits plen 8 <+: bs.drop i) (hplen : plen ≤ 255)
    (hlim : i + (symEnc m y).length + 8 ≤ lim) (hshort : lim < i + (symEnc m y).length + 8 + plen) :
    readEntry ⟨bs, i⟩ m lim cm = .error ⟨.malformedTable, i + (symEnc m y).length + 8⟩ := by
  obtain ⟨hsym, hP⟩ := readSym_then_readLength hy h hplen hlim
  have hcode : readLim ⟨bs, i + (symEnc m y).length + 8⟩ plen lim .malformedTable
      = .error ⟨.malformedTable, i + (symEnc m y).length + 8⟩ :=
    readLim_eq_error.2 ⟨by simp only; omega, rfl⟩
  have hne : plen ≠ 0 := by omega
  simp [readEntry, hsym, hP, hcode, hne]

/-- R167: a whole entry is taken unless its codeword is that of an entry before it. -/
theorem readEntry_entryBits {m : Mode} {bs : Bits} {i lim : Nat} {e : Symbol × Bits} (cm : CodeMap)
    (hy : SymbolsFit m [e.1]) (h : entryBits m e <+: bs.drop i) (hpos : 1 ≤ e.2.length) (hlen : e.2.length ≤ 255)
    (hlim : i + (entryBits m e).length ≤ lim) :
    readEntry ⟨bs, i⟩ m lim cm =
      if e.2 ∈ cm.map Prod.snd then .error ⟨.malformedTable, i + (symEnc m e.1).length + 8⟩
      else .ok (e, ⟨bs, i + (entryBits m e).length⟩) := by
  rw [entryBits_eq] at h
  obtain ⟨hhead, hcw⟩ := append_prefix_drop.1 h
  simp only [entryBits_length, List.length_append, bits_length, ← Nat.add_assoc] at hcw hlim ⊢
  obtain ⟨hsym, hP⟩ := readSym_then_readLength hy hhead hlen (Nat.le_of_add_right_le hlim)
  have hcode := readLim_of_prefix .malformedTable hcw hlim
  have hany : (cm.any fun f => f.2 == e.2) = true ↔ e.2 ∈ cm.map Prod.snd := by simp
  simp only [readEntry, hsym, ok_bind, hP, if_neg (Nat.ne_of_gt hpos), hcode, bits_val, hany]
  rfl

/-! ### The loop -/

theorem tableDesLoop_step {m : Mode} {bs : Bits} {i lim : Nat} {cm : CodeMap} (h : i < lim) :
    tableDesLoop m lim (lim - i) ⟨bs, i⟩ cm =
      (readEntry ⟨bs, i⟩ m lim cm >>= fun r => tableDesLoop m lim (lim - r.2.cur) r.2 (cm ++ [r.1])) := by
  obtain ⟨f, hf⟩ : ∃ f, lim - i = f + 1 := ⟨lim - i - 1, by omega⟩
  rw [hf, tableDesLoop, if_pos h]
  cases hr : readEntry ⟨bs, i⟩ m lim cm with
  | error r => rfl
  | ok r =>
    obtain ⟨-, hcur, -⟩ := readEntry_cur hr
    exact tableDesLoop_fuel m lim _ _ _ _ (by simp only at hcur; omega) le_rfl

/-- R164: the loop at the entries of an acceptable table. -/
theorem tableDesLoop_tableBits {m : Mode} {bs : Bits} {i lim : Nat} {acc cm : CodeMap} (hfit : TableFits m (acc ++ cm))
    (h : tableBits m cm <+: bs.drop i) (hlim : i + (tableBits m cm).length ≤ lim) :
    tableDesLoop m lim (lim - i) ⟨bs, i⟩ acc =
      tableDesLoop m lim (lim - (i + (tableBits m cm).length)) ⟨bs, i + (tableBits m cm).length⟩ (acc ++ cm) := by
  induction cm generalizing i acc with
  | nil => simp [tableBits]
  | cons e cm ih =>
    rw [tableBits_cons] at h hlim ⊢
    rw [List.length_append, ← Nat.add_assoc] at hlim ⊢
    obtain ⟨he, hcm⟩ := append_prefix_drop.1 h
    rw [List.append_cons] at hfit ⊢
    obtain ⟨-, hy, hnew, hpos, hlen⟩ := tableFits_concat.1 (tableFits_of_append hfit)
    have hentry := readEntry_entryBits acc hy he hpos hlen (Nat.le_of_add_right_le hlim)
    rw [if_neg hnew] at hentry
    have hcur : i < lim := by
      obtain ⟨-, hcur, hle⟩ := readEntry_cur hentry
      exact hcur.trans_le hle
    rw [tableDesLoop_step hcur, hentry, ok_bind]
    exact ih hfit hcm hlim

/-- R164: a table fails where the entry after those of an acceptable table fails. -/
theorem tableDes_of_readEntry_error {m : Mode} {bs : Bits} {i lim : Nat} {cm : CodeMap} {r : Raise}
    (hfit : TableFits m cm) (h : tableBits m cm <+: bs.drop i) (hlim : i + (tableBits m cm).length < lim)
    (hr : readEntry ⟨bs, i + (tableBits m cm).length⟩ m lim cm = .error r) : tableDes ⟨bs, i⟩ m lim = .error r := by
  have hloop := tableDesLoop_tableBits (acc := []) hfit h hlim.le
  rw [tableDes, hloop, List.nil_append, tableDesLoop_step hlim, hr, error_bind]

end Sys2Proof.Machine
end

section
/-! PROOF. TBL_DES on a segment that fails, and every segment is a table or fails (43_huffman_table.md R164 to R167). -/
namespace Sys2Proof.Machine
open Sys2Proof.Safety

/-- R164, R166, R167: TableDes reports the field at which a segment fails, wherever the segment stands. -/
theorem tableDes_badTable {m : Mode} {segment bs : Bits} {kind : ErrKind} {pos i : Nat}
    (hbad : BadTable m segment kind pos) (h : segment <+: bs.drop i) :
    tableDes ⟨bs, i⟩ m (i + segment.length) = .error ⟨kind, i + pos⟩ := by
  cases hbad with
  | sentinel cm post hfit hm =>
    subst hm
    obtain ⟨h, -⟩ := append_prefix_drop.1 h
    obtain ⟨hcm, hend⟩ := append_prefix_drop.1 h
    simp only [List.length_append, bits_length, ← Nat.add_assoc]
    exact tableDes_of_readEntry_error hfit hcm (by omega)
      (readEntry_of_symbol_error (readSym_sentinel _ hend (by omega)))
  | shortSymbol cm y tail hfit hy hne hshort =>
    obtain ⟨h, -⟩ := append_prefix_drop.1 h
    obtain ⟨hcm, hchars⟩ := append_prefix_drop.1 h
    have hlen : (y.flatMap fun c => bits c.val 7).length = 7 * y.length := flatMap_chrBits_length y
    have hpos := List.length_pos_iff.2 hne
    simp only [List.length_append, hlen, ← Nat.add_assoc] at hpos ⊢
    exact tableDes_of_readEntry_error hfit hcm (by omega)
      (readEntry_of_symbol_error (readSym_short_chunk _ hy hchars (by omega) (by omega)))
  | shortLength cm y tail hfit hy hshort =>
    obtain ⟨h, -⟩ := append_prefix_drop.1 h
    obtain ⟨hcm, hsym⟩ := append_prefix_drop.1 h
    have := seven_le_symEnc_length hy
    simp only [List.length_append, ← Nat.add_assoc]
    exact tableDes_of_readEntry_error hfit hcm (by omega) (readEntry_short_length cm hy hsym (by omega) (by omega))
  | zeroLength cm y post hfit hy =>
    obtain ⟨h, -⟩ := append_prefix_drop.1 h
    rw [List.append_assoc] at h
    obtain ⟨hcm, hhead⟩ := append_prefix_drop.1 h
    simp only [List.length_append, bits_length, ← Nat.add_assoc]
    exact tableDes_of_readEntry_error hfit hcm (by omega) (readEntry_zero_length cm hy hhead (by omega))
  | shortCode cm y plen tail hfit hy hshort hplen =>
    obtain ⟨h, -⟩ := append_prefix_drop.1 h
    rw [List.append_assoc] at h
    obtain ⟨hcm, hhead⟩ := append_prefix_drop.1 h
    simp only [List.length_append, bits_length, ← Nat.add_assoc]
    exact tableDes_of_readEntry_error hfit hcm (by omega)
      (readEntry_short_code cm hy hhead hplen (by omega) (by omega))
  | repeatedCode cm y e post hfit hy hmem =>
    obtain ⟨h, -⟩ := append_prefix_drop.1 h
    rw [List.append_assoc, List.append_assoc, ← List.append_assoc (symEnc m y)] at h
    obtain ⟨hcm, hentry⟩ := append_prefix_drop.1 h
    have ⟨hpos, hlen⟩ : 1 ≤ e.2.length ∧ e.2.length ≤ 255 := by
      obtain ⟨-, -, hlens⟩ := hfit
      exact hlens e hmem
    simp only [List.length_append, bits_length, ← Nat.add_assoc]
    refine tableDes_of_readEntry_error hfit hcm (by omega) ?_
    have hend := entryBits_length m (y, e.2)
    rw [readEntry_entryBits (e := (y, e.2)) cm hy hentry hpos hlen (by simp only at hend; omega),
      if_pos (List.mem_map_of_mem hmem)]

/-- R164: what follows the entries of an acceptable table starts with one more entry of such a table, or fails there. -/
theorem entry_cases {m : Mode} {cm : CodeMap} (hfit : TableFits m cm) {t : Bits} (ht : t ≠ []) :
    (∃ e post, TableFits m (cm ++ [e]) ∧ t = entryBits m e ++ post)
      ∨ ∃ kind pos, BadTable m (tableBits m cm ++ t) kind pos := by
  obtain ⟨y, t, hy, rfl⟩ | ⟨hm, post, rfl⟩ | ⟨y, tail, hy, hshort, rfl⟩ := symbol_cases m t
  · by_cases hlen : t.length < 8
    · exact .inr ⟨_, _, by simpa using BadTable.shortLength cm y t hfit hy hlen⟩
    obtain ⟨plen, t, hplen, rfl⟩ := exists_bits_append (Nat.not_lt.1 hlen)
    by_cases hzero : plen = 0
    · subst hzero
      exact .inr ⟨_, _, by simpa using BadTable.zeroLength cm y t hfit hy⟩
    by_cases hshort : t.length < plen
    · exact .inr ⟨_, _, by simpa using BadTable.shortCode cm y plen t hfit hy hshort (Nat.le_of_lt_succ hplen)⟩
    obtain ⟨cw, post, rfl, rfl⟩ := exists_append_of_length_le (Nat.not_lt.1 hshort)
    by_cases hrep : cw ∈ cm.map Prod.snd
    · obtain ⟨f, hf, rfl⟩ := List.mem_map.1 hrep
      exact .inr ⟨_, _, by simpa using BadTable.repeatedCode cm y f post hfit hy hf⟩
    · refine .inl ⟨(y, cw), post, tableFits_concat.2 ⟨hfit, hy, hrep, ?_, ?_⟩, ?_⟩
      · exact Nat.pos_of_ne_zero hzero
      · exact Nat.le_of_lt_succ hplen
      · simp [entryBits_eq]
  · refine .inr ?_
    rw [← List.append_assoc]
    exact ⟨_, _, .sentinel cm post hfit hm⟩
  · refine .inr ?_
    rw [← List.append_assoc]
    exact ⟨_, _, .shortSymbol cm y tail hfit hy ht hshort⟩

/-- R164: what follows the entries of an acceptable table completes it to one, or fails. -/
theorem segment_cases {m : Mode} {cm : CodeMap} (hfit : TableFits m cm) (t : Bits) :
    (∃ cm', TableFits m cm' ∧ tableBits m cm ++ t = tableBits m cm')
      ∨ ∃ kind pos, BadTable m (tableBits m cm ++ t) kind pos := by
  induction hn : t.length using Nat.strong_induction_on generalizing cm t with
  | _ n ih =>
    by_cases ht : t = []
    · exact .inl ⟨cm, hfit, by rw [ht, List.append_nil]⟩
    obtain ⟨e, post, hfit', rfl⟩ | hbad := entry_cases hfit ht
    · have hshorter : post.length < n := by
        obtain ⟨-, hy, -⟩ := tableFits_concat.1 hfit'
        have := seven_le_symEnc_length hy
        rw [List.length_append, entryBits_length] at hn
        omega
      rw [← List.append_assoc, ← tableBits_concat]
      exact ih _ hshorter hfit' post rfl
    · exact .inr hbad

/-- Settles O43: the split of a segment follows its entries from the empty table on, and TBL_DES reads the whole segment
from bit 0. -/
theorem tableDesRejectsBadEntries : Obligations.TableDesRejectsBadEntries := by
  refine ⟨fun m segment => segment_cases (tableFits_nil m) segment, fun s kind pos h hbad => ?_⟩
  have hdes := tableDes_badTable (bs := s.bb1.bits) (i := 0) hbad (List.prefix_refl _)
  rw [Nat.zero_add, Nat.zero_add] at hdes
  have hbody : tblDesBody s = .error ⟨kind, pos⟩ := bind_eq_error.2 (.inl hdes)
  exact command_of_error h hbody

end Sys2Proof.Machine
end

section
/-! O45, the widths of the fields (44_rle.md R180, 46_container.md R210): the number of bits of a number is at most `w` just
when the number is below `2 ^ w`, and the largest run length is one of the run list's. -/
namespace Sys2Proof.Machine

/-! ### The number of bits (R9) -/

/-- R9: `bit_length(n)` is the smallest width that holds `n`. -/
theorem bitLength_le_iff {n w : Nat} : bitLength n ≤ w ↔ n < 2 ^ w := by
  rw [bitLength]
  split
  case isTrue h => simp [h]
  case isFalse h => rw [Nat.succ_le_iff, Nat.log2_lt h]

theorem lt_two_pow_bitLength (n : Nat) : n < 2 ^ bitLength n := bitLength_le_iff.1 le_rfl

theorem bitLength_pos {n : Nat} (h : 1 ≤ n) : 1 ≤ bitLength n := by
  by_contra hzero
  have : n < 2 ^ 0 := bitLength_le_iff.1 (by omega)
  omega

theorem two_pow_bitLength_pred_le {n : Nat} (h : 1 ≤ n) : 2 ^ (bitLength n - 1) ≤ n := by
  by_contra hlt
  have hshort : bitLength n ≤ bitLength n - 1 := bitLength_le_iff.2 (Nat.not_le.1 hlt)
  have := bitLength_pos h
  omega

/-! ### The width of the length field (R210) -/

theorem one_le_xOf (L : Nat) : 1 ≤ xOf L := Nat.le_max_left ..

/-- R210: `x` bytes hold `L` just when `XOf(L)` is at most `x`. -/
theorem xOf_le_iff {L x : Nat} (hx : 1 ≤ x) : xOf L ≤ x ↔ L < 2 ^ (8 * x) := by
  rw [← bitLength_le_iff, xOf, xMin]
  omega

/-! ### The largest run (R180) -/

theorem maxRun_concat (rl : RunList) (e : Symbol × Nat) : maxRun (rl ++ [e]) = max (maxRun rl) e.2 := by
  simp [maxRun, List.foldl_append]

theorem le_maxRun {rl : RunList} {f : Symbol × Nat} (hf : f ∈ rl) : f.2 ≤ maxRun rl := by
  induction rl using List.reverseRecOn with
  | nil => simp at hf
  | append_singleton rl e ih =>
    rw [maxRun_concat]
    obtain hf | hf := List.mem_append.1 hf
    · exact le_max_of_le_left (ih hf)
    · rw [List.mem_singleton.1 hf]
      exact le_max_right ..

theorem maxRun_mem {rl : RunList} (h : rl ≠ []) : ∃ e ∈ rl, e.2 = maxRun rl := by
  induction rl using List.reverseRecOn with
  | nil => exact absurd rfl h
  | append_singleton rl e ih =>
    rw [maxRun_concat]
    by_cases hlast : maxRun rl ≤ e.2
    · exact ⟨e, by simp, (max_eq_right hlast).symm⟩
    · have hne : rl ≠ [] := by
        rintro rfl
        exact hlast (Nat.zero_le _)
      obtain ⟨g, hg, hmax⟩ := ih hne
      exact ⟨g, List.mem_append_left _ hg, by rw [hmax, max_eq_left (Nat.le_of_not_le hlast)]⟩

/-- Settles O45, by what bounds `bit_length` and `XOf` and by a run of the largest length. -/
theorem fieldWidthsAreMinimal : Obligations.FieldWidthsAreMinimal := by
  refine ⟨rfl, fun n hn => ⟨two_pow_bitLength_pred_le hn, lt_two_pow_bitLength n⟩, rfl, fun rl h => ?_,
    fun L => ⟨one_le_xOf L, (xOf_le_iff (one_le_xOf L)).1 le_rfl, fun x hx => (xOf_le_iff hx).2⟩⟩
  obtain ⟨e, he, hmax⟩ := maxRun_mem h
  exact ⟨e, he, fun f hf => hmax ▸ le_maxRun hf, by rw [freqWidth, hmax]⟩

end Sys2Proof.Machine
end

section
/-! PROOF. The raw ASCII codec: the text is packed 7 bits per character, and the chunk loop, a turn at a time, reads the
characters back (45_ascii.md R200 to R204). -/
namespace Sys2Proof

theorem decode_ascDec : decode 0x00000039 = .ok .ascDec :=
  decode_cmdWord_opcode (r := ⟨"ASC_DEC", 0x39, .N, fun _ _ => .ascDec⟩)
    (by simp [opcodeTable, codecRows])

end Sys2Proof

namespace Sys2Proof.Machine

/-! ### Packing (R122, R200, R201) -/

theorem validateFrom_map_chrByte (i : Nat) (cs : List Chr) : validateFrom i (cs.map chrByte) = .ok cs := by
  induction cs generalizing i with
  | nil => rfl
  | cons c cs ih => simp [validateFrom, ih]

/-- R122: the bytes of characters are accepted, as those characters. -/
theorem validate_map_chrByte (cs : List Chr) : validate (cs.map chrByte) = .ok cs :=
  validateFrom_map_chrByte 0 cs

/-- R200: the encoding of characters is their 7-bit codes in order. -/
theorem asciiEncode_map_chrByte (cs : List Chr) : asciiEncode (cs.map chrByte) = .ok (cs.flatMap chrBits) := by
  rw [asciiEncode, validate_map_chrByte]
  rfl

/-- R201: a valid text that fits is packed, and no other element changes. -/
theorem exec_ascEnc_of_fits {s : State} {cs : List Chr} (h : s.err = none) (htxt : s.txt = cs.map chrByte)
    (hfits : 7 * cs.length ≤ s.cfg.bbCap.val) :
    exec .ascEnc s = .next { s with bb0 := ⟨cs.flatMap chrBits, 0⟩, done := true } := by
  have hout : asciiEncode s.txt = .ok (cs.flatMap chrBits) := by rw [htxt, asciiEncode_map_chrByte]
  have hcap : checkCapacity s.cfg.bbCap.val (cs.flatMap chrBits).length = .ok () :=
    checkCapacity_eq_ok.2 (by rwa [flatMap_chrBits_length])
  have hbody : ascEncBody s = .ok { s with bb0 := ⟨cs.flatMap chrBits, 0⟩ } := by
    rw [ascEncBody, hout, ok_bind, hcap]
    rfl
  exact command_of_ok h hbody

/-! ### The chunk loop (R202) -/

/-- R202: one turn of the loop, at a character. -/
theorem readChars_chrBits {bs : Bits} {i : Nat} {c : Chr} (acc : List Chr) (h : chrBits c <+: bs.drop i) :
    readChars (bs.length - i) ⟨bs, i⟩ acc = readChars (bs.length - (i + 7)) ⟨bs, i + 7⟩ (acc ++ [c]) := by
  have hlen : 7 ≤ bs.length - i := by simpa using h.length_le
  have hlim : i + 7 ≤ bs.length := by omega
  have hread : readBits ⟨bs, i⟩ charW = .ok (c.val, ⟨bs, i + 7⟩) := readLim_chrBits _ h hlim
  obtain ⟨f, hf⟩ : ∃ f, bs.length - i = f + 1 := ⟨bs.length - i - 1, by omega⟩
  rw [hf, readChars, if_pos (show i < bs.length by omega), hread]
  simp only [ok_bind, chr?_val]
  exact readChars_fuel _ _ _ _ (by simp only; omega) le_rfl

/-- R202: the loop at consecutive characters. -/
theorem readChars_flatMap_chrBits {bs : Bits} {i : Nat} {cs : List Chr} (acc : List Chr)
    (h : cs.flatMap chrBits <+: bs.drop i) :
    readChars (bs.length - i) ⟨bs, i⟩ acc =
      readChars (bs.length - (i + 7 * cs.length)) ⟨bs, i + 7 * cs.length⟩ (acc ++ cs) := by
  induction cs generalizing i acc with
  | nil => simp
  | cons c cs ih =>
    obtain ⟨hc, hcs⟩ := append_prefix_drop.1 h
    rw [chrBits_length] at hcs
    rw [readChars_chrBits acc hc, ih (acc ++ [c]) hcs, List.append_assoc, List.singleton_append, List.length_cons,
      Nat.mul_succ, Nat.add_comm (7 * cs.length), Nat.add_assoc]

/-- R204: `AsciiDec` inverts the packing. -/
theorem asciiDecode_flatMap_chrBits (cs : List Chr) : asciiDecode ⟨cs.flatMap chrBits, 0⟩ = .ok cs := by
  have hwhole : (cs.flatMap chrBits).length % charW = 0 := by
    rw [flatMap_chrBits_length, charW, Nat.mul_mod_right]
  have hend : (cs.flatMap chrBits).length - (0 + 7 * cs.length) = 0 := by
    rw [flatMap_chrBits_length, Nat.zero_add, Nat.sub_self]
  rw [asciiDecode, if_neg (not_not.2 hwhole), remaining, readChars_flatMap_chrBits [] (List.prefix_refl _), hend]
  rfl

/-- R203: a buffer of 7-bit characters within TXT_CAP is decoded whole, whatever its cursor. -/
theorem exec_ascDec_of_chars {s : State} {cs : List Chr} (h : s.err = none) (hbits : s.bb0.bits = cs.flatMap chrBits)
    (hfits : cs.length ≤ s.cfg.txtCap.val) :
    exec .ascDec s = .next
      { s with txt := cs.map chrByte, bb0 := ⟨s.bb0.bits, s.bb0.bits.length⟩, done := true } := by
  have hcount : s.bb0.bits.length / charW = cs.length := by
    rw [hbits, flatMap_chrBits_length, charW, Nat.mul_div_cancel_left _ (by decide)]
  have hchars : asciiDecode ⟨s.bb0.bits, 0⟩ = .ok cs := by rw [hbits, asciiDecode_flatMap_chrBits]
  have hbody : ascDecBody s = .ok
      { s with txt := cs.map chrByte, bb0 := ⟨s.bb0.bits, s.bb0.bits.length⟩ } := by
    rw [ascDecBody, if_neg (fun hover => by omega), hchars]
    rfl
  exact command_of_ok h hbody

/-- Settles O51: packing leaves a buffer of exactly the text's characters, which the chunk loop reads back; neither command
looks at MODE. -/
theorem asciiRoundTrip : Obligations.AsciiRoundTrip :=
  ⟨decode_ascDec, fun _ _ => exec_ascDec_of_chars, fun _ cs h htxt htxtCap hbbCap =>
    ⟨_, _, exec_ascEnc_of_fits h htxt hbbCap, exec_ascDec_of_chars (cs := cs) h rfl htxtCap, htxt.symm, rfl, h⟩⟩

end Sys2Proof.Machine
end

section
/-! PROOF. NOP: the command whose body is the state itself (47_system.md R230). -/
namespace Sys2Proof

theorem decode_nop : decode 0x00000000 = .ok .nop :=
  decode_cmdWord_opcode (r := ⟨"NOP", 0x00, .N, fun _ _ => .nop⟩)
    (by simp [opcodeTable, bitBufferRows])

end Sys2Proof

namespace Sys2Proof.Machine

/-- R230, R243: NOP completes in every state without an error, and DONE is all that changes. -/
theorem exec_nop {s : State} (h : s.err = none) : exec .nop s = .next { s with done := true } :=
  command_of_ok h rfl

/-- Settles O11, by NOP's row of the opcode table and by the completion of a command that cannot raise. -/
theorem nopSetsOnlyDone : Obligations.NopSetsOnlyDone :=
  ⟨decode_nop, fun _ => exec_nop⟩

end Sys2Proof.Machine
end

section
/-! PROOF. Every command completes or has no effect but its error (60_exceptions.md R243, R244). -/
namespace Sys2Proof.Machine
open Sys2Proof.Safety

/-! ### The commands' pseudocode -/

/-- R124: when TOKENIZE's pseudocode reaches its end, and what it leaves. -/
theorem tokenizeBody_eq_ok {s u : State} :
    tokenizeBody s = .ok u ↔ ∃ t, validate s.txt = .ok t ∧ u = { s with syms := tokenize s.mode t } := by
  simp [tokenizeBody, bind_eq_ok, eq_comm (b := u)]

/-- R165: when TBL_DES's pseudocode reaches its end, and what it leaves. -/
theorem tblDesBody_eq_ok {s u : State} :
    tblDesBody s = .ok u ↔ ∃ cm B, tableDes ⟨s.bb1.bits, 0⟩ s.mode s.bb1.bits.length = .ok (cm, B)
      ∧ u = { s with cm := cm, bb1 := ⟨s.bb1.bits, s.bb1.bits.length⟩ } := by
  simp [tblDesBody, bind_eq_ok, eq_comm (b := u)]

/-- R182: when RLE_ENC's pseudocode reaches its end, and what it leaves. -/
theorem rleEncBody_eq_ok {s u : State} :
    rleEncBody s = .ok u ↔ ∃ r, rleEncode s.mode s.txt = .ok r ∧ r.out.length ≤ s.cfg.bbCap.val
      ∧ u = { s with syms := r.syms, rl := r.rl, bb0 := ⟨r.out, 0⟩ } := by
  simp [rleEncBody, bind_eq_ok, checkCapacity_eq_ok, eq_comm (b := u)]

/-- R184: when RLE_DEC's pseudocode reaches its end, and what it leaves. -/
theorem rleDecBody_eq_ok {s u : State} :
    rleDecBody s = .ok u ↔ ∃ r, rleDecode s.cfg.txtCap.val ⟨s.bb0.bits, 0⟩ = .ok r
      ∧ u = { s with mode := r.mode, rl := r.rl, syms := r.syms, txt := r.txt, ft := [], cm := [],
                     bb0 := ⟨s.bb0.bits, s.bb0.bits.length⟩ } := by
  simp [rleDecBody, bind_eq_ok, eq_comm (b := u)]

/-- R201: when ASC_ENC's pseudocode reaches its end, and what it leaves. -/
theorem ascEncBody_eq_ok {s u : State} :
    ascEncBody s = .ok u ↔ ∃ out, asciiEncode s.txt = .ok out ∧ out.length ≤ s.cfg.bbCap.val
      ∧ u = { s with bb0 := ⟨out, 0⟩ } := by
  simp [ascEncBody, bind_eq_ok, checkCapacity_eq_ok, eq_comm (b := u)]

/-- R203: when ASC_DEC's pseudocode reaches its end, and what it leaves. -/
theorem ascDecBody_eq_ok {s u : State} :
    ascDecBody s = .ok u ↔ ¬(s.bb0.bits.length % charW = 0 ∧ s.cfg.txtCap.val < s.bb0.bits.length / charW)
      ∧ ∃ t, asciiDecode ⟨s.bb0.bits, 0⟩ = .ok t
        ∧ u = { s with txt := t.map chrByte, bb0 := ⟨s.bb0.bits, s.bb0.bits.length⟩ } := by
  by_cases hover : s.bb0.bits.length % charW = 0 ∧ s.cfg.txtCap.val < s.bb0.bits.length / charW
  · simp [ascDecBody, hover]
  · simp [ascDecBody, hover, bind_eq_ok, eq_comm (b := u)]

/-- R212: when HUF_ENC's pseudocode reaches its end, and what it leaves. -/
theorem hufEncBody_eq_ok {s u : State} :
    hufEncBody s = .ok u ↔ ∃ r, huffEncode s.cfg s.mode s.txt = .ok r ∧ r.out.length ≤ s.cfg.bbCap.val
      ∧ u = { s with syms := r.syms, ft := r.ft, cm := r.cm, degen := degenOf r.ft, bb1 := ⟨r.seg, 0⟩,
                     bb0 := ⟨r.out, 0⟩ } := by
  simp [hufEncBody, bind_eq_ok, checkCapacity_eq_ok, eq_comm (b := u)]

/-- R215: when HUF_DEC's pseudocode reaches its end, and what it leaves. -/
theorem hufDecBody_eq_ok {s u : State} :
    hufDecBody s = .ok u ↔ ∃ r, huffDecode s.cfg.txtCap.val ⟨s.bb0.bits, 0⟩ = .ok r
      ∧ u = { s with mode := r.mode, bb1 := ⟨r.seg, 0⟩, cm := r.cm, syms := r.syms, txt := r.txt, ft := [], rl := [],
                     bb0 := ⟨s.bb0.bits, s.bb0.bits.length⟩ } := by
  simp [hufDecBody, bind_eq_ok, eq_comm (b := u)]

/-! ### Every command is its pseudocode under the envelope (R243) -/

/-- The pseudocode that the envelope of a command runs. -/
def pseudocode : Instr → State → Result State
  | .nop => .ok
  | .bbClear b => fun s => .ok (s.setBB b BitBuf.empty)
  | .bbAppend b width => bbAppendBody b width
  | .bbAppendl b => bbAppendlBody b
  | .bbRead b count => bbReadBody b count
  | .bbRewind b => fun s => .ok (s.setBB b { s.bb b with cur := 0 })
  | .txtClear => fun s => .ok { s with txt := [] }
  | .txtPut v => txtPutBody v
  | .tokenize => tokenizeBody
  | .freq => fun s => .ok { s with ft := freqTable s.syms }
  | .runs => fun s => .ok { s with rl := runsOf s.syms }
  | .detok => detokBody
  | .huffBuild => fun s => .ok { s with cm := huffBuild s.cfg s.ft, degen := degenOf s.ft }
  | .tblSer => tblSerBody
  | .tblDes => tblDesBody
  | .rleEnc => rleEncBody
  | .rleDec => rleDecBody
  | .ascEnc => ascEncBody
  | .ascDec => ascDecBody
  | .hufEnc => hufEncBody
  | .hufDec => hufDecBody

theorem exec_eq_command (i : Instr) (s : State) : exec i s = command (pseudocode i) s := by
  cases i <;> rfl

/-! ### The error registers (R243, R244) -/

/-- ERR and ERRINFO of `u` are those of `s`. -/
def SameErrorRegs (s u : State) : Prop := u.err = s.err ∧ u.errInfo = s.errInfo

theorem SameErrorRegs.setBB (b : BufSel) (B : BitBuf) (s : State) : SameErrorRegs s (s.setBB b B) :=
  ⟨State.setBB_err b B s, State.setBB_errInfo b B s⟩

/-- R243: ERR and ERRINFO are the envelope's; no command's pseudocode writes them. -/
theorem pseudocode_keeps_errorRegs {i : Instr} {s u : State} (hu : pseudocode i s = .ok u) : SameErrorRegs s u := by
  cases i
  case nop | txtClear | freq | runs | huffBuild =>
    cases hu
    exact ⟨rfl, rfl⟩
  case bbClear b | bbRewind b =>
    cases hu
    exact .setBB b _ s
  case bbAppend b width =>
    obtain ⟨B, -, rfl⟩ := bbAppendBody_eq_ok.1 hu
    exact .setBB b B s
  case bbAppendl b =>
    obtain ⟨B, -, rfl⟩ := bbAppendlBody_eq_ok.1 hu
    exact .setBB b B s
  case bbRead b count =>
    obtain ⟨v, B, -, rfl⟩ := bbReadBody_eq_ok.1 hu
    exact .setBB b B s
  case txtPut v =>
    obtain ⟨-, rfl⟩ := txtPutBody_eq_ok.1 hu
    exact ⟨rfl, rfl⟩
  case tokenize =>
    obtain ⟨t, -, rfl⟩ := tokenizeBody_eq_ok.1 hu
    exact ⟨rfl, rfl⟩
  case detok =>
    obtain ⟨-, rfl⟩ := detokBody_eq_ok.1 hu
    exact ⟨rfl, rfl⟩
  case tblSer =>
    obtain ⟨seg, -, -, rfl⟩ := tblSerBody_eq_ok.1 hu
    exact ⟨rfl, rfl⟩
  case tblDes =>
    obtain ⟨cm, B, -, rfl⟩ := tblDesBody_eq_ok.1 hu
    exact ⟨rfl, rfl⟩
  case rleEnc =>
    obtain ⟨r, -, -, rfl⟩ := rleEncBody_eq_ok.1 hu
    exact ⟨rfl, rfl⟩
  case rleDec =>
    obtain ⟨r, -, rfl⟩ := rleDecBody_eq_ok.1 hu
    exact ⟨rfl, rfl⟩
  case ascEnc =>
    obtain ⟨out, -, -, rfl⟩ := ascEncBody_eq_ok.1 hu
    exact ⟨rfl, rfl⟩
  case ascDec =>
    obtain ⟨-, t, -, rfl⟩ := ascDecBody_eq_ok.1 hu
    exact ⟨rfl, rfl⟩
  case hufEnc =>
    obtain ⟨r, -, -, rfl⟩ := hufEncBody_eq_ok.1 hu
    exact ⟨rfl, rfl⟩
  case hufDec =>
    obtain ⟨r, -, rfl⟩ := hufDecBody_eq_ok.1 hu
    exact ⟨rfl, rfl⟩

/-- R243, R244: pseudocode that writes neither error register completes, or its effect is discarded. -/
theorem command_completes_or_fails {body : State → Result State} {s : State} (h : s.err = none)
    (hbody : ∀ u, body s = .ok u → SameErrorRegs s u) :
    (∃ t, command body s = .next t ∧ t.err = none ∧ t.errInfo = s.errInfo ∧ t.done = true)
      ∨ ∃ kind info, command body s = .next (failed s kind info) := by
  cases hb : body s with
  | ok u =>
    obtain ⟨herr, hinfo⟩ := hbody u hb
    exact .inl ⟨complete u, command_of_ok h hb, herr.trans h, hinfo, rfl⟩
  | error r => exact .inr ⟨r.kind, r.info, command_of_error h hb⟩

/-- Settles O7: no command's pseudocode writes an error register, so the envelope alone decides between completion and
the state before the command with the error recorded. -/
theorem failingCommandHasNoPartialEffect : Obligations.FailingCommandHasNoPartialEffect := by
  intro i s h
  rw [exec_eq_command]
  exact command_completes_or_fails h fun _ => pseudocode_keeps_errorRegs

end Sys2Proof.Machine
end

section
/-! PROOF. The decoder and the encoder are inverse to each other, and which words are illegal (30_encoding.md R80 to
R84). -/
namespace Sys2Proof
open Sys2Proof.Safety

/-! ### A word by its fields (R80) -/

/-- R80: the field `b` as a bit. -/
def selBitOf (c : Word) : BitVec 1 := c.extractLsb' 16 1

/-- R80: the field `rsv`. -/
def rsvOf (c : Word) : BitVec 15 := c.extractLsb' 17 15

theorem opOf_toNat (c : Word) : (opOf c).toNat = c.toNat % 256 := by
  simp [opOf, BitVec.extractLsb'_toNat]

theorem imm8Of_toNat (c : Word) : (imm8Of c).toNat = c.toNat / 256 % 256 := by
  simp [imm8Of, BitVec.extractLsb'_toNat, Nat.shiftRight_eq_div_pow]

theorem selBitOf_toNat (c : Word) : (selBitOf c).toNat = c.toNat / 65536 % 2 := by
  simp [selBitOf, BitVec.extractLsb'_toNat, Nat.shiftRight_eq_div_pow]

theorem rsvOf_toNat (c : Word) : (rsvOf c).toNat = c.toNat / 131072 := by
  have := c.isLt
  rw [rsvOf, BitVec.extractLsb'_toNat, Nat.shiftRight_eq_div_pow]
  omega

theorem bit_selOf (c : Word) : (selOf c).bit = selBitOf c := by
  have hbit : selBitOf c = BitVec.ofBool (c.getLsbD 16) := by
    ext j hj
    obtain rfl : j = 0 := by omega
    simp [selBitOf]
  rw [hbit, selOf]
  cases c.getLsbD 16 <;> rfl

theorem word_eq_append (c : Word) : c = rsvOf c ++ selBitOf c ++ imm8Of c ++ opOf c := by
  have hhigh : rsvOf c ++ selBitOf c = c.extractLsb' 16 16 := BitVec.extractLsb'_append_extractLsb'_eq_extractLsb' rfl
  apply BitVec.eq_of_toNat_eq
  rw [toNat_append_byte, toNat_append_byte, hhigh, imm8Of_toNat, opOf_toNat, BitVec.extractLsb'_toNat,
    Nat.shiftRight_eq_div_pow]
  have := c.isLt
  omega

theorem append_inj {m n : Nat} {x x' : BitVec m} {y y' : BitVec n} : x ++ y = x' ++ y' ↔ x = x' ∧ y = y' := by
  constructor
  · intro h
    have hx := congrArg (BitVec.extractLsb' n m) h
    have hy := congrArg (BitVec.extractLsb' 0 n) h
    rw [BitVec.extractLsb'_append_eq_left, BitVec.extractLsb'_append_eq_left] at hx
    rw [BitVec.extractLsb'_append_eq_right, BitVec.extractLsb'_append_eq_right] at hy
    exact ⟨hx, hy⟩
  · rintro ⟨rfl, rfl⟩
    rfl

/-- R81: a word selects a row exactly when it has the row's opcode and holds at 0 `rsv` and every field the row's format
does not use. -/
theorem Row.selects_iff (r : Row) (c : Word) :
    r.selects c = true ↔ rsvOf c = 0 ∧ selBitOf c &&& r.format.selMask = 0
      ∧ imm8Of c &&& r.format.immMask = 0 ∧ opOf c = r.op := by
  have happ : c &&& r.format.mask
      = rsvOf c ++ (selBitOf c &&& r.format.selMask) ++ (imm8Of c &&& r.format.immMask) ++ opOf c := by
    nth_rw 1 [word_eq_append c]
    rw [Format.mask_eq_append, BitVec.and_append, BitVec.and_append, BitVec.and_append,
      show rsvOf c &&& 0x7FFF = rsvOf c from BitVec.and_allOnes, show opOf c &&& 0xFF = opOf c from BitVec.and_allOnes]
  rw [Row.selects, beq_iff_eq, happ, Row.pattern_eq_append]
  rw [append_inj, append_inj, append_inj, and_assoc, and_assoc]

/-! ### Encode, then decode -/

/-- R83: the row of a command, by its place in the table. -/
def Instr.rowIndex : Instr → Fin 21
  | .nop => 0
  | .bbClear _ => 1
  | .bbAppend _ _ => 2
  | .bbAppendl _ => 3
  | .bbRead _ _ => 4
  | .bbRewind _ => 5
  | .txtClear => 6
  | .txtPut _ => 7
  | .tokenize => 8
  | .freq => 9
  | .runs => 10
  | .detok => 11
  | .huffBuild => 12
  | .tblSer => 13
  | .tblDes => 14
  | .rleEnc => 15
  | .rleDec => 16
  | .ascEnc => 17
  | .ascDec => 18
  | .hufEnc => 19
  | .hufDec => 20

def Instr.row (i : Instr) : Row := opcodeTable[i.rowIndex]

/-- R82: the buffer a command names, BB[0] where its format does not use `b`. -/
def Instr.sel : Instr → BufSel
  | .bbClear b | .bbAppend b _ | .bbAppendl b | .bbRead b _ | .bbRewind b => b
  | .nop | .txtClear | .txtPut _ | .tokenize | .freq | .runs | .detok
  | .huffBuild | .tblSer | .tblDes | .rleEnc | .rleDec | .ascEnc | .ascDec | .hufEnc | .hufDec => .b0

theorem Instr.row_mem (i : Instr) : i.row ∈ opcodeTable := List.getElem_mem _

theorem Instr.row_op (i : Instr) : i.row.op = i.opcode := by cases i <;> rfl

theorem Instr.sel_bit (i : Instr) : i.sel.bit = i.selBit := by cases i <;> rfl

theorem Instr.sel_masked (i : Instr) : i.sel.bit &&& i.row.format.selMask = 0 := by
  cases i with
  | bbClear b | bbAppend b _ | bbAppendl b | bbRead b _ | bbRewind b => exact BitVec.and_zero
  | _ => exact BitVec.zero_and

theorem Instr.imm8_masked (i : Instr) : i.imm8 &&& i.row.format.immMask = 0 := by
  cases i with
  | bbAppend | bbRead | txtPut => exact BitVec.and_zero
  | _ => exact BitVec.zero_and

theorem toNat_ofNat_of_le_255 {n : Nat} (hn : n ≤ 255) : (BitVec.ofNat 8 n).toNat = n := by
  rw [BitVec.toNat_ofNat]
  omega

theorem Instr.row_build {i : Instr} (h : i.WellFormed) : i.row.build i.sel i.imm8 = i := by
  cases i with
  | bbAppend b n => exact congrArg (Instr.bbAppend b) (toNat_ofNat_of_le_255 (of_decide_eq_true h))
  | bbRead b n => exact congrArg (Instr.bbRead b) (toNat_ofNat_of_le_255 (of_decide_eq_true h))
  | _ => rfl

theorem encode_eq_cmdWord (i : Instr) : encode i = cmdWord i.opcode.toNat i.imm8.toNat (selNat i.sel) := by
  rw [cmdWord_eq_append, Instr.sel_bit, encode]

theorem decode_encode {i : Instr} (h : i.WellFormed) : decode (encode i) = .ok i := by
  have hrow := decode_cmdWord i.row_mem i.sel_masked i.imm8_masked
  rwa [Instr.row_op, ← encode_eq_cmdWord, Instr.row_build h] at hrow

/-- Settles O2: the word of a command selects the command's row, which builds the command from the word's fields. -/
theorem decodeInvertsEncode : Obligations.DecodeInvertsEncode := fun _ => decode_encode

/-- Settles O1: the words are those of the commands. -/
theorem sampleWordsDecode : Obligations.SampleWordsDecode :=
  ⟨decode_encode (i := .nop) rfl, decode_encode (i := .bbAppend .b1 255) rfl, decode_encode (i := .bbRead .b0 8) rfl,
    decode_encode (i := .bbAppendl .b1) rfl, decode_encode (i := .txtPut 0x61) rfl, decode_encode (i := .huffBuild) rfl,
    decode_encode (i := .tblDes) rfl, decode_encode (i := .rleDec) rfl, decode_encode (i := .ascEnc) rfl,
    decode_encode (i := .hufDec) rfl⟩

/-! ### Decode, then encode -/

/-- R81, R83: the one row a word can select is that of its opcode. -/
theorem Row.eq_of_selects {r r' : Row} {c : Word} (hr : r ∈ opcodeTable) (hr' : r' ∈ opcodeTable)
    (hop : opOf c = r.op)
    (hsel : r'.selects c = true) : r' = r := by
  obtain ⟨-, -, -, hop'⟩ := (Row.selects_iff r' c).1 hsel
  exact row_eq_of_op_eq hr' hr (hop'.symm.trans hop)

theorem decode_eq_ok_iff {c : Word} {i : Instr} :
    decode c = .ok i ↔ ∃ r ∈ opcodeTable, r.selects c = true ∧ r.build (selOf c) (imm8Of c) = i := by
  rw [decode]
  constructor
  · intro h
    split at h
    next r hfind =>
      exact ⟨r, List.mem_of_find?_eq_some hfind, List.find?_some (p := fun r : Row => r.selects c) hfind,
        Except.ok.inj h⟩
    next => split at h <;> cases h
  · rintro ⟨r, hr, hsel, rfl⟩
    obtain ⟨r', hfind⟩ : ∃ r', opcodeTable.find? (fun r => r.selects c) = some r' :=
      Option.isSome_iff_exists.1 (List.find?_isSome.2 ⟨r, hr, hsel⟩)
    obtain ⟨-, -, -, hop⟩ := (Row.selects_iff r c).1 hsel
    rw [hfind, Row.eq_of_selects hr (List.mem_of_find?_eq_some hfind) hop
      (List.find?_some (p := fun r : Row => r.selects c) hfind)]

/-- R82: a row's command holds the fields that the row's format uses. -/
theorem Row.build_fields {r : Row} (hr : r ∈ opcodeTable) (b : BufSel) (imm : BitVec 8) :
    (r.build b imm).WellFormed ∧ (r.build b imm).opcode = r.op
      ∧ (r.build b imm).imm8 = imm &&& ~~~r.format.immMask
      ∧ (r.build b imm).selBit = b.bit &&& ~~~r.format.selMask := by
  have hwidth : imm.toNat ≤ hostW := Nat.le_of_lt_succ imm.isLt
  have himm : imm &&& 255#8 = imm := BitVec.and_allOnes
  have hb : b.bit &&& 1#1 = b.bit := BitVec.and_allOnes
  fin_cases hr <;>
    simp [Instr.WellFormed, Instr.wellFormed, Instr.opcode, Instr.imm8, Instr.selBit, Format.immMask, Format.selMask,
      hwidth, himm, hb]

theorem and_not_of_and_eq_zero {n : Nat} {x m : BitVec n} (h : x &&& m = 0) : x &&& ~~~m = x := by
  have hsplit : x &&& ~~~m ||| x &&& m = x := by rw [← BitVec.and_or_distrib_left]; simp
  rwa [h, BitVec.ofNat_eq_ofNat, BitVec.or_zero] at hsplit

/-- Settles O3: the row a word selects leaves no field of the word out. -/
theorem legalWordIsItsCommandsEncoding : Obligations.LegalWordIsItsCommandsEncoding := by
  intro c i h
  obtain ⟨r, hr, hsel, rfl⟩ := decode_eq_ok_iff.1 h
  obtain ⟨hrsv, hb, himm, hop⟩ := (Row.selects_iff r c).1 hsel
  obtain ⟨hwf, hopcode, himm8, hselBit⟩ := Row.build_fields hr (selOf c) (imm8Of c)
  refine ⟨hwf, ?_⟩
  rw [encode, hopcode, himm8, hselBit, bit_selOf, and_not_of_and_eq_zero hb, and_not_of_and_eq_zero himm, ← hop, ← hrsv]
  exact (word_eq_append c).symm

/-! ### Illegal words (R84) -/

theorem decode_eq_error_iff {c : Word} : (∃ e, decode c = .error e) ↔ ∀ r ∈ opcodeTable, ¬r.selects c = true := by
  constructor
  · rintro ⟨e, he⟩ r hr hsel
    rw [decode_eq_ok_iff.2 ⟨r, hr, hsel, rfl⟩] at he
    cases he
  · intro h
    cases hd : decode c with
    | error e => exact ⟨e, rfl⟩
    | ok i =>
      obtain ⟨r, hr, hsel, -⟩ := decode_eq_ok_iff.1 hd
      exact absurd hsel (h r hr)

/-- R81: whether a format uses `imm8`, and whether it uses `b`. -/
def Format.uses : Format → Bool × Bool
  | .N => (false, false)
  | .I => (true, false)
  | .B => (false, true)
  | .BI => (true, true)

theorem Format.masks_eq_zero_iff (f : Format) (imm : BitVec 8) (sel : BitVec 1) :
    (sel &&& f.selMask = 0 ∧ imm &&& f.immMask = 0) ↔
      (f.uses.1 = true ∨ imm = 0) ∧ (f.uses.2 = true ∨ sel = 0) := by
  have himm : imm &&& 255#8 = imm := BitVec.and_allOnes
  have hsel : sel &&& 1#1 = sel := BitVec.and_allOnes
  cases f <;> simp [Format.selMask, Format.immMask, Format.uses, himm, hsel, and_comm]

theorem Row.selects_iff_uses (r : Row) (c : Word) :
    r.selects c = true ↔ opOf c = r.op ∧ rsvOf c = 0 ∧ (r.format.uses.1 = true ∨ imm8Of c = 0)
      ∧ (r.format.uses.2 = true ∨ selBitOf c = 0) := by
  rw [Row.selects_iff, ← Format.masks_eq_zero_iff]
  tauto

theorem fieldsUsed_row {r : Row} (hr : r ∈ opcodeTable) : fieldsUsed r.op.toNat = some r.format.uses := by
  fin_cases hr <;> rfl

theorem exists_row_of_fieldsUsed {n : Nat} {u : Bool × Bool} (h : fieldsUsed n = some u) :
    ∃ r ∈ opcodeTable, r.op.toNat = n := by
  have hops : n ∈ opcodeTable.map fun r => r.op.toNat := by
    rw [show (opcodeTable.map fun r => r.op.toNat) = [0x00, 0x01, 0x02, 0x03, 0x04, 0x05, 0x10, 0x11, 0x12, 0x13, 0x14,
      0x15, 0x20, 0x28, 0x29, 0x30, 0x31, 0x38, 0x39, 0x40, 0x41] from rfl]
    simp only [fieldsUsed, List.mem_cons, List.not_mem_nil, or_false] at h ⊢
    split_ifs at h <;> omega
  exact List.mem_map.1 hops

theorem illegal_iff (c : Word) : illegal c = true ↔ ∀ r ∈ opcodeTable, ¬r.selects c = true := by
  rw [illegal, ← opOf_toNat, ← imm8Of_toNat, ← selBitOf_toNat, ← rsvOf_toNat]
  cases hu : fieldsUsed (opOf c).toNat with
  | none =>
    simp only [true_iff]
    intro r hr hsel
    obtain ⟨-, -, -, hop⟩ := (Row.selects_iff r c).1 hsel
    rw [hop, fieldsUsed_row hr] at hu
    cases hu
  | some u =>
    obtain ⟨r, hr, hop⟩ := exists_row_of_fieldsUsed hu
    have hop : opOf c = r.op := (BitVec.eq_of_toNat_eq hop).symm
    rw [hop, fieldsUsed_row hr] at hu
    cases hu
    have hone : (∀ r' ∈ opcodeTable, ¬r'.selects c = true) ↔ ¬r.selects c = true :=
      ⟨fun h => h r hr, fun h r' hr' hsel => h (Row.eq_of_selects hr hr' hop hsel ▸ hsel)⟩
    have hzero {n : Nat} (x : BitVec n) : x.toNat = 0 ↔ x = 0 := by simp [BitVec.toNat_eq]
    rw [hone, Row.selects_iff_uses]
    simp only [Bool.or_eq_true, Bool.and_eq_true, Bool.not_eq_true', decide_eq_true_eq, ne_eq, hzero, hop, true_and,
      ← Bool.not_eq_true]
    tauto

end Sys2Proof
end

section
/-! PROOF. Which register an offset of the window names, and what a host write of each does (10_state.md R21 to R34,
20_memory.md R66, R69). -/
namespace Sys2Proof.Machine
open Sys2Proof.Safety

/-! ### The register at an offset (R21) -/

theorem mem_allRegs (r : Reg) : r ∈ allRegs := by
  cases r with
  | bbLen b | bbCur b => cases b <;> simp [allRegs]
  | _ => simp [allRegs]

@[simp] theorem regAt_offset (r : Reg) : regAt r.offset = some r := by
  have hall : ∀ r ∈ allRegs, regAt r.offset = some r := by decide
  exact hall r (mem_allRegs r)

theorem offset_of_regAt {off : Nat} {r : Reg} (h : regAt off = some r) : r.offset = off := by
  simpa using List.find?_some h

theorem regAt_eq_none {off : Nat} (h : ∀ r : Reg, r.offset ≠ off) : regAt off = none := by
  cases hr : regAt off with
  | none => rfl
  | some r => exact absurd (offset_of_regAt hr) (h r)

theorem Reg.offset_lt (r : Reg) : r.offset < 256 ∧ r.offset % 4 = 0 := by
  have hall : ∀ r ∈ allRegs, r.offset < 256 ∧ r.offset % 4 = 0 := by decide
  exact hall r (mem_allRegs r)

/-! ### Writes -/

theorem writeOffset_cmd (v : Word) (s : State) : writeOffset Reg.cmd.offset v s = issue v s := by
  rw [writeOffset, regAt_offset]

theorem writeOffset_reg {r : Reg} (h : r ≠ .cmd) (v : Word) (s : State) :
    writeOffset r.offset v s = .next (writeReg r v s) := by
  rw [writeOffset, regAt_offset]
  cases r
  case cmd => exact absurd rfl h
  all_goals rfl

/-- R278: a step whose event is a host write of a register other than CMD. -/
theorem step_write_reg {s : State} {r : Reg} {v : Word} {rest : List HostEvent} (hr : r ≠ .cmd)
    (hp : s.pending = .write (s.cfg.base + r.offset) v :: rest) :
    step s = .next (writeReg r v { s with pending := rest }) := by
  obtain ⟨hlt, hal⟩ := r.offset_lt
  rw [step_write hlt hal hp, writeOffset_reg hr]

/-- R278, R22: a step whose event is a host write of CMD. -/
theorem step_write_cmd {s : State} {c : Word} {rest : List HostEvent}
    (hp : s.pending = .write (s.cfg.base + 0x00) c :: rest) : step s = issue c { s with pending := rest } := by
  rw [step_write (by decide) (by decide) hp]
  exact writeOffset_cmd c _

/-- R21: a write at an offset that names no register, or one that a write does not change, is ignored. -/
theorem step_write_ignored {s : State} {off : Nat} {v : Word} {rest : List HostEvent} (hlt : off < 256)
    (hal : off % 4 = 0)
    (hp : s.pending = .write (s.cfg.base + off) v :: rest)
    (hro : ∀ r : Reg, r.offset = off → r ≠ .cmd ∧ ∀ t, writeReg r v t = t) :
    step s = .next { s with pending := rest } := by
  cases hr : regAt off with
  | none => rw [step_write hlt hal hp, writeOffset, hr]
  | some r =>
    obtain rfl := offset_of_regAt hr
    obtain ⟨hne, hkeep⟩ := hro r rfl
    rw [step_write_reg hne hp, hkeep]

/-! ### CMD -/

/-- Settles O4: the decoder rejects the words that select no row, and `issue` records the word it rejects. -/
theorem illegalWordsAreRecorded : Obligations.IllegalWordsAreRecorded := by
  refine ⟨fun c => decode_eq_error_iff.trans (illegal_iff c).symm, fun s c rest hp herr hill => ?_⟩
  obtain ⟨e, he⟩ := decode_eq_error_iff.2 ((illegal_iff c).1 hill)
  have hissue : issue c { s with pending := rest }
      = .next (recordError ⟨.illegalCommand, c.toNat⟩ { s with pending := rest }) := by simp [issue, herr, he]
  rw [step_write_cmd hp, hissue, recordError, BitVec.ofNat_toNat, BitVec.setWidth_eq]

theorem exec_of_err {i : Instr} {s : State} (h : s.err ≠ none) : exec i s = .next s := by
  obtain ⟨k, hk⟩ := Option.ne_none_iff_exists'.1 h
  rw [exec_eq_command, command_of_err hk]

theorem issue_of_err {c : Word} {s : State} (h : s.err ≠ none) : issue c s = .next s := by
  obtain ⟨k, hk⟩ := Option.ne_none_iff_exists'.1 h
  simp [issue, hk]

/-- R22, R247: a legal word is its command, also while an error stands. -/
theorem issue_of_decode {c : Word} {i : Instr} (s : State) (h : decode c = .ok i) : issue c s = exec i s := by
  by_cases herr : s.err = none
  · simp [issue, herr, h]
  · rw [issue_of_err herr, exec_of_err herr]

/-- Settles O5: `issue` tests ERR before the word, and `exec` tests it again. -/
theorem stepRunsTheDecodedCommand : Obligations.StepRunsTheDecodedCommand := by
  intro s c rest i hp hdec
  rw [step_write_cmd hp, issue_of_decode _ hdec]

/-- Settles O6: both `issue` and the envelope refuse while an error stands. -/
theorem commandsRefusedWhileErrorStands : Obligations.CommandsRefusedWhileErrorStands :=
  ⟨fun _ _ _ hp herr => (step_write_cmd hp).trans (issue_of_err herr), fun _ _ => exec_of_err⟩

/-! ### The other registers, reset and reads -/

/-- Settles O12: `applyReset` keeps the model's own fields alone. -/
theorem resetGivesTheResetValues : Obligations.ResetGivesTheResetValues := by
  refine ⟨by decide, fun s rest hp => ?_⟩
  rw [step_event hp]
  rfl

/-- Settles O13: a read is an access that appends the value read. -/
theorem hostReadsChangeNothing : Obligations.HostReadsChangeNothing := by
  intro s off rest hp hlt hal
  rw [step_event hp]
  exact access_offset s.cfg off (fun off => .next { s with
    pending := rest, replies := s.replies ++ [readOffset { s with pending := rest } off] }) hlt hal

/-- Settles O16: a write of ERR is `clearError` whatever the value. -/
theorem errorClearChangesOnlyErrAndErrInfo : Obligations.ErrorClearChangesOnlyErrAndErrInfo :=
  fun _ _ _ hp => step_write_reg (r := .err) nofun hp

/-- Settles O17: a write of MODE is `setMode` of bit 0. -/
theorem modeWriteEmptiesTheTables : Obligations.ModeWriteEmptiesTheTables := by
  intro s v rest hp
  have hbit : modeOf (v.getLsbD 0) = if v.toNat % 2 = 1 then .word else .character := by
    simp [modeOf, BitVec.getLsbD, Nat.testBit_zero]
  rw [step_write_reg (r := .mode) nofun hp, writeReg, setMode, hbit]

/-- R21: every register from 0x80 on is a word of TCW. -/
theorem reg_of_offset_ge {r : Reg} (h : 0x80 ≤ r.offset) : ∃ k, r = .tcw k := by
  have hall : ∀ r ∈ allRegs, 0x80 ≤ r.offset → ∃ k, r = .tcw k := by decide
  exact hall r (mem_allRegs r) h

/-- R21: the read-only registers below the words of W, with the reserved offsets there. -/
def ignoredOffsets : List Nat :=
  [0x04, 0x0C, 0x14, 0x1C, 0x20, 0x24, 0x28, 0x2C, 0x3C, 0x40, 0x44, 0x48, 0x4C, 0x50, 0x54, 0x58, 0x5C]

theorem writeReg_of_ignored {r : Reg} (v : Word) (h : r.offset ∈ ignoredOffsets) :
    r ≠ .cmd ∧ ∀ t, writeReg r v t = t := by
  cases r with
  | cmd | err | mode | txtAddr | tsel | tidx | tchi => exact absurd h (by decide)
  | w k =>
    simp only [Reg.offset, ignoredOffsets, List.mem_cons, List.not_mem_nil, or_false] at h
    omega
  | _ => exact ⟨nofun, fun _ => rfl⟩

/-- Settles O19: the selectors store their value, and no other write of these offsets has an effect. -/
theorem selectorAndIgnoredWrites : Obligations.SelectorAndIgnoredWrites := by
  intro s off v rest hp
  refine ⟨?_, ?_, ?_, ?_, fun hoff => ?_, fun hge hlt hal => ?_⟩
  · rintro rfl
    exact step_write_reg (r := .txtAddr) nofun hp
  · rintro rfl
    exact ⟨v.setWidth 2, by simp, step_write_reg (r := .tsel) nofun hp⟩
  · rintro rfl
    exact step_write_reg (r := .tidx) nofun hp
  · rintro rfl
    exact step_write_reg (r := .tchi) nofun hp
  · have hall : ∀ off ∈ ignoredOffsets, off < 256 ∧ off % 4 = 0 := by decide
    obtain ⟨hlt, hal⟩ := hall off hoff
    exact step_write_ignored hlt hal hp fun r hr => writeReg_of_ignored v (hr ▸ hoff)
  · refine step_write_ignored hlt hal hp fun r hr => ?_
    obtain ⟨k, rfl⟩ := reg_of_offset_ge (hr ▸ hge)
    exact ⟨nofun, fun _ => rfl⟩

/-- Settles O20, by the three things an access can do. -/
theorem accessesOutsideTheInterfaceStop : Obligations.AccessesOutsideTheInterfaceStop := by
  intro s addr v rest
  refine ⟨fun hp => by rw [step_event hp]; rfl, fun hp => ?_⟩
  have hstep : ∃ k, step s = access s.cfg.base addr k := by
    rcases hp with hp | hp
    · exact ⟨fun off => .next _, step_event hp⟩
    · exact ⟨fun off => writeOffset off v _, step_event hp⟩
  obtain ⟨k, hk⟩ := hstep
  rw [hk]
  obtain ⟨hout, ha⟩ | ⟨hge, hlt, hmis, ha⟩ | ⟨hge, hlt, hal, ha⟩ := access_cases s.cfg.base addr k
  · exact ⟨fun _ => ha, fun h1 h2 => by omega⟩
  · exact ⟨fun h => by omega, fun _ _ _ => ha⟩
  · exact ⟨fun h => by omega, fun _ _ h => absurd hal h⟩

/-- R31, R32, R35: empty tables meet every invariant. -/
theorem tablesInv_of_empty {s : State} (hsyms : s.syms = []) (hft : s.ft = []) (hcm : s.cm = []) (hrl : s.rl = []) :
    TablesInv s := by
  simp [TablesInv, ModeInv, SymbolsFit, FreqTabInv, CodeMapInv, hsyms, hft, hcm, hrl]

/-- Settles O60: after reset every list is empty and no error stands. -/
theorem resetIsSafe : Obligations.ResetIsSafe :=
  ⟨Memory.wf_reset, ⟨fun _ => rfl, fun h => absurd rfl h⟩, tablesInv_of_empty rfl rfl rfl rfl⟩

end Sys2Proof.Machine
end

section
/-! PROOF. What the registers read, and the words of W (10_state.md R21 to R29, R34). -/
namespace Sys2Proof.Machine
open Sys2Proof.Safety

theorem readOffset_reg (s : State) (r : Reg) : readOffset s r.offset = readReg s r := by
  rw [readOffset, regAt_offset]

theorem readOffset_reserved {s : State} {off : Nat} (h : ∀ r : Reg, r.offset ≠ off) : readOffset s off = 0 := by
  rw [readOffset, regAt_eq_none h]

/-! ### The words of a 256-bit value (R27) -/

theorem wideWord_toNat (w : Wide) (k : Fin 8) : (wideWord w k).toNat = w.toNat / 2 ^ (32 * k.val) % 2 ^ 32 := by
  rw [wideWord, BitVec.extractLsb'_toNat, Nat.shiftRight_eq_div_pow]

theorem wideWord_getLsbD (w : Wide) (k : Fin 8) {j : Nat} (hj : j < 32) :
    (wideWord w k).getLsbD j = w.getLsbD (32 * k.val + j) := by
  simp [wideWord, hj]

theorem wordMask_getLsbD (j : Nat) : (0xFFFFFFFF : Wide).getLsbD j = decide (j < 32) := by
  have hmask : (0xFFFFFFFF : Wide) = (BitVec.allOnes 32).setWidth 256 := rfl
  rw [hmask, BitVec.getLsbD_setWidth, BitVec.getLsbD_allOnes, ← Bool.decide_and]
  exact decide_eq_decide.2 (by omega)

theorem setWideWord_getLsbD (w : Wide) (k : Fin 8) (v : Word) {j : Nat} (hj : j < 256) :
    (setWideWord w k v).getLsbD j =
      if 32 * k.val ≤ j ∧ j < 32 * k.val + 32 then v.getLsbD (j - 32 * k.val) else w.getLsbD j := by
  simp only [setWideWord, BitVec.getLsbD_or, BitVec.getLsbD_and, BitVec.getLsbD_not, BitVec.getLsbD_shiftLeft,
    BitVec.getLsbD_setWidth, wordMask_getLsbD]
  by_cases hlow : j < 32 * k.val
  · simp [hj, hlow]
  · have hge : 32 * k.val ≤ j := Nat.not_lt.1 hlow
    have hwide : j - 32 * k.val < 256 := by omega
    by_cases hin : j < 32 * k.val + 32
    · have hbit : j - 32 * k.val < 32 := by omega
      simp [hj, hlow, hge, hin, hbit, hwide]
    · have hbit : ¬j - 32 * k.val < 32 := by omega
      have hv : v.getLsbD (j - 32 * k.val) = false := BitVec.getLsbD_of_ge v _ (Nat.not_lt.1 hbit)
      simp [hj, hlow, hin, hbit, hv]

/-- R27: a host write of `Wk` sets word `k` and keeps the other seven. -/
theorem wideWord_setWideWord (w : Wide) (j k : Fin 8) (v : Word) :
    wideWord (setWideWord w k v) j = if j = k then v else wideWord w j := by
  apply BitVec.eq_of_getLsbD_eq
  intro i hi
  rw [wideWord_getLsbD _ _ hi, setWideWord_getLsbD _ _ _ (by omega)]
  by_cases hjk : j = k
  · subst hjk
    simp [hi]
  · have hne : j.val ≠ k.val := fun h => hjk (Fin.ext h)
    rw [if_neg (by omega), if_neg hjk, wideWord_getLsbD _ _ hi]

/-- Settles O18, word by word. -/
theorem wideRegisterIsEightWords : Obligations.WideRegisterIsEightWords := by
  intro s k v rest hk hp
  refine ⟨setWideWord s.w ⟨k, hk⟩ v, step_write_reg (r := .w ⟨k, hk⟩) nofun hp, fun j hj => ?_⟩
  have hword := congrArg BitVec.toNat (wideWord_setWideWord s.w ⟨j, hj⟩ ⟨k, hk⟩ v)
  rw [wideWord_toNat, apply_ite BitVec.toNat, wideWord_toNat] at hword
  simpa only [Fin.mk.injEq] using hword

/-! ### The registers outside the table port -/

theorem flags_getLsbD (a b c : Bool) (j : Nat) :
    (BitVec.ofNat 32 (2 * a.toNat + 4 * b.toNat + 8 * c.toNat)).getLsbD j =
      ((decide (j = 1) && a) || (decide (j = 2) && b) || (decide (j = 3) && c)) := by
  match j with
  | 0 | 1 | 2 | 3 => revert a b c; decide
  | j + 4 =>
    have hlt : 2 * a.toNat + 4 * b.toNat + 8 * c.toNat < 2 ^ (j + 4) := by
      have := a.toNat_le
      have := b.toNat_le
      have := c.toNat_le
      have := Nat.one_le_two_pow (n := j)
      rw [pow_add]
      omega
    simp [BitVec.getLsbD_ofNat, Nat.testBit_lt_two_pow hlt]

/-- R23: BUSY is 0, so the flags are the other three. -/
theorem statusWord_eq (s : State) :
    statusWord s = BitVec.ofNat 32 (2 * s.done.toNat + 4 * s.err.isSome.toNat + 8 * s.degen.toNat) := by
  rw [statusWord, busyFlag, errFlag, Bool.toNat_false, Nat.zero_add]

/-- R21: the offsets of the registers. -/
theorem Reg.offset_ranges (r : Reg) : (r.offset ≤ 0x48 ∨ 0x60 ≤ r.offset ∧ r.offset < 0xA0) ∧ r.offset % 4 = 0 := by
  have hall : ∀ r ∈ allRegs, (r.offset ≤ 0x48 ∨ 0x60 ≤ r.offset ∧ r.offset < 0xA0) ∧ r.offset % 4 = 0 := by decide
  exact hall r (mem_allRegs r)

/-- Settles O14: each offset names its register, whose value the read function gives, or none. -/
theorem registersReadTheirState : Obligations.RegistersReadTheirState := by
  intro s
  have hread := readOffset_reg s
  refine ⟨hread .cmd, fun j => ?status, ?err, hread .errInfo, ?mode, hread .txtLen, hread .txtAddr, fun v hv => ?data,
    fun hlen => ?noData, hread (.bbLen .b0), hread (.bbCur .b0), hread (.bbLen .b1), hread (.bbCur .b1), ?tsel,
    hread .tidx, hread .tchi, fun k hk => ?w, fun off hlt hoff => ?reserved⟩
  case status =>
    rw [← flags_getLsbD, ← statusWord_eq]
    exact congrArg (BitVec.getLsbD · j) (hread .status)
  case err =>
    rw [show readOffset s 0x08 = (errCode s).setWidth 32 from hread .err, errCode]
    cases s.err with
    | none => rfl
    | some k => cases k <;> rfl
  case mode =>
    rw [show readOffset s 0x10 = BitVec.ofNat 32 s.mode.bit from hread .mode]
    cases s.mode <;> rfl
  case data =>
    rw [show readOffset s 0x1C = textData s from hread .txtData, textData, textByte, hv]
    simp only [BitVec.toNat_setWidth]
    omega
  case noData =>
    rw [show readOffset s 0x1C = textData s from hread .txtData, textData, textByte, List.getElem?_eq_none hlen]
  case tsel =>
    rw [show readOffset s 0x30 = s.tsel.setWidth 32 from hread .tsel, BitVec.toNat_setWidth]
    omega
  case w =>
    rw [show readOffset s (0x60 + 4 * k) = wideWord s.w ⟨k, hk⟩ from hread (.w ⟨k, hk⟩), wideWord_toNat]
  case reserved =>
    refine readOffset_reserved fun r hr => ?_
    obtain ⟨hrange, hal⟩ := r.offset_ranges
    omega

/-! ### The table port (R34) -/

/-- R34: a table as the port's statement writes it, entry by entry. -/
def PortEntry.fields (p : PortEntry) : Symbol × Nat × Bits := (p.sym, p.value, p.code)

theorem portTable_fields {s : State} {T : List (Symbol × Nat × Bits)}
    (hsyms : s.tsel = 0 → T = s.syms.map fun y => (y, 0, [])) (hft : s.tsel = 1 → T = s.ft.map fun e => (e.1, e.2, []))
    (hcm : s.tsel = 2 → T = s.cm.map fun e => (e.1, e.2.length, e.2))
    (hrl : s.tsel = 3 → T = s.rl.map fun e => (e.1, e.2, [])) : T = (portTable s).map PortEntry.fields := by
  rw [portTable]
  split_ifs with h0 h1 h2
  · rw [hsyms h0, List.map_map]; rfl
  · rw [hft h1, List.map_map]; rfl
  · rw [hcm h2, List.map_map]; rfl
  · have hcases : ∀ sel : BitVec 2, sel ≠ 0 → sel ≠ 1 → sel ≠ 2 → sel = 3 := by decide
    rw [hrl (hcases _ h0 h1 h2), List.map_map]; rfl

/-- R34: `Val(cw) mod 2^256` has the same words as `Val(cw)`. -/
theorem wideWord_ofNat (n : Nat) (k : Fin 8) :
    (wideWord (BitVec.ofNat 256 n) k).toNat = n / 2 ^ (32 * k.val) % 2 ^ 32 := by
  have hsplit : 2 ^ 256 = 2 ^ (32 * k.val) * 2 ^ (256 - 32 * k.val) := by rw [← pow_add]; congr 1; omega
  rw [wideWord_toNat, BitVec.toNat_ofNat, hsplit, Nat.mod_mul_right_div_self,
    Nat.mod_mod_of_dvd _ (pow_dvd_pow 2 (by omega))]

/-- Settles O15: the port reads the entry at TIDX of the table TSEL selects, field by field. -/
theorem tablePortShowsTheSelectedEntry : Obligations.TablePortShowsTheSelectedEntry := by
  intro s T hsyms hft hcm hrl
  obtain rfl := portTable_fields hsyms hft hcm hrl
  have hread := readOffset_reg s
  have hcnt : readOffset s 0x3C = BitVec.ofNat 32 (portCount s) := hread .tcnt
  have hlen : readOffset s 0x40 = BitVec.ofNat 32 (portSymLen s) := hread .tsymLen
  have hch : readOffset s 0x44 = BitVec.ofNat 32 (portSymCh s) := hread .tsymCh
  have hval : readOffset s 0x48 = BitVec.ofNat 32 (portVal s) := hread .tval
  have hcode (k : Nat) (hk : k < 8) : readOffset s (0x80 + 4 * k) = wideWord (portCode s) ⟨k, hk⟩ :=
    hread (.tcw ⟨k, hk⟩)
  refine ⟨by rw [hcnt, portCount, BitVec.toNat_ofNat, List.length_map], fun y n cw hentry => ?_, fun hpast => ?_⟩
  · obtain ⟨p, hp, hfields⟩ : ∃ p, portEntry s = some p ∧ p.fields = (y, n, cw) := by
      simpa [portEntry] using hentry
    obtain ⟨rfl, rfl, rfl⟩ : p.sym = y ∧ p.value = n ∧ p.code = cw := by simpa [PortEntry.fields] using hfields
    refine ⟨?_, fun c hc => ?_, fun hc => ?_, ?_, fun k hk => ?_⟩
    · rw [hlen, portSymLen, hp, BitVec.toNat_ofNat]
    · have := c.isLt
      rw [hch, portSymCh, hp, BitVec.toNat_ofNat]
      simp only [hc]
      omega
    · rw [hch, portSymCh, hp]
      simp only [List.getElem?_eq_none hc]
      rfl
    · rw [hval, portVal, hp, BitVec.toNat_ofNat]
    · rw [hcode k hk, portCode, hp, wideWord_ofNat]
  · have hp : portEntry s = none := List.getElem?_eq_none (by simpa using hpast)
    refine ⟨by rw [hlen, portSymLen, hp]; rfl, by rw [hch, portSymCh, hp]; rfl, by rw [hval, portVal, hp]; rfl,
      fun k hk => ?_⟩
    rw [hcode k hk, portCode, hp]
    simp [wideWord]

end Sys2Proof.Machine
end

section
/-! PROOF. What a command writes (10_state.md R39, 40_bitbuffer.md R110, 41_symbolmodel.md R121). -/
namespace Sys2Proof.Machine
open Sys2Proof.Safety

theorem same_refl (e : Elem) (s : State) : e.same s s := by cases e <;> rfl

theorem same_trans {e : Elem} {s t u : State} (h1 : e.same s t) (h2 : e.same t u) : e.same s u := by
  cases e <;> exact Eq.trans h1 h2

/-- What holds of all elements, one by one. -/
theorem forall_elem_iff {P : Elem → Prop} :
    (∀ e, P e) ↔ (P .mode ∧ P .txt ∧ P (.bits .b0) ∧ P (.bits .b1) ∧ P (.cur .b0) ∧ P (.cur .b1) ∧ P .syms ∧ P .ft
      ∧ P .cm ∧ P .rl ∧ P .w ∧ P .err ∧ P .errInfo ∧ P .done ∧ P .degen ∧ P .txtAddr ∧ P .tsel ∧ P .tidx ∧ P .tchi
      ∧ P .cfg ∧ P .pending ∧ P .replies) := by
  constructor
  · intro h
    simp only [h, and_self]
  · rintro ⟨h1, h2, h3, h4, h5, h6, h7, h8, h9, h10, h11, h12, h13, h14, h15, h16, h17, h18, h19, h20, h21, h22⟩ e
    cases e with
    | bits b | cur b => cases b <;> assumption
    | _ => assumption

/-- R82: replacing a buffer writes its bits and its cursor where they differ, and nothing else. -/
theorem same_setBB {e : Elem} {b : BufSel} {B : BitBuf} (s : State) (hbits : e = .bits b → B.bits = (s.bb b).bits)
    (hcur : e = .cur b → B.cur = (s.bb b).cur) : e.same s (s.setBB b B) := by
  cases e with
  | bits c =>
    by_cases hc : c = b
    · subst hc
      rw [Elem.same, State.setBB_bb, hbits rfl]
    · rw [Elem.same, State.setBB_bb_of_ne hc]
  | cur c =>
    by_cases hc : c = b
    · subst hc
      rw [Elem.same, State.setBB_bb, hcur rfl]
    · rw [Elem.same, State.setBB_bb_of_ne hc]
  | _ => simp [Elem.same]

theorem same_setW {e : Elem} (s : State) (v : Wide) (h : e ≠ .w) : e.same s { s with w := v } := by
  revert e
  simp [forall_elem_iff, Elem.same]

theorem same_complete {e : Elem} (s : State) (h : e ≠ .done) : e.same s (complete s) := by
  revert e
  simp [forall_elem_iff, Elem.same]

theorem same_recordError {e : Elem} (r : Raise) (s : State) (herr : e ≠ .err) (hinfo : e ≠ .errInfo)
    (hdone : e ≠ .done) : e.same s (recordError r s) := by
  revert e
  simp [forall_elem_iff, Elem.same]

/-- R39: no command's pseudocode changes an element outside its row of "Writes on success". -/
theorem pseudocode_frame {i : Instr} {s u : State} (hu : pseudocode i s = .ok u) :
    ∀ e, e ∉ writeSet i → e.same s u := by
  cases i
  case nop | txtClear | freq | runs | huffBuild =>
    cases hu
    simp [forall_elem_iff, writeSet, Elem.same]
  case bbClear b =>
    cases hu
    intro e he
    obtain ⟨hbits, hcur⟩ : e ≠ .bits b ∧ e ≠ .cur b := by simpa [writeSet] using he
    exact same_setBB s (fun h => absurd h hbits) fun h => absurd h hcur
  case bbRewind b =>
    cases hu
    exact fun e he => same_setBB s (fun _ => rfl) fun h => absurd h (List.ne_of_not_mem_cons he)
  case bbAppend b width =>
    obtain ⟨B, hB, rfl⟩ := bbAppendBody_eq_ok.1 hu
    obtain ⟨-, -, rfl⟩ := appendBits_eq_ok.1 hB
    exact fun e he => same_setBB s (fun h => absurd h (List.ne_of_not_mem_cons he)) fun _ => rfl
  case bbAppendl b =>
    obtain ⟨B, hB, rfl⟩ := bbAppendlBody_eq_ok.1 hu
    obtain ⟨-, rfl⟩ := appendLiteral_eq_ok.1 hB
    exact fun e he => same_setBB s (fun h => absurd h (List.ne_of_not_mem_cons he)) fun _ => rfl
  case bbRead b count =>
    obtain ⟨v, B, hB, rfl⟩ := bbReadBody_eq_ok.1 hu
    obtain ⟨-, -, rfl⟩ := readLim_eq_ok.1 hB
    intro e he
    obtain ⟨hcur, hw⟩ : e ≠ .cur b ∧ e ≠ .w := by simpa [writeSet] using he
    have hbb : e.same s (s.setBB b ⟨(s.bb b).bits, (s.bb b).cur + count⟩) :=
      same_setBB s (fun _ => rfl) fun h => absurd h hcur
    exact same_trans hbb (same_setW _ _ hw)
  case txtPut v =>
    obtain ⟨-, rfl⟩ := txtPutBody_eq_ok.1 hu
    simp [forall_elem_iff, writeSet, Elem.same]
  case tokenize =>
    obtain ⟨t, -, rfl⟩ := tokenizeBody_eq_ok.1 hu
    simp [forall_elem_iff, writeSet, Elem.same]
  case detok =>
    obtain ⟨-, rfl⟩ := detokBody_eq_ok.1 hu
    simp [forall_elem_iff, writeSet, Elem.same]
  case tblSer =>
    obtain ⟨seg, -, -, rfl⟩ := tblSerBody_eq_ok.1 hu
    simp [forall_elem_iff, writeSet, Elem.same]
  case tblDes =>
    obtain ⟨cm, B, -, rfl⟩ := tblDesBody_eq_ok.1 hu
    simp [forall_elem_iff, writeSet, Elem.same]
  case rleEnc =>
    obtain ⟨r, -, -, rfl⟩ := rleEncBody_eq_ok.1 hu
    simp [forall_elem_iff, writeSet, Elem.same]
  case rleDec =>
    obtain ⟨r, -, rfl⟩ := rleDecBody_eq_ok.1 hu
    simp [forall_elem_iff, writeSet, Elem.same]
  case ascEnc =>
    obtain ⟨out, -, -, rfl⟩ := ascEncBody_eq_ok.1 hu
    simp [forall_elem_iff, writeSet, Elem.same]
  case ascDec =>
    obtain ⟨-, t, -, rfl⟩ := ascDecBody_eq_ok.1 hu
    simp [forall_elem_iff, writeSet, Elem.same]
  case hufEnc =>
    obtain ⟨r, -, -, rfl⟩ := hufEncBody_eq_ok.1 hu
    simp [forall_elem_iff, writeSet, Elem.same]
  case hufDec =>
    obtain ⟨r, -, rfl⟩ := hufDecBody_eq_ok.1 hu
    simp [forall_elem_iff, writeSet, Elem.same]

/-- Settles O8: the pseudocode keeps what is outside the row, and the envelope writes ERR, ERRINFO and DONE alone. -/
theorem commandsChangeOnlyTheirWriteSet : Obligations.CommandsChangeOnlyTheirWriteSet := by
  intro i s
  rw [exec_eq_command]
  obtain ⟨t, ht⟩ := command_answers (pseudocode i) s
  refine ⟨t, ht, fun e he herr hinfo hdone => ?_⟩
  obtain ⟨-, rfl⟩ | ⟨-, u, hu, rfl⟩ | ⟨-, r, -, rfl⟩ := command_cases ht
  · exact same_refl e t
  · exact same_trans (pseudocode_frame hu e he) (same_complete u hdone)
  · exact same_recordError r s herr hinfo hdone

/-! ### The addresses a store touches (R110, R121) -/

@[simp] theorem complete_bb (s : State) (b : BufSel) : (complete s).bb b = s.bb b := by cases b <;> rfl

@[simp] theorem recordError_bb (r : Raise) (s : State) (b : BufSel) : (recordError r s).bb b = s.bb b := by
  cases b <;> rfl

theorem getElem?_append_outside {α : Type} {l m : List α} {a : Nat} (h : ¬(l.length ≤ a ∧ a < l.length + m.length)) :
    (l ++ m)[a]? = l[a]? := by
  by_cases ha : a < l.length
  · exact List.getElem?_append_left ha
  · rw [List.getElem?_eq_none (by rw [List.length_append]; omega), List.getElem?_eq_none (by omega)]

/-- R110: an append to BB[b] of `m` touches neither the bits outside the new ones nor the other buffer nor the text. -/
theorem append_touches_only {s : State} {b : BufSel} {m : Bits} {c : Nat} (a : Nat) :
    (¬((s.bb b).bits.length ≤ a ∧ a < (s.bb b).bits.length + m.length) →
        bufBit (complete (s.setBB b ⟨(s.bb b).bits ++ m, c⟩)) b a = bufBit s b a)
      ∧ bufBit (complete (s.setBB b ⟨(s.bb b).bits ++ m, c⟩)) (otherBuf b) a = bufBit s (otherBuf b) a
      ∧ textByte (complete (s.setBB b ⟨(s.bb b).bits ++ m, c⟩)) a = textByte s a := by
  simp only [bufBit, textByte, complete_bb, complete_txt, State.setBB_bb, State.setBB_bb_other, State.setBB_txt,
    and_true]
  exact getElem?_append_outside

/-- Settles O9: each storing form appends to one list. -/
theorem storesTouchOnlyTheirAddresses : Obligations.StoresTouchOnlyTheirAddresses := by
  refine ⟨fun b width s t h a => ?_, fun b s t h a => ?_, fun v s t h a => ?_⟩
  · obtain ⟨-, rfl⟩ | ⟨-, u, hu, rfl⟩ | ⟨-, r, -, rfl⟩ := command_cases h
    · exact ⟨fun _ => rfl, rfl, rfl⟩
    · obtain ⟨B, hB, rfl⟩ := bbAppendBody_eq_ok.1 hu
      obtain ⟨-, -, rfl⟩ := appendBits_eq_ok.1 hB
      simpa only [bits_length] using append_touches_only (m := bits s.w.toNat width) a
    · simp [bufBit, textByte]
  · obtain ⟨-, rfl⟩ | ⟨-, u, hu, rfl⟩ | ⟨-, r, -, rfl⟩ := command_cases h
    · exact ⟨fun _ => rfl, rfl, rfl⟩
    · obtain ⟨B, hB, rfl⟩ := bbAppendlBody_eq_ok.1 hu
      obtain ⟨-, rfl⟩ := appendLiteral_eq_ok.1 hB
      exact append_touches_only a
    · simp [bufBit, textByte]
  · obtain ⟨-, rfl⟩ | ⟨-, u, hu, rfl⟩ | ⟨-, r, -, rfl⟩ := command_cases h
    · exact ⟨fun _ => rfl, rfl, rfl⟩
    · obtain ⟨-, rfl⟩ := txtPutBody_eq_ok.1 hu
      refine ⟨fun hne => ?_, rfl, rfl⟩
      exact getElem?_append_outside (m := [v]) (by rw [List.length_singleton]; omega)
    · exact ⟨fun _ => rfl, rfl, rfl⟩

/-! ### A run of offered events (R278, R271) -/

/-- The model's own fields of `t` are those of `s`. -/
def SameRun (s t : State) : Prop := t.pending = s.pending ∧ t.replies = s.replies ∧ t.cfg = s.cfg

theorem exec_sameRun (i : Instr) (s : State) : ∃ t, exec i s = .next t ∧ SameRun s t := by
  obtain ⟨t, ht, hframe⟩ := commandsChangeOnlyTheirWriteSet i s
  have hout : Elem.pending ∉ writeSet i ∧ Elem.replies ∉ writeSet i ∧ Elem.cfg ∉ writeSet i := by
    cases i <;> simp [writeSet]
  obtain ⟨hpending, hreplies, hcfg⟩ := hout
  exact ⟨t, ht, (hframe _ hpending nofun nofun nofun).symm, (hframe _ hreplies nofun nofun nofun).symm,
    (hframe _ hcfg nofun nofun nofun).symm⟩

theorem issue_sameRun (c : Word) (s : State) : ∃ t, issue c s = .next t ∧ SameRun s t := by
  cases hdec : decode c with
  | ok i => rw [issue_of_decode s hdec]; exact exec_sameRun i s
  | error e =>
    by_cases herr : s.err = none
    · exact ⟨recordError ⟨.illegalCommand, c.toNat⟩ s, by simp [issue, herr, hdec], rfl, rfl, rfl⟩
    · exact ⟨s, issue_of_err herr, rfl, rfl, rfl⟩

theorem writeReg_sameRun (r : Reg) (v : Word) (s : State) : SameRun s (writeReg r v s) := by
  cases r <;> exact ⟨rfl, rfl, rfl⟩

/-- R21: everything a write at an offset can do. -/
theorem writeOffset_cases (off : Nat) (v : Word) (s : State) :
    writeOffset off v s = issue v s ∨ (∃ r, writeOffset off v s = .next (writeReg r v s))
      ∨ writeOffset off v s = .next s := by
  cases hr : regAt off with
  | none => exact .inr (.inr (by rw [writeOffset, hr]))
  | some r =>
    obtain rfl := offset_of_regAt hr
    by_cases hcmd : r = .cmd
    · exact .inl (hcmd ▸ writeOffset_cmd v s)
    · exact .inr (.inl ⟨r, writeOffset_reg hcmd v s⟩)

theorem writeOffset_sameRun (off : Nat) (v : Word) (s : State) : ∃ t, writeOffset off v s = .next t ∧ SameRun s t := by
  obtain h | ⟨r, h⟩ | h := writeOffset_cases off v s <;> rw [h]
  · exact issue_sameRun v s
  · exact ⟨_, rfl, writeReg_sameRun r v s⟩
  · exact ⟨s, rfl, rfl, rfl, rfl⟩

/-- R66: an aligned access inside the window goes on. -/
theorem access_offered {base addr : Nat}
    (h : (decide (base ≤ addr) && decide (addr < base + 256) && decide (addr % 4 = 0)) = true) (k : Nat → Outcome) : access base addr k = k (addr - base) := by
  simp only [Bool.and_eq_true, decide_eq_true_eq] at h
  obtain ⟨hout, -⟩ | ⟨-, -, hmis, -⟩ | ⟨-, -, -, ha⟩ := access_cases base addr k
  · omega
  · omega
  · exact ha

theorem perform_offered {e : HostEvent} {s : State} (h : offered s.cfg.base e = true) :
    ∃ t, perform e s = .next t ∧ t.pending = s.pending ∧ t.cfg = s.cfg
      ∧ t.replies.length = s.replies.length + ([e].filter isRead).length := by
  cases e with
  | reset => exact ⟨_, rfl, rfl, rfl, rfl⟩
  | read addr => exact ⟨{ s with replies := s.replies ++ [readOffset s (addr - s.cfg.base)] },
      access_offered h fun off => .next { s with replies := s.replies ++ [readOffset s off] }, rfl, rfl,
      List.length_append⟩
  | write addr v =>
    obtain ⟨t, ht, hpending, hreplies, hcfg⟩ := writeOffset_sameRun (addr - s.cfg.base) v s
    exact ⟨t, (access_offered h fun off => writeOffset off v s).trans ht, hpending, hcfg, by rw [hreplies]; rfl⟩
  | subWord addr => cases h

theorem run_succ (k : Nat) {s t : State} (h : step s = .next t) :
    Host.Core.run core (k + 1) s = Host.Core.run core k t := by
  have hrun := Host.Core.run.eq_2 core s k
  rw [show core.step s = _ from h] at hrun
  exact hrun

/-- Settles O21, by induction on the pending events. -/
theorem runPerformsEveryOfferedEvent : Obligations.RunPerformsEveryOfferedEvent := by
  refine ⟨fun s => ?_, fun s => step_idle⟩
  induction hp : s.pending generalizing s with
  | nil => exact fun _ => ⟨s, rfl, hp, rfl, rfl⟩
  | cons e rest ih =>
    intro hoff
    obtain ⟨hfirst, hrest⟩ := List.forall_mem_cons.1 hoff
    obtain ⟨t, ht, hpending, hcfg, hreplies⟩ := perform_offered (s := { s with pending := rest }) hfirst
    obtain ⟨u, hu, hdone, hlen, hcfg'⟩ := ih t hpending (by rw [hcfg]; exact hrest)
    refine ⟨u, ?_, hdone, ?_, hcfg'.trans hcfg⟩
    · exact (run_succ _ ((step_event hp).trans ht)).trans hu
    · rw [hlen, hreplies, Nat.add_assoc, ← List.length_append, ← List.filter_append, List.singleton_append]

end Sys2Proof.Machine
end

section
/-! PROOF. What a command reads (10_state.md R39): pseudocode that is run on two states with the same values in the
elements it reads takes the same course. -/
namespace Sys2Proof.Machine
open Sys2Proof.Safety

/-- Two runs of pseudocode raise the same error, or end with the same values in the elements `es`. -/
def SameOutcome (es : List Elem) (x1 x2 : Result State) : Prop :=
  (∃ r, x1 = .error r ∧ x2 = .error r) ∨ ∃ u1 u2, x1 = .ok u1 ∧ x2 = .ok u2 ∧ ∀ e ∈ es, e.same u1 u2

theorem sameOutcome_ok {es : List Elem} {u1 u2 : State} (h : ∀ e ∈ es, e.same u1 u2) :
    SameOutcome es (.ok u1) (.ok u2) := .inr ⟨u1, u2, rfl, rfl, h⟩

theorem sameOutcome_error (es : List Elem) (r : Raise) : SameOutcome es (.error r) (.error r) := .inl ⟨r, rfl, rfl⟩

theorem sameOutcome_bind {α : Type} {es : List Elem} (x : Result α) {f1 f2 : α → Result State}
    (h : ∀ a, SameOutcome es (f1 a) (f2 a)) : SameOutcome es (x >>= f1) (x >>= f2) := by
  cases x with
  | error r => exact sameOutcome_error es r
  | ok a => exact h a

theorem bb_eq_of_same {s1 s2 : State} {b : BufSel} (hbits : (s1.bb b).bits = (s2.bb b).bits)
    (hcur : (s1.bb b).cur = (s2.bb b).cur) : s1.bb b = s2.bb b :=
  congrArg₂ BitBuf.mk hbits hcur

/-- R39: the course of a command's pseudocode depends on the parameters and on what its row of "Reads" names. -/
theorem pseudocode_sameOutcome {i : Instr} {s1 s2 : State} (hcfg : s1.cfg = s2.cfg)
    (h : ∀ e ∈ readSet i, e.same s1 s2) : SameOutcome (writeSet i) (pseudocode i s1) (pseudocode i s2) := by
  cases i
  case nop => exact sameOutcome_ok nofun
  case bbClear b => exact sameOutcome_ok (by simp [writeSet, Elem.same])
  case bbRewind b => exact sameOutcome_ok (by simp [writeSet, Elem.same])
  case txtClear => exact sameOutcome_ok (by simp [writeSet, Elem.same])
  case bbAppend b width =>
    obtain ⟨hw, hbits, hcur⟩ : s1.w = s2.w ∧ (s1.bb b).bits = (s2.bb b).bits ∧ (s1.bb b).cur = (s2.bb b).cur := by
      simpa [readSet, Elem.same] using h
    simp only [pseudocode, bbAppendBody, appendValue, hcfg, hw, bb_eq_of_same hbits hcur]
    exact sameOutcome_bind _ fun B => sameOutcome_ok (by simp [writeSet, Elem.same])
  case bbAppendl b =>
    obtain ⟨hbits, hcur, hother⟩ : (s1.bb b).bits = (s2.bb b).bits ∧ (s1.bb b).cur = (s2.bb b).cur
        ∧ (s1.bb (otherBuf b)).bits = (s2.bb (otherBuf b)).bits := by
      simpa [readSet, Elem.same] using h
    simp only [pseudocode, bbAppendlBody, hcfg, hother, bb_eq_of_same hbits hcur]
    exact sameOutcome_bind _ fun B => sameOutcome_ok (by simp [writeSet, Elem.same])
  case bbRead b count =>
    obtain ⟨hbits, hcur⟩ : (s1.bb b).bits = (s2.bb b).bits ∧ (s1.bb b).cur = (s2.bb b).cur := by
      simpa [readSet, Elem.same] using h
    simp only [pseudocode, bbReadBody, bb_eq_of_same hbits hcur]
    refine sameOutcome_bind _ fun vB => sameOutcome_ok ?_
    cases b <;> simp [writeSet, Elem.same, State.setBB]
  case txtPut v =>
    have htxt : s1.txt = s2.txt := by simpa [readSet, Elem.same] using h
    simp only [pseudocode, txtPutBody, hcfg, htxt]
    exact sameOutcome_bind _ fun _ => sameOutcome_ok (by simp [writeSet, Elem.same])
  case tokenize =>
    obtain ⟨hmode, htxt⟩ : s1.mode = s2.mode ∧ s1.txt = s2.txt := by simpa [readSet, Elem.same] using h
    simp only [pseudocode, tokenizeBody, hmode, htxt]
    exact sameOutcome_bind _ fun t => sameOutcome_ok (by simp [writeSet, Elem.same])
  case freq =>
    have hsyms : s1.syms = s2.syms := by simpa [readSet, Elem.same] using h
    exact sameOutcome_ok (by simp [writeSet, Elem.same, hsyms])
  case runs =>
    have hsyms : s1.syms = s2.syms := by simpa [readSet, Elem.same] using h
    exact sameOutcome_ok (by simp [writeSet, Elem.same, hsyms])
  case detok =>
    obtain ⟨hmode, hsyms⟩ : s1.mode = s2.mode ∧ s1.syms = s2.syms := by simpa [readSet, Elem.same] using h
    simp only [pseudocode, detokBody, hcfg, hmode, hsyms]
    exact sameOutcome_bind _ fun _ => sameOutcome_ok (by simp [writeSet, Elem.same])
  case huffBuild =>
    have hft : s1.ft = s2.ft := by simpa [readSet, Elem.same] using h
    exact sameOutcome_ok (by simp [writeSet, Elem.same, hft, hcfg])
  case tblSer =>
    obtain ⟨hmode, hcm⟩ : s1.mode = s2.mode ∧ s1.cm = s2.cm := by simpa [readSet, Elem.same] using h
    simp only [pseudocode, tblSerBody, hcfg, hmode, hcm]
    exact sameOutcome_bind _ fun seg => sameOutcome_bind _ fun _ => sameOutcome_ok (by simp [writeSet, Elem.same])
  case tblDes =>
    obtain ⟨hmode, hbits⟩ : s1.mode = s2.mode ∧ s1.bb1.bits = s2.bb1.bits := by simpa [readSet, Elem.same] using h
    simp only [pseudocode, tblDesBody, hmode, hbits]
    exact sameOutcome_bind _ fun r => sameOutcome_ok (by simp [writeSet, Elem.same])
  case rleEnc =>
    obtain ⟨hmode, htxt⟩ : s1.mode = s2.mode ∧ s1.txt = s2.txt := by simpa [readSet, Elem.same] using h
    simp only [pseudocode, rleEncBody, hcfg, hmode, htxt]
    exact sameOutcome_bind _ fun r => sameOutcome_bind _ fun _ => sameOutcome_ok (by simp [writeSet, Elem.same])
  case rleDec =>
    have hbits : s1.bb0.bits = s2.bb0.bits := by simpa [readSet, Elem.same] using h
    simp only [pseudocode, rleDecBody, hcfg, hbits]
    exact sameOutcome_bind _ fun r => sameOutcome_ok (by simp [writeSet, Elem.same])
  case ascEnc =>
    have htxt : s1.txt = s2.txt := by simpa [readSet, Elem.same] using h
    simp only [pseudocode, ascEncBody, hcfg, htxt]
    exact sameOutcome_bind _ fun out => sameOutcome_bind _ fun _ => sameOutcome_ok (by simp [writeSet, Elem.same])
  case ascDec =>
    have hbits : s1.bb0.bits = s2.bb0.bits := by simpa [readSet, Elem.same] using h
    simp only [pseudocode, ascDecBody, hcfg, hbits]
    split
    · exact sameOutcome_error _ _
    · exact sameOutcome_bind _ fun t => sameOutcome_ok (by simp [writeSet, Elem.same])
  case hufEnc =>
    obtain ⟨hmode, htxt⟩ : s1.mode = s2.mode ∧ s1.txt = s2.txt := by simpa [readSet, Elem.same] using h
    simp only [pseudocode, hufEncBody, hcfg, hmode, htxt]
    exact sameOutcome_bind _ fun r => sameOutcome_bind _ fun _ => sameOutcome_ok (by simp [writeSet, Elem.same])
  case hufDec =>
    have hbits : s1.bb0.bits = s2.bb0.bits := by simpa [readSet, Elem.same] using h
    simp only [pseudocode, hufDecBody, hcfg, hbits]
    exact sameOutcome_bind _ fun r => sameOutcome_ok (by simp [writeSet, Elem.same])

theorem same_complete_complete {e : Elem} {u1 u2 : State} (h : e.same u1 u2) : e.same (complete u1) (complete u2) := by
  cases e with
  | done => rfl
  | bits b | cur b => simpa [Elem.same] using h
  | _ => exact h

/-- Settles O10: the envelope adds the same DONE and the same error registers to the two outcomes. -/
theorem commandsReadOnlyTheirReadSet : Obligations.CommandsReadOnlyTheirReadSet := by
  intro i s1 s2 hcfg h1 h2 hsame
  rw [exec_eq_command, exec_eq_command]
  obtain ⟨r, hr1, hr2⟩ | ⟨u1, u2, hu1, hu2, hwrite⟩ := pseudocode_sameOutcome hcfg hsame
  · exact ⟨_, _, command_of_error h1 hr1, command_of_error h2 hr2, rfl, rfl, fun _ => rfl, nofun⟩
  · obtain ⟨herr1, -⟩ := pseudocode_keeps_errorRegs hu1
    obtain ⟨herr2, -⟩ := pseudocode_keeps_errorRegs hu2
    have hnone : u1.err = none := herr1.trans h1
    refine ⟨_, _, command_of_ok h1 hu1, command_of_ok h2 hu2, ?_, rfl, fun herr => absurd hnone herr,
      fun _ e he => same_complete_complete (hwrite e he)⟩
    rw [complete_err, complete_err, hnone, herr2, h2]

end Sys2Proof.Machine
end

section
/-! PROOF. TOKENIZE, and the text of a tokenized text (41_symbolmodel.md R123, R124, R129, 90_conflicts.md C3). -/
namespace Sys2Proof.Machine
open Sys2Proof.Safety

/-- Settles O30: a valid text is accepted as its characters. -/
theorem tokenizeStoresTheTokens : Obligations.TokenizeStoresTheTokens :=
  ⟨decode_encode (i := .tokenize) rfl, fun _ cs h htxt =>
    command_of_ok h (tokenizeBody_eq_ok.2 ⟨cs, htxt ▸ validate_map_chrByte cs, rfl⟩)⟩

theorem joinWords_cons_cons (y z : Symbol) (ws : List Symbol) :
    joinWords (y :: z :: ws) = y ++ space :: joinWords (z :: ws) := by
  simp [joinWords, List.intercalate]

/-- R123: the words of a text of words joined by single spaces. -/
theorem tokenize_joinWords {ws : List Symbol} (hne : ws ≠ []) (hws : ∀ y ∈ ws, IsWord y) :
    tokenize .word (joinWords ws) = ws := by
  induction ws with
  | nil => exact absurd rfl hne
  | cons y ws ih =>
    obtain ⟨⟨hy, hspace⟩, hws⟩ := List.forall_mem_cons.1 hws
    cases ws with
    | nil => simpa [joinWords, List.intercalate] using tokenize_one_word y hy hspace
    | cons z ws =>
      have hsplit := tokenizeWords_append_space [] y (joinWords (z :: ws))
      rw [joinWords_cons_cons]
      exact hsplit.trans (congrArg₂ (· ++ ·) (tokenize_one_word y hy hspace) (ih (by simp) hws))

/-- R129: the text of words is the words joined by single spaces, and one more space. -/
theorem flatMap_append_space {ws : List Symbol} (hne : ws ≠ []) :
    (ws.flatMap fun y => y ++ [space]) = joinWords ws ++ [space] := by
  induction ws with
  | nil => exact absurd rfl hne
  | cons y ws ih =>
    cases ws with
    | nil => simp [joinWords, List.intercalate]
    | cons z ws => rw [List.flatMap_cons, ih (by simp), joinWords_cons_cons]; simp

theorem tokenizeWords_spaces {t : List Chr} (h : ∀ c ∈ t, c = space) : tokenizeWords [] t = [] := by
  induction t with
  | nil => rfl
  | cons c t ih =>
    obtain ⟨hc, ht⟩ := List.forall_mem_cons.1 h
    rw [tokenizeWords, if_pos hc, ih ht]
    rfl

/-- Settles O35: in word mode the words are those joined, and a text of spaces has none. -/
theorem textOfTokensIsTheTextAgain : Obligations.TextOfTokensIsTheTextAgain := by
  refine ⟨fun t => ?_, fun ws hne hws => ⟨tokenize_joinWords hne hws, ?_⟩, fun t ht => ?_⟩
  · rw [detok_character, tokenize, ← List.flatMap_def, List.flatMap_singleton']
  · rw [tokenize_joinWords hne hws, detok_word, flatMap_append_space hne]
  · rw [tokenize, tokenizeWords_spaces ht]
    rfl

end Sys2Proof.Machine
end

section
/-! PROOF. ReadSym where a symbol stands, and where it fails (41_symbolmodel.md R131, R132). -/
namespace Sys2Proof.Machine
open Sys2Proof.Safety

theorem prefix_drop_mid (pre q post : Bits) : q <+: (pre ++ q ++ post).drop pre.length := by
  simp

/-- R132: fewer bits before the limit than a chunk, or the cursor past the limit. -/
theorem readSym_no_chunk {m : Mode} {bs : Bits} {i lim : Nat} (E : ErrKind) (h : lim < i + 7) :
    readSym ⟨bs, i⟩ m lim E = .error ⟨E, i⟩ := by
  cases m with
  | character => exact bind_eq_error.2 (.inl (readLim_short_chunk E h))
  | word => exact readWord_short_chunk E _ _ h

/-- Settles O36: the symbol, the sentinel or the characters are what the bits from the cursor begin with. -/
theorem readSymInvertsSymEnc : Obligations.ReadSymInvertsSymEnc := by
  intro m y pre post lim E
  refine ⟨fun hy hlim => ?_, fun hlim => ?_, readSym_no_chunk E, fun hlim hshort => ?_⟩
  · exact readSym_symEnc E (by simpa [SymbolsFit] using hy) (prefix_drop_mid pre _ post) hlim
  · exact readSym_sentinel E (prefix_drop_mid pre _ post) hlim
  · exact readSym_short_chunk E nofun (prefix_drop_mid pre _ post) hlim hshort

end Sys2Proof.Machine
end

section
/-! PROOF. The raw ASCII codec's other outcomes (45_ascii.md R200 to R203). -/
namespace Sys2Proof.Machine
open Sys2Proof.Safety

theorem ascEncBody_eq_error {s : State} {r : Raise} :
    ascEncBody s = .error r ↔ asciiEncode s.txt = .error r
      ∨ ∃ out, asciiEncode s.txt = .ok out ∧ s.cfg.bbCap.val < out.length ∧ r = ⟨.capacityExceeded, 0⟩ := by
  simp [ascEncBody, bind_eq_error, checkCapacity_eq_error]

/-- Settles O50: every valid text is packed, and R201 tests the length of the packing. -/
theorem ascEncPacksSevenBits : Obligations.AscEncPacksSevenBits := by
  refine ⟨decode_encode (i := .ascEnc) rfl, fun s cs h htxt => ⟨exec_ascEnc_of_fits h htxt, fun hover => ?_⟩⟩
  exact command_of_error h (ascEncBody_eq_error.2 (.inr
    ⟨_, htxt ▸ asciiEncode_map_chrByte cs, by rwa [flatMap_chrBits_length], rfl⟩))

/-- R203, R247: the capacity is tested where the length is whole chunks, and any other failure is `AsciiDec`'s. -/
theorem ascDecBody_eq_error {s : State} {r : Raise} :
    ascDecBody s = .error r ↔
      (s.bb0.bits.length % 7 = 0 ∧ s.cfg.txtCap.val < s.bb0.bits.length / 7 ∧ r = ⟨.capacityExceeded, 0⟩)
        ∨ (¬(s.bb0.bits.length % 7 = 0 ∧ s.cfg.txtCap.val < s.bb0.bits.length / 7)
          ∧ asciiDecode ⟨s.bb0.bits, 0⟩ = .error r) := by
  rw [ascDecBody, charW]
  split
  next hover => simp [hover]
  next hfits =>
    have hno : ¬(s.bb0.bits.length % 7 = 0 ∧ s.cfg.txtCap.val < s.bb0.bits.length / 7 ∧ r = ⟨.capacityExceeded, 0⟩) :=
      fun ⟨hwhole, hlt, _⟩ => hfits ⟨hwhole, hlt⟩
    rw [or_iff_right hno, and_iff_right hfits, bind_eq_error]
    simp

/-- R202: the sentinel where a character must stand. -/
theorem readChars_sentinel {bs : Bits} {i : Nat} (acc : List Chr) (h : bits sentinel charW <+: bs.drop i) :
    readChars (bs.length - i) ⟨bs, i⟩ acc = .error ⟨.invalidSymbol, i⟩ := by
  have hlen : 7 ≤ bs.length - i := by simpa [charW] using h.length_le
  have hread : readBits ⟨bs, i⟩ charW = .ok (sentinel, ⟨bs, i + 7⟩) :=
    readLim_sentinel _ h (show i + 7 ≤ bs.length by omega)
  obtain ⟨f, hf⟩ : ∃ f, bs.length - i = f + 1 := ⟨bs.length - i - 1, by omega⟩
  rw [hf, readChars, if_pos (show i < bs.length by omega), hread]
  simp only [ok_bind, chr?_sentinel]
  rfl

/-- R202: the first chunk of 127 is reported where it starts. -/
theorem asciiDecode_sentinel {cs : List Chr} {post : Bits} {bs : Bits}
    (hbs : bs = cs.flatMap chrBits ++ bits sentinel charW ++ post) (hwhole : bs.length % 7 = 0) :
    asciiDecode ⟨bs, 0⟩ = .error ⟨.invalidSymbol, 7 * cs.length⟩ := by
  have hchars : cs.flatMap chrBits <+: bs.drop 0 := by rw [hbs]; simp
  have hend : bits sentinel charW <+: bs.drop (0 + 7 * cs.length) := by
    rw [hbs, Nat.zero_add, ← flatMap_chrBits_length]; exact prefix_drop_mid _ _ _
  have hloop := (readChars_flatMap_chrBits [] hchars).trans (readChars_sentinel _ hend)
  rw [Nat.zero_add] at hloop
  exact (if_neg (not_not.2 hwhole)).trans hloop

/-- Settles O52: the tests stand in the order of R202 and R203. -/
theorem ascDecRejectsBadStreams : Obligations.AscDecRejectsBadStreams := by
  intro s h
  refine ⟨fun hpart => ?_, fun hwhole hover => ?_, fun cs post hbits hwhole hfits => ?_⟩
  · exact command_of_error h (ascDecBody_eq_error.2 (.inr ⟨fun hboth => hpart hboth.1, if_pos hpart⟩))
  · exact command_of_error h (ascDecBody_eq_error.2 (.inl ⟨hwhole, hover, rfl⟩))
  · exact command_of_error h (ascDecBody_eq_error.2 (.inr ⟨fun hboth => absurd hboth.2 (Nat.not_lt.2 hfits),
      asciiDecode_sentinel hbits hwhole⟩))

end Sys2Proof.Machine
end

section
/-! PROOF. The machine with the states SYMBOL, LENGTH and CODE runs through an entry as `readEntry` does, so it
refines the loop of TableDes (43_huffman_table.md R163, R164). -/
namespace Sys2Proof.Machine

/-! ### One turn moves the read position forward -/

/-- A state in which a turn takes at least one bit: in CODE, `P` is not 0. -/
def ParserState.Reads : ParserState → Prop
  | .symbol _ | .length _ => True
  | .code _ plen => 1 ≤ plen

theorem parserTurn_some {m : Mode} {lim : Nat} {p q : Parser} (hp : p.st.Reads)
    (h : parserTurn m lim p = .ok (some q)) : p.buf.cur < q.buf.cur ∧ q.buf.cur ≤ lim ∧ q.st.Reads := by
  obtain ⟨st, B, cm⟩ := p
  cases st with
  | symbol sym =>
    simp only [parserTurn, symbolTurn] at h
    split at h
    · cases h
    · obtain ⟨⟨v, B'⟩, hr, h⟩ := bind_eq_ok.1 h
      obtain ⟨-, hcur, hle⟩ := readLim_cur hr
      simp only [charW] at hcur hle
      have hmoved : B.cur < B'.cur ∧ B'.cur ≤ lim := by omega
      simp only at h
      split at h
      · simp at h
      all_goals
        cases h
        exact ⟨hmoved.1, hmoved.2, trivial⟩
  | length sym =>
    obtain ⟨⟨plen, B'⟩, hr, h⟩ := bind_eq_ok.1 h
    obtain ⟨-, hcur, hle⟩ := readLim_cur hr
    simp only [plenW] at hcur hle
    simp only at h
    split at h
    · simp at h
    · next hne =>
      cases h
      refine ⟨?_, ?_, Nat.pos_of_ne_zero hne⟩ <;> simp only <;> omega
  | code sym plen =>
    obtain ⟨⟨v, B'⟩, hr, h⟩ := bind_eq_ok.1 h
    obtain ⟨-, hcur, hle⟩ := readLim_cur hr
    have hpos : 1 ≤ plen := hp
    simp only at h
    split at h
    · simp at h
    · cases h
      refine ⟨?_, ?_, trivial⟩ <;> simp only at hcur hle ⊢ <;> omega

/-- R163: with a turn for every bit left and one more, more turns make no difference. -/
theorem runParser_fuel {m : Mode} {lim : Nat} (f g : Nat) {p : Parser} (hp : p.st.Reads)
    (hf : lim - p.buf.cur + 1 ≤ f) (hg : lim - p.buf.cur + 1 ≤ g) : runParser m lim f p = runParser m lim g p := by
  induction f generalizing g p with
  | zero => omega
  | succ f ih =>
    obtain ⟨g, rfl⟩ : ∃ k, g = k + 1 := ⟨g - 1, by omega⟩
    rw [runParser, runParser]
    match hturn : parserTurn m lim p with
    | .error r => rfl
    | .ok none => rfl
    | .ok (some q) =>
      obtain ⟨hlt, hle, hq⟩ := parserTurn_some hp hturn
      exact ih g hq (by omega) (by omega)

/-! ### The machine run to its end -/

/-- R163: the machine run with as many turns as it can take. -/
def parse (m : Mode) (lim : Nat) (p : Parser) : Result (CodeMap × BitBuf) := runParser m lim (lim - p.buf.cur + 1) p

theorem parse_of_error {m : Mode} {lim : Nat} {p : Parser} {r : Raise} (h : parserTurn m lim p = .error r) :
    parse m lim p = .error r := by
  rw [parse, runParser, h]

theorem parse_of_none {m : Mode} {lim : Nat} {p : Parser} (h : parserTurn m lim p = .ok none) :
    parse m lim p = .ok (p.cm, p.buf) := by
  rw [parse, runParser, h]

theorem parse_of_some {m : Mode} {lim : Nat} {p q : Parser} (h : parserTurn m lim p = .ok (some q))
    (hp : p.st.Reads) : parse m lim p = parse m lim q := by
  obtain ⟨hlt, hle, hq⟩ := parserTurn_some hp h
  rw [parse, runParser, h]
  exact runParser_fuel _ _ hq (by omega) le_rfl

/-! ### One entry -/

/-- R163, the state SYMBOL in word mode: the machine reads the rest of the word. -/
theorem parse_symbol_word {lim : Nat} {B : BitBuf} {cm : CodeMap} {acc : Symbol} (h : ¬(acc = [] ∧ B.cur = lim)) :
    parse .word lim ⟨.symbol acc, B, cm⟩ =
      (readWord lim .malformedTable (lim - B.cur) B acc >>= fun r => parse .word lim ⟨.length r.1, r.2, cm⟩) := by
  induction hn : lim - B.cur using Nat.strong_induction_on generalizing B acc with
  | _ n ih =>
    subst hn
    cases hr : readLim B charW lim .malformedTable with
    | error r =>
      obtain ⟨hshort, rfl⟩ := readLim_eq_error.1 hr
      simp only [charW] at hshort
      rw [parse_of_error (by simp [parserTurn, symbolTurn, h, hr]; rfl),
        readWord_short_chunk _ _ _ (by omega), error_bind]
    | ok vB =>
      obtain ⟨v, B'⟩ := vB
      obtain ⟨-, hcur, hle⟩ := readLim_cur hr
      simp only [charW] at hcur hle
      obtain ⟨f, hf⟩ : ∃ f, lim - B.cur = f + 1 := ⟨lim - B.cur - 1, by omega⟩
      rw [hf, readWord, hr, ok_bind]
      cases hc : chr? v with
      | none =>
        have hturn : parserTurn .word lim ⟨.symbol acc, B, cm⟩ = .ok (some ⟨.length acc, B', cm⟩) := by
          simp [parserTurn, symbolTurn, h, hr, hc]
        rw [parse_of_some hturn trivial]
        simp only [hc]
        rfl
      | some c =>
        have hturn : parserTurn .word lim ⟨.symbol acc, B, cm⟩ = .ok (some ⟨.symbol (acc ++ [c]), B', cm⟩) := by
          simp [parserTurn, symbolTurn, h, hr, hc]
        rw [parse_of_some hturn trivial, ih _ (by omega) (by simp) rfl]
        simp only [hc]
        rw [readWord_fuel lim _ (lim - B'.cur) f B' _ le_rfl (by omega)]

/-- R163, the state SYMBOL at the start of an entry: the machine reads a symbol as ReadSym does. -/
theorem parse_symbol {m : Mode} {lim : Nat} {B : BitBuf} {cm : CodeMap} (h : B.cur < lim) :
    parse m lim ⟨.symbol [], B, cm⟩ =
      (readSym B m lim .malformedTable >>= fun r => parse m lim ⟨.length r.1, r.2, cm⟩) := by
  have hgo : ¬(([] : Symbol) = [] ∧ B.cur = lim) := by omega
  cases m with
  | word => exact parse_symbol_word hgo
  | character =>
    rw [readSym]
    cases hr : readLim B charW lim .malformedTable with
    | error r => exact parse_of_error (by simp [parserTurn, symbolTurn, h.ne, hr])
    | ok vB =>
      obtain ⟨v, B'⟩ := vB
      cases hc : chr? v with
      | none =>
        simp only [ok_bind, hc]
        exact parse_of_error (by simp [parserTurn, symbolTurn, h.ne, hr, hc])
      | some c =>
        simp only [ok_bind, hc]
        exact parse_of_some (by simp [parserTurn, symbolTurn, h.ne, hr, hc]) trivial

/-- R163, the states LENGTH and CODE: from the start of an entry the machine comes to the start of the next one as
one turn of the loop of R164 does. -/
theorem parse_entry {m : Mode} {lim : Nat} {B : BitBuf} {cm : CodeMap} (h : B.cur < lim) :
    parse m lim ⟨.symbol [], B, cm⟩ =
      (readEntry B m lim cm >>= fun r => parse m lim ⟨.symbol [], r.2, cm ++ [r.1]⟩) := by
  rw [parse_symbol h, readEntry]
  cases hsym : readSym B m lim .malformedTable with
  | error r => rfl
  | ok yB =>
    obtain ⟨y, B1⟩ := yB
    simp only [ok_bind]
    cases hP : readLim B1 plenW lim .malformedTable with
    | error r => exact parse_of_error (by simp [parserTurn, lengthTurn, hP])
    | ok pB =>
      obtain ⟨plen, B2⟩ := pB
      simp only [ok_bind]
      split
      next hzero => exact parse_of_error (by simp [parserTurn, lengthTurn, hP, hzero])
      next hzero =>
        have hpos : 1 ≤ plen := Nat.pos_of_ne_zero hzero
        have hturn : parserTurn m lim ⟨.length y, B1, cm⟩ = .ok (some ⟨.code y plen, B2, cm⟩) := by
          simp [parserTurn, lengthTurn, hP, hzero]
        rw [parse_of_some hturn trivial]
        cases hcode : readLim B2 plen lim .malformedTable with
        | error r => exact parse_of_error (by simp [parserTurn, codeTurn, hcode])
        | ok vB =>
          obtain ⟨v, B3⟩ := vB
          simp only [ok_bind]
          split
          next hrep => exact parse_of_error (by simp only [parserTurn, codeTurn, hcode, ok_bind, if_pos hrep]; rfl)
          next hrep =>
            exact parse_of_some (by simp only [parserTurn, codeTurn, hcode, ok_bind, if_neg hrep, pure_eq_ok]) hpos

/-! ### The whole table -/

theorem parse_eq_tableDesLoop {m : Mode} {lim : Nat} {B : BitBuf} {cm : CodeMap} (h : B.cur ≤ lim) :
    parse m lim ⟨.symbol [], B, cm⟩ = tableDesLoop m lim (lim - B.cur) B cm := by
  induction hn : lim - B.cur using Nat.strong_induction_on generalizing B cm with
  | _ n ih =>
    subst hn
    rcases h.eq_or_lt with hend | hlt
    · rw [parse_of_none (by simp [parserTurn, symbolTurn, hend]), hend, Nat.sub_self]
      rfl
    · rw [parse_entry hlt, tableDesLoop_step (bs := B.bits) hlt]
      cases hr : readEntry B m lim cm with
      | error r => rfl
      | ok eB =>
        obtain ⟨e, B'⟩ := eB
        obtain ⟨-, hcur, hle⟩ := readEntry_cur hr
        exact ih _ (show lim - B'.cur < lim - B.cur by omega) hle rfl

/-- Settles O44, entry by entry from the empty table on. -/
theorem threeStateParserIsTableDes : Obligations.ThreeStateParserIsTableDes :=
  fun _ _ _ h => parse_eq_tableDesLoop h

end Sys2Proof.Machine
end

section
/-! PROOF. The header that both decoders read first, the mode bit and an 8-bit field (44_rle.md R183, 46_container.md
R214); a test that raises, and a command that leaves no error. -/
namespace Sys2Proof.Machine
open Sys2Proof.Safety

theorem modeOf_bit (m : Mode) : modeOf (m.bit == 1) = m := by cases m <;> rfl

theorem readBits_bits_of_prefix {bs : Bits} {v w i : Nat} (h : bits v w <+: bs.drop i) (hi : i ≤ bs.length)
    (hv : v < 2 ^ w) :
    readBits ⟨bs, i⟩ w = .ok (v, ⟨bs, i + w⟩) := by
  have hlen := h.length_le
  rw [bits_length, List.length_drop] at hlen
  exact readLim_bits_of_prefix _ h hv (show i + w ≤ bs.length by omega)

/-- R183, R214: the mode bit and the 8-bit field after it are read back. -/
theorem readBits_header {bs tail : Bits} {m : Mode} {x : Nat} (hx : x ≤ 255)
    (hbs : bs = bits m.bit 1 ++ bits x 8 ++ tail) :
    readBits ⟨bs, 0⟩ 1 = .ok (m.bit, ⟨bs, 1⟩) ∧ readBits ⟨bs, 1⟩ 8 = .ok (x, ⟨bs, 9⟩) := by
  have hm : m.bit < 2 ^ 1 := by cases m <;> decide
  subst hbs
  exact ⟨readLim_bits_of_prefix (i := 0) _ (by simp) hm (by simp),
    readLim_bits_of_prefix (i := 1) _ (by simp [bits]) (Nat.lt_succ_of_le hx) (by simp; omega)⟩

/-- R183, R214: what the two decoders report when the mode bit or the 8-bit field is missing. -/
theorem readBits_short_header {bs : Bits} (hlen : bs.length < 9) :
    (bs = [] ∧ readBits ⟨bs, 0⟩ 1 = .error ⟨.insufficientBits, 0⟩)
      ∨ (1 ≤ bs.length
        ∧ ∃ v, readBits ⟨bs, 0⟩ 1 = .ok (v, ⟨bs, 1⟩) ∧ readBits ⟨bs, 1⟩ 8 = .error ⟨.insufficientBits, 1⟩) := by
  cases bs with
  | nil => exact .inl ⟨rfl, rfl⟩
  | cons b bs =>
    refine .inr ⟨by simp, _, readBits_of_le (by simp [remaining]), readLim_eq_error.2 ⟨?_, rfl⟩⟩
    show (b :: bs).length - 1 < 8
    omega

theorem ite_raise_eq_ok {α : Type} {p : Prop} [Decidable p] {k : ErrKind} {n : Nat} {a b : α} :
    (if p then raise k n else .ok a) = (.ok b : Result α) ↔ ¬p ∧ b = a := by
  split
  next hp => simp [hp]
  next hp => simp [hp, eq_comm]

theorem ite_raise_eq_error {α : Type} {p : Prop} [Decidable p] {k : ErrKind} {n : Nat} {a : α} {r : Raise} :
    (if p then raise k n else .ok a) = (.error r : Result α) ↔ p ∧ r = ⟨k, n⟩ := by
  split
  next hp => simp [hp]
  next hp => simp [hp]

/-- R243: a command that leaves no error completed. -/
theorem exec_completed {i : Instr} {s t : State} (h : s.err = none) (hexec : exec i s = .next t) (ht : t.err = none) :
    ∃ u, pseudocode i s = .ok u ∧ t = complete u := by
  rw [exec_eq_command] at hexec
  obtain ⟨herr, -⟩ | ⟨-, u, hu, rfl⟩ | ⟨-, r, -, rfl⟩ := command_cases hexec
  · exact absurd h herr
  · exact ⟨u, hu, rfl⟩
  · cases ht

end Sys2Proof.Machine
end

section
/-! PROOF. The length of a text, symbol by symbol and run by run (41_symbolmodel.md R129, 44_rle.md R183). -/
namespace Sys2Proof.Machine
open Sys2Proof.Safety

theorem symbolText_length (m : Mode) (y : Symbol) : (symbolText m y).length = outLen m y := by
  cases m <;> simp [symbolText, outLen]

theorem detok_length (m : Mode) (ys : List Symbol) : (detok m ys).length = symsTotal m ys := by
  simp [detok, symsTotal, List.length_flatMap, symbolText_length]

theorem symsTotal_expandRuns (m : Mode) (rl : RunList) : symsTotal m (expandRuns rl) = runsTotal m rl := by
  induction rl with
  | nil => rfl
  | cons e rl ih =>
    have hcons : expandRuns (e :: rl) = List.replicate e.2 e.1 ++ expandRuns rl := rfl
    rw [symsTotal] at ih
    rw [hcons, symsTotal, List.map_append, List.sum_append, ih]
    simp [runsTotal]

/-! ### The symbols of a tokenized text (R35, R123) -/

theorem symbolsFit_tokenize (m : Mode) (cs : List Chr) : SymbolsFit m (tokenize m cs) := by
  rintro rfl y hy
  obtain ⟨c, -, rfl⟩ := List.mem_map.1 hy
  rfl

theorem mem_of_mem_runsOf {ys : List Symbol} {e : Symbol × Nat} (h : e ∈ runsOf ys) : e.1 ∈ ys := by
  have hne : e.2 ≠ 0 := Nat.ne_of_gt (runsOf_pos ys e h)
  rw [← expandRuns_runsOf ys]
  exact List.mem_flatMap.2 ⟨e, h, by simp [hne]⟩

theorem symbolsFit_runsOf {m : Mode} {ys : List Symbol} (h : SymbolsFit m ys) :
    SymbolsFit m ((runsOf ys).map Prod.fst) := by
  intro hm y hy
  obtain ⟨e, he, rfl⟩ := List.mem_map.1 hy
  exact h hm _ (mem_of_mem_runsOf he)

end Sys2Proof.Machine
end

section
/-! PROOF. RLE_ENC: the layout of the runs of a text (44_rle.md R180 to R182). -/
namespace Sys2Proof.Machine
open Sys2Proof.Safety

/-- R181: when RleEnc reaches its end, and what it gives. -/
theorem rleEncode_eq_ok {m : Mode} {t : List Byte} {r : RleEncoded} :
    rleEncode m t = .ok r ↔ ∃ cs, validate t = .ok cs ∧ ¬255 < freqWidth (runsOf (tokenize m cs))
      ∧ r = ⟨tokenize m cs, runsOf (tokenize m cs),
        rleLayout m (freqWidth (runsOf (tokenize m cs))) (runsOf (tokenize m cs))⟩ := by
  simp only [rleEncode, bind_eq_ok, pure_eq_ok, ite_raise_eq_ok]
  exact Iff.rfl

theorem rleEncode_eq_error {m : Mode} {cs : List Chr} {r : Raise} :
    rleEncode m (cs.map chrByte) = .error r ↔
      255 < freqWidth (runsOf (tokenize m cs)) ∧ r = ⟨.fieldOverflow, 0⟩ := by
  simp only [rleEncode, validate_map_chrByte, ok_bind, pure_eq_ok, ite_raise_eq_error]
  exact Iff.rfl

theorem rleEncBody_eq_error {s : State} {r : Raise} :
    rleEncBody s = .error r ↔ rleEncode s.mode s.txt = .error r
      ∨ ∃ e, rleEncode s.mode s.txt = .ok e ∧ s.cfg.bbCap.val < e.out.length ∧ r = ⟨.capacityExceeded, 0⟩ := by
  simp [rleEncBody, bind_eq_error, checkCapacity_eq_error]

/-- Settles O46: the width is tested before the length of the layout. -/
theorem rleEncWritesTheLayout : Obligations.RleEncWritesTheLayout := by
  refine ⟨decode_encode (i := .rleEnc) rfl, fun s cs rl h htxt hrl => ?_⟩
  subst hrl
  refine ⟨fun hwide => ?_, fun hfits hover => ?_, fun hfits hcap => ?_⟩
  · exact command_of_error h (rleEncBody_eq_error.2 (.inl (htxt ▸ rleEncode_eq_error.2 ⟨hwide, rfl⟩)))
  · have hcode := rleEncode_eq_ok.2 ⟨cs, htxt ▸ validate_map_chrByte cs, Nat.not_lt.2 hfits, rfl⟩
    exact command_of_error h (rleEncBody_eq_error.2 (.inr ⟨_, hcode, hover, rfl⟩))
  · have hcode := rleEncode_eq_ok.2 ⟨cs, htxt ▸ validate_map_chrByte cs, Nat.not_lt.2 hfits, rfl⟩
    exact command_of_ok h (rleEncBody_eq_ok.2 ⟨_, hcode, hcap, rfl⟩)

end Sys2Proof.Machine
end

section
/-! PROOF. RLE_DEC: the loop of RleDec at the runs of a layout, and at the field at which runs fail (44_rle.md R183 to
R186). -/
namespace Sys2Proof.Machine
open Sys2Proof.Safety

/-! ### The loop -/

theorem readRuns_step {m : Mode} {width i : Nat} {bs : Bits} (rl : RunList) (h : i < bs.length) :
    readRuns m width (bs.length - i) ⟨bs, i⟩ rl =
      (readBits ⟨bs, i⟩ width >>= fun nB => readSym nB.2 m bs.length .insufficientBits >>= fun yB =>
        readRuns m width (bs.length - yB.2.cur) yB.2 (rl ++ [(yB.1, nB.1)])) := by
  obtain ⟨f, hf⟩ : ∃ f, bs.length - i = f + 1 := ⟨bs.length - i - 1, by omega⟩
  rw [hf, readRuns, if_pos h]
  cases hn : readBits ⟨bs, i⟩ width with
  | error r => rfl
  | ok nB =>
    obtain ⟨n, B1⟩ := nB
    obtain ⟨hbits1, hcur1, hle1⟩ := readLim_cur hn
    simp only [ok_bind]
    cases hy : readSym B1 m bs.length .insufficientBits with
    | error r => rfl
    | ok yB =>
      obtain ⟨y, B2⟩ := yB
      obtain ⟨hbits2, hcur2, -⟩ := readSym_cur hy
      have hbs : B2.bits = bs := hbits2.trans hbits1
      simp only at hcur1
      exact readRuns_fuel m width f (bs.length - B2.cur) B2 _ (by rw [hbs]; omega) (by rw [hbs])

theorem runsBits_cons (m : Mode) (width : Nat) (e : Symbol × Nat) (rl : RunList) :
    runsBits m width (e :: rl) = bits e.2 width ++ symEnc m e.1 ++ runsBits m width rl := rfl

theorem runsFit_cons {m : Mode} {width : Nat} {e : Symbol × Nat} {rl : RunList} :
    RunsFit m width (e :: rl) ↔ e.2 < 2 ^ width ∧ SymbolsFit m [e.1] ∧ RunsFit m width rl := by
  simp only [RunsFit, SymbolsFit, List.map_cons, List.forall_mem_cons]
  tauto

/-- R183: the loop at the runs of a layout. -/
theorem readRuns_runsBits {m : Mode} {width i : Nat} {bs : Bits} {rl : RunList} (acc : RunList) (hi : i ≤ bs.length)
    (hfit : RunsFit m width rl) (h : runsBits m width rl <+: bs.drop i) :
    readRuns m width (bs.length - i) ⟨bs, i⟩ acc =
      readRuns m width (bs.length - (i + (runsBits m width rl).length)) ⟨bs, i + (runsBits m width rl).length⟩
        (acc ++ rl) := by
  induction rl generalizing i acc with
  | nil => simp [runsBits]
  | cons e rl ih =>
    obtain ⟨hn, hy, hfit⟩ := runsFit_cons.1 hfit
    rw [runsBits_cons] at h ⊢
    obtain ⟨hrun, hrest⟩ := append_prefix_drop.1 h
    obtain ⟨hnbits, hsym⟩ := append_prefix_drop.1 hrun
    have hlen := hrun.length_le
    have hseven := seven_le_symEnc_length hy
    simp only [List.length_append, bits_length, List.length_drop] at hlen hsym hrest ⊢
    rw [readRuns_step acc (by omega), readBits_bits_of_prefix hnbits hi hn, ok_bind,
      readSym_symEnc _ hy hsym (by omega), ok_bind, Nat.add_assoc i, ih _ (by omega) hfit hrest, List.append_assoc,
      List.singleton_append, Nat.add_assoc i]

/-! ### Whole runs -/

theorem readRuns_whole {m : Mode} {width i : Nat} {bs : Bits} {rl : RunList} (hi : i ≤ bs.length)
    (hfit : RunsFit m width rl) (h : bs.drop i = runsBits m width rl) :
    readRuns m width (bs.length - i) ⟨bs, i⟩ [] = .ok rl := by
  have hlen := congrArg List.length h
  rw [List.length_drop] at hlen
  rw [readRuns_runsBits [] hi hfit (h ▸ List.prefix_refl _), ← hlen,
    show bs.length - (i + (bs.length - i)) = 0 by omega]
  rfl

theorem rleDecode_of_header {cap : Nat} {bs tail : Bits} {m : Mode} {width : Nat} (hw : width ≤ 255)
    (hbs : bs = bits m.bit 1 ++ bits width 8 ++ tail) :
    rleDecode cap ⟨bs, 0⟩ = (readRuns m width (bs.length - 9) ⟨bs, 9⟩ [] >>= fun rl =>
      if cap < runsTotal m rl then .error ⟨.capacityExceeded, 0⟩
      else .ok ⟨m, rl, expandRuns rl, detok m (expandRuns rl)⟩) := by
  obtain ⟨hmode, hwidth⟩ := readBits_header hw hbs
  rw [rleDecode, modeW, hmode]
  simp only [ok_bind, fwidW, hwidth, modeOf_bit, remaining]
  rfl

/-- R183, R185: a layout is decoded to its runs, unless the text would pass TXT_CAP. -/
theorem rleDecode_rleLayout (cap : Nat) {m : Mode} {width : Nat} {rl : RunList} (hw : width ≤ 255)
    (hfit : RunsFit m width rl) :
    rleDecode cap ⟨rleLayout m width rl, 0⟩ =
      if cap < runsTotal m rl then .error ⟨.capacityExceeded, 0⟩
      else .ok ⟨m, rl, expandRuns rl, detok m (expandRuns rl)⟩ := by
  have hlen : 9 ≤ (rleLayout m width rl).length := by simp [rleLayout]; omega
  have hdrop : (rleLayout m width rl).drop 9 = runsBits m width rl := List.drop_left' (by simp)
  rw [rleDecode_of_header (bs := rleLayout m width rl) hw rfl, readRuns_whole hlen hfit hdrop, ok_bind]

/-- R184, R244: what RleDec raises is recorded, and nothing else changes. -/
theorem exec_rleDec_of_error {s : State} {kind : ErrKind} {info : Nat} (h : s.err = none)
    (hdec : rleDecode s.cfg.txtCap.val ⟨s.bb0.bits, 0⟩ = .error ⟨kind, info⟩) :
    exec .rleDec s = .next (failed s kind info) := by
  have hbody : rleDecBody s = .error ⟨kind, info⟩ := bind_eq_error.2 (.inl hdec)
  exact command_of_error h hbody

/-- R184: RLE_DEC of a layout whose text fits. -/
theorem exec_rleDec_of_layout {s : State} {m : Mode} {width : Nat} {rl : RunList} (h : s.err = none) (hw : width ≤ 255)
    (hfit : RunsFit m width rl) (hbits : s.bb0.bits = rleLayout m width rl) (hcap : runsTotal m rl ≤ s.cfg.txtCap.val) :
    exec .rleDec s = .next { s with
      mode := m, rl := rl, syms := expandRuns rl, txt := detok m (expandRuns rl), ft := [], cm := [],
      bb0 := ⟨s.bb0.bits, s.bb0.bits.length⟩, done := true } := by
  have hdec := rleDecode_rleLayout s.cfg.txtCap.val hw hfit
  rw [← hbits, if_neg (Nat.not_lt.2 hcap)] at hdec
  exact command_of_ok h (rleDecBody_eq_ok.2 ⟨_, hdec, rfl⟩)

/-- Settles O47: the loop reads the runs back one by one, and the capacity is tested after it. -/
theorem rleDecReadsEveryRunList : Obligations.RleDecReadsEveryRunList := by
  refine ⟨decode_encode (i := .rleDec) rfl, fun s m width rl h hw hn hy hbits => ⟨?_, fun hover => ?_⟩⟩
  · exact exec_rleDec_of_layout h hw ⟨hn, hy⟩ hbits
  · have hdec := rleDecode_rleLayout s.cfg.txtCap.val hw ⟨hn, hy⟩
    rw [← hbits] at hdec
    exact exec_rleDec_of_error h (hdec.trans (if_pos hover))

/-- R180: the runs of a text fit the width that the encoder writes. -/
theorem runsFit_runsOf {m : Mode} {ys : List Symbol} (h : SymbolsFit m ys) :
    RunsFit m (freqWidth (runsOf ys)) (runsOf ys) :=
  ⟨fun _ he => (le_maxRun he).trans_lt (lt_two_pow_bitLength _), symbolsFit_runsOf h⟩

/-- Settles O48: the artifact is a layout of the runs of the text, whose expansion are the tokens. -/
theorem rleRoundTrip : Obligations.RleRoundTrip := by
  intro s t cs h htxt hexec ht hcap
  obtain ⟨u, hu, rfl⟩ := exec_completed h hexec ht
  obtain ⟨r, hr, -, rfl⟩ := rleEncBody_eq_ok.1 hu
  obtain ⟨cs', hcs, hwide, rfl⟩ := rleEncode_eq_ok.1 hr
  obtain rfl : cs' = cs := Except.ok.inj (hcs.symm.trans (htxt ▸ validate_map_chrByte cs))
  rw [detok_length, ← expandRuns_runsOf (tokenize s.mode cs'), symsTotal_expandRuns] at hcap
  have hdec := exec_rleDec_of_layout ht (Nat.not_lt.1 hwide) (runsFit_runsOf (symbolsFit_tokenize s.mode cs')) rfl hcap
  rw [expandRuns_runsOf] at hdec
  exact hdec

end Sys2Proof.Machine
end

section
/-! PROOF. RLE_DEC on runs that fail, and every sequence is runs or fails (44_rle.md R183, 41_symbolmodel.md R132). -/
namespace Sys2Proof.Machine
open Sys2Proof.Safety

/-! ### Where the loop fails -/

/-- R183: the loop fails where the run after those of a layout fails. -/
theorem readRuns_of_run_error {m : Mode} {width i : Nat} {bs : Bits} {rl : RunList} {r : Raise}
    (hfit : RunsFit m width rl) (h : runsBits m width rl <+: bs.drop i)
    (hlt : i + (runsBits m width rl).length < bs.length)
    (hr : (readBits ⟨bs, i + (runsBits m width rl).length⟩ width >>= fun nB =>
      readSym nB.2 m bs.length .insufficientBits >>= fun yB => Except.ok (yB.1, nB.1, yB.2)) = .error r) :
    readRuns m width (bs.length - i) ⟨bs, i⟩ [] = .error r := by
  rw [readRuns_runsBits [] (by omega) hfit h, readRuns_step _ hlt]
  obtain hn | ⟨nB, hn, hy⟩ := bind_eq_error.1 hr
  · rw [hn, error_bind]
  · obtain hy | ⟨yB, -, hok⟩ := bind_eq_error.1 hy
    · rw [hn, ok_bind, hy, error_bind]
    · cases hok

theorem readBits_of_prefix {bs q : Bits} {i : Nat} (h : q <+: bs.drop i) (hi : i ≤ bs.length) :
    readBits ⟨bs, i⟩ q.length = .ok (val q, ⟨bs, i + q.length⟩) := by
  have hlen := h.length_le
  rw [List.length_drop] at hlen
  exact readLim_of_prefix _ h (show i + q.length ≤ bs.length by omega)

/-- R183, R132: RleDec reports the field at which the runs fail, wherever they stand at the end of the buffer. -/
theorem readRuns_badRuns {m : Mode} {width i : Nat} {bs payload : Bits} {kind : ErrKind} {pos : Nat}
    (hbad : BadRuns m width payload kind pos) (h : bs.drop i = payload) (hi : i ≤ bs.length) :
    readRuns m width (bs.length - i) ⟨bs, i⟩ [] = .error ⟨kind, i + pos⟩ := by
  have hlen := congrArg List.length h
  have hpre : payload <+: bs.drop i := h ▸ List.prefix_refl _
  rw [List.length_drop] at hlen
  cases hbad with
  | shortLength rl tail hfit hne hshort =>
    obtain ⟨hrl, -⟩ := append_prefix_drop.1 hpre
    have hpos := List.length_pos_iff.2 hne
    rw [List.length_append] at hlen
    have hcut : bs.length - (i + (runsBits m width rl).length) < width := by omega
    exact readRuns_of_run_error hfit hrl (by omega) (bind_eq_error.2 (.inl (readLim_eq_error.2 ⟨hcut, rfl⟩)))
  | shortSymbol rl f y tail hfit hf hy hne hshort =>
    subst hf
    obtain ⟨hpre, -⟩ := append_prefix_drop.1 hpre
    obtain ⟨hpre, hchars⟩ := append_prefix_drop.1 hpre
    obtain ⟨hrl, hlength⟩ := append_prefix_drop.1 hpre
    have hpos := List.length_pos_iff.2 hne
    have hlen7 : (y.flatMap fun c => bits c.val 7).length = 7 * y.length := flatMap_chrBits_length y
    simp only [List.length_append, hlen7] at hlen hpos hchars
    rw [← Nat.add_assoc] at hchars
    have hsym : readSym ⟨bs, i + (runsBits m f.length rl).length + f.length⟩ m bs.length .insufficientBits
        = .error ⟨.insufficientBits, i + (runsBits m f.length rl).length + f.length + 7 * y.length⟩ :=
      readSym_short_chunk _ hy hchars (by omega) (by omega)
    refine readRuns_of_run_error hfit hrl (by omega) ?_
    rw [readBits_of_prefix hlength (by omega), ok_bind, hsym, error_bind, Nat.add_assoc, Nat.add_assoc, Nat.add_assoc]
  | sentinel rl f post hfit hf hm =>
    subst hf hm
    obtain ⟨hpre, -⟩ := append_prefix_drop.1 hpre
    obtain ⟨hpre, hend⟩ := append_prefix_drop.1 hpre
    obtain ⟨hrl, hlength⟩ := append_prefix_drop.1 hpre
    simp only [List.length_append, bits_length] at hlen hend
    rw [← Nat.add_assoc] at hend
    have hsym := readSym_sentinel (lim := bs.length) .insufficientBits hend (by omega)
    refine readRuns_of_run_error hfit hrl (by omega) ?_
    rw [readBits_of_prefix hlength (by omega), ok_bind, hsym, error_bind, Nat.add_assoc]

/-! ### Every sequence is runs or fails -/

theorem runsBits_concat (m : Mode) (width : Nat) (rl : RunList) (e : Symbol × Nat) :
    runsBits m width (rl ++ [e]) = runsBits m width rl ++ (bits e.2 width ++ symEnc m e.1) := by
  simp [runsBits]

theorem runsFit_nil (m : Mode) (width : Nat) : RunsFit m width [] := by simp [RunsFit, SymbolsFit]

theorem runsFit_concat {m : Mode} {width : Nat} {rl : RunList} {e : Symbol × Nat} (hfit : RunsFit m width rl)
    (hn : e.2 < 2 ^ width) (hy : SymbolsFit m [e.1]) : RunsFit m width (rl ++ [e]) := by
  obtain ⟨hns, hys⟩ := hfit
  refine ⟨List.forall_mem_append.2 ⟨hns, by simpa using hn⟩, fun hm => ?_⟩
  rw [List.map_append]
  exact List.forall_mem_append.2 ⟨hys hm, hy hm⟩

/-- R183: what follows the runs of a layout starts with one more run, or fails there. -/
theorem run_cases {m : Mode} {width : Nat} {rl : RunList} (hfit : RunsFit m width rl) {t : Bits} (ht : t ≠ []) :
    (∃ e post, RunsFit m width (rl ++ [e]) ∧ 7 ≤ (symEnc m e.1).length ∧ t = bits e.2 width ++ symEnc m e.1 ++ post)
      ∨ ∃ kind pos, BadRuns m width (runsBits m width rl ++ t) kind pos := by
  by_cases hshort : t.length < width
  · exact .inr ⟨_, _, .shortLength rl t hfit ht hshort⟩
  obtain ⟨n, t, hn, rfl⟩ := exists_bits_append (Nat.not_lt.1 hshort)
  obtain ⟨y, post, hy, rfl⟩ | ⟨hm, post, rfl⟩ | ⟨y, tail, hy, hchunk, rfl⟩ := symbol_cases m t
  · exact .inl ⟨(y, n), post, runsFit_concat hfit hn hy, seven_le_symEnc_length hy, (List.append_assoc ..).symm⟩
  · refine .inr ?_
    rw [← List.append_assoc, ← List.append_assoc]
    exact ⟨_, _, .sentinel rl (bits n width) post hfit (bits_length _ _) hm⟩
  · refine .inr ?_
    rw [← List.append_assoc] at ht
    rw [← List.append_assoc, ← List.append_assoc]
    exact ⟨_, _, .shortSymbol rl (bits n width) y tail hfit (bits_length _ _) hy ht hchunk⟩

/-- R183: what follows the runs of a layout completes them to one, or fails. -/
theorem runs_cases {m : Mode} {width : Nat} {rl : RunList} (hfit : RunsFit m width rl) (t : Bits) :
    (∃ rl', RunsFit m width rl' ∧ runsBits m width rl ++ t = runsBits m width rl')
      ∨ ∃ kind pos, BadRuns m width (runsBits m width rl ++ t) kind pos := by
  induction hn : t.length using Nat.strong_induction_on generalizing rl t with
  | _ n ih =>
    by_cases ht : t = []
    · exact .inl ⟨rl, hfit, by rw [ht, List.append_nil]⟩
    obtain ⟨e, post, hfit', hseven, rfl⟩ | hbad := run_cases hfit ht
    · rw [List.length_append, List.length_append] at hn
      rw [← List.append_assoc, ← runsBits_concat]
      exact ih _ (by omega) hfit' post rfl
    · exact .inr hbad

/-- Settles O49: the header's two fields are tested first, then the loop stops at the field that fails. -/
theorem shortRleArtifactIsInsufficientBits : Obligations.ShortRleArtifactIsInsufficientBits := by
  refine ⟨fun m width payload => runs_cases (runsFit_nil m width) payload, fun s h =>
    ⟨fun hempty => ?_, fun hone hnine => ?_, fun m width payload kind pos hw hbad hbits => ?_⟩⟩
  · refine exec_rleDec_of_error h ?_
    rw [hempty]
    rfl
  · obtain ⟨hempty, -⟩ | ⟨-, v, hmode, hwidth⟩ := readBits_short_header hnine
    · simp [hempty] at hone
    · refine exec_rleDec_of_error h ?_
      rw [rleDecode, modeW, hmode, ok_bind]
      exact bind_eq_error.2 (.inl hwidth)
  · have hlen : 9 ≤ s.bb0.bits.length := by rw [hbits]; simp; omega
    have hdrop : s.bb0.bits.drop 9 = payload := by rw [hbits]; exact List.drop_left' (by simp)
    refine exec_rleDec_of_error h ?_
    rw [rleDecode_of_header hw hbits, readRuns_badRuns hbad hdrop hlen, error_bind]

end Sys2Proof.Machine
end

section
/-! PROOF. TBL_DES reads back the segment of an acceptable table (43_huffman_table.md R164, R165). -/
namespace Sys2Proof.Machine
open Sys2Proof.Safety

/-- R164: TableDes of the entries of an acceptable table, wherever they stand. -/
theorem tableDes_tableBits {m : Mode} {bs : Bits} {i : Nat} {cm : CodeMap} (hfit : TableFits m cm)
    (h : tableBits m cm <+: bs.drop i) :
    tableDes ⟨bs, i⟩ m (i + (tableBits m cm).length) = .ok (cm, ⟨bs, i + (tableBits m cm).length⟩) := by
  rw [tableDes, tableDesLoop_tableBits (acc := []) hfit h le_rfl, Nat.sub_self]
  rfl

/-- Settles O42: the loop reads the entries back one by one, from bit 0. -/
theorem tableDesReadsTheSegmentBack : Obligations.TableDesReadsTheSegmentBack := by
  refine ⟨decode_encode (i := .tblDes) rfl, fun s cm h hfit hbits => ?_⟩
  have hdes := tableDes_tableBits (bs := s.bb1.bits) (i := 0) hfit (hbits ▸ List.prefix_refl _)
  rw [Nat.zero_add, ← hbits] at hdes
  exact command_of_ok h (tblDesBody_eq_ok.2 ⟨_, _, hdes, rfl⟩)

end Sys2Proof.Machine
end

section
/-! PROOF. HUF_ENC: the container of a text, and the commands whose effects it combines (46_container.md R210 to R212,
44_rle.md R182). -/
namespace Sys2Proof.Machine
open Sys2Proof.Safety

/-- R161: when TableSer reaches its end, and what it gives. -/
theorem tableSerFrom_eq_ok {m : Mode} {k : Nat} {cm : CodeMap} {seg : Bits} :
    tableSerFrom m k cm = .ok seg ↔ (∀ e ∈ cm, e.2.length ≤ 255) ∧ seg = tableBits m cm := by
  constructor
  · intro h
    have hshort : ∀ e ∈ cm, e.2.length ≤ 255 := by
      induction cm generalizing k seg with
      | nil => nofun
      | cons e cm ih =>
        by_cases he : e.2.length ≤ 255
        · rw [tableSerFrom_cons_short m k cm he] at h
          obtain ⟨out, hout, -⟩ := bind_eq_ok.1 h
          exact List.forall_mem_cons.2 ⟨he, ih hout⟩
        · rw [tableSerFrom, if_pos (show maxField8 < e.2.length from Nat.not_le.1 he)] at h
          cases h
    exact ⟨hshort, Except.ok.inj (h.symm.trans (tableSerFrom_of_short m k hshort))⟩
  · rintro ⟨hshort, rfl⟩
    exact tableSerFrom_of_short m k hshort

/-- R211, R85: the container is the header, the segment and the payload. -/
theorem containerBits_eq (m : Mode) (cm : CodeMap) (seg : Bits) (syms : List Symbol) :
    containerBits m seg (payloadBits cm syms) =
      huffHeader m (xOf seg.length) seg.length ++ seg ++ syms.flatMap (codeOf cm) := rfl

/-- R211: when HuffEnc reaches its end, and what it gives. -/
theorem huffEncode_eq_ok {cfg : Config} {m : Mode} {t : List Byte} {r : HuffEncoded} :
    huffEncode cfg m t = .ok r ↔ ∃ cs, validate t = .ok cs
      ∧ ∃ seg, tableSer m (huffBuild cfg (freqTable (tokenize m cs))) = .ok seg ∧ ¬255 < xOf seg.length
        ∧ r = ⟨tokenize m cs, freqTable (tokenize m cs), huffBuild cfg (freqTable (tokenize m cs)), seg,
          containerBits m seg (payloadBits (huffBuild cfg (freqTable (tokenize m cs))) (tokenize m cs))⟩ := by
  simp only [huffEncode, bind_eq_ok, pure_eq_ok, ite_raise_eq_ok]
  exact Iff.rfl

theorem huffEncode_eq_error {cfg : Config} {m : Mode} {cs : List Chr} {r : Raise} :
    huffEncode cfg m (cs.map chrByte) = .error r ↔
      tableSer m (huffBuild cfg (freqTable (tokenize m cs))) = .error r
        ∨ ∃ seg, tableSer m (huffBuild cfg (freqTable (tokenize m cs))) = .ok seg ∧ 255 < xOf seg.length
          ∧ r = ⟨.fieldOverflow, 0⟩ := by
  simp only [huffEncode, validate_map_chrByte, ok_bind, bind_eq_error, pure_eq_ok, ite_raise_eq_error]
  exact Iff.rfl

theorem hufEncBody_eq_error {s : State} {r : Raise} :
    hufEncBody s = .error r ↔ huffEncode s.cfg s.mode s.txt = .error r
      ∨ ∃ e, huffEncode s.cfg s.mode s.txt = .ok e ∧ s.cfg.bbCap.val < e.out.length ∧ r = ⟨.capacityExceeded, 0⟩ := by
  simp [hufEncBody, bind_eq_error, checkCapacity_eq_error]

/-- Settles O53: TableSer, the width of `L` and the length of the container are tested in this order. -/
theorem hufEncWritesTheLayout : Obligations.HufEncWritesTheLayout := by
  refine ⟨decode_encode (i := .hufEnc) rfl, fun s cs syms cm h htxt hsyms hcm => ?_⟩
  subst hsyms hcm
  refine ⟨fun pre e post hsplit hpre he => ?_, fun seg out hshort hseg hout => ?_⟩
  · have hser := tableSerFrom_first_long s.mode 0 pre post hpre he
    rw [← hsplit, Nat.zero_add] at hser
    exact command_of_error h (hufEncBody_eq_error.2 (.inl (htxt ▸ huffEncode_eq_error.2 (.inl hser))))
  · have hser : tableSer s.mode (huffBuild s.cfg (freqTable (tokenize s.mode cs))) = .ok seg :=
      tableSerFrom_eq_ok.2 ⟨hshort, hseg⟩
    rw [← containerBits_eq] at hout
    subst hout
    refine ⟨fun hwide => ?_, fun hfits hover => ?_, fun hfits hcap => ?_⟩
    · exact command_of_error h
        (hufEncBody_eq_error.2 (.inl (htxt ▸ huffEncode_eq_error.2 (.inr ⟨seg, hser, hwide, rfl⟩))))
    · have hcode := huffEncode_eq_ok.2 ⟨cs, htxt ▸ validate_map_chrByte cs, seg, hser, Nat.not_lt.2 hfits, rfl⟩
      exact command_of_error h (hufEncBody_eq_error.2 (.inr ⟨_, hcode, hover, rfl⟩))
    · have hcode := huffEncode_eq_ok.2 ⟨cs, htxt ▸ validate_map_chrByte cs, seg, hser, Nat.not_lt.2 hfits, rfl⟩
      exact command_of_ok h (hufEncBody_eq_ok.2 ⟨_, hcode, hcap, rfl⟩)

/-- R211: the segment is no longer than the container. -/
theorem seg_length_le_containerBits (m : Mode) (seg payload : Bits) :
    seg.length ≤ (containerBits m seg payload).length := by
  simp [containerBits]
  omega

theorem exec_freq {s : State} (h : s.err = none) :
    exec .freq s = .next { s with ft := freqTable s.syms, done := true } :=
  command_of_total (fun s => { s with ft := freqTable s.syms }) h

theorem exec_runs {s : State} (h : s.err = none) :
    exec .runs s = .next { s with rl := runsOf s.syms, done := true } :=
  command_of_total (fun s => { s with rl := runsOf s.syms }) h

theorem exec_huffBuild {s : State} (h : s.err = none) :
    exec .huffBuild s = .next { s with cm := huffBuild s.cfg s.ft, degen := degenOf s.ft, done := true } :=
  command_of_total (fun s => { s with cm := huffBuild s.cfg s.ft, degen := degenOf s.ft }) h

/-- Settles O54: the composite encoders call the functions of the sub-unit commands on the same values. -/
theorem compositeEncodersAreTheSubUnitSequence : Obligations.CompositeEncodersAreTheSubUnitSequence := by
  refine ⟨fun s t h hexec ht => ?_, fun s t h hexec ht => ?_⟩
  · obtain ⟨u, hu, rfl⟩ := exec_completed h hexec ht
    obtain ⟨r, hr, hcap, rfl⟩ := hufEncBody_eq_ok.1 hu
    obtain ⟨cs, hcs, seg, hseg, -, rfl⟩ := huffEncode_eq_ok.1 hr
    have hfits := (seg_length_le_containerBits _ _ _).trans hcap
    exact ⟨_, _, _, _, command_of_ok h (tokenizeBody_eq_ok.2 ⟨cs, hcs, rfl⟩), exec_freq h, exec_huffBuild h,
      command_of_ok h (tblSerBody_eq_ok.2 ⟨seg, hseg, hfits, rfl⟩), h, rfl, rfl, rfl, rfl, rfl⟩
  · obtain ⟨u, hu, rfl⟩ := exec_completed h hexec ht
    obtain ⟨r, hr, -, rfl⟩ := rleEncBody_eq_ok.1 hu
    obtain ⟨cs, hcs, -, rfl⟩ := rleEncode_eq_ok.1 hr
    exact ⟨_, _, command_of_ok h (tokenizeBody_eq_ok.2 ⟨cs, hcs, rfl⟩), exec_runs h, h, rfl, rfl⟩

end Sys2Proof.Machine
end

section
/-! PROOF. PayloadDec on the codewords of entries, and on bits that no codeword resolves (46_container.md R213). -/
namespace Sys2Proof.Machine
open Sys2Proof.Safety

/-- R213: no codeword of the table other than `e`'s own is the beginning of `e`'s codeword. -/
def Resolves (cm : CodeMap) (e : Symbol × Bits) : Prop := e ∈ cm ∧ ∀ f ∈ cm, f.2 <+: e.2 → f.2 = e.2

theorem find?_codeword {cm : CodeMap} (hnd : (cm.map Prod.snd).Nodup) {e : Symbol × Bits} (he : e ∈ cm) :
    cm.find? (fun f => f.2 == e.2) = some e := by
  obtain ⟨f, hf⟩ : ∃ f, cm.find? (fun f => f.2 == e.2) = some f :=
    Option.isSome_iff_exists.1 (List.find?_isSome.2 ⟨e, he, beq_self_eq_true _⟩)
  have hcw : f.2 = e.2 := by simpa using List.find?_some hf
  rw [hf, List.inj_on_of_nodup_map hnd (List.mem_of_find?_eq_some hf) he hcw]

theorem find?_codeword_eq_none {cm : CodeMap} {acc : Bits} (h : ∀ f ∈ cm, f.2 ≠ acc) :
    cm.find? (fun f => f.2 == acc) = none := by
  simpa using h

/-- R213: the loop resolves a codeword at its last bit. -/
theorem payloadLoop_codeword {cm : CodeMap} (hnd : (cm.map Prod.snd).Nodup) {e : Symbol × Bits} (he : Resolves cm e)
    {suffix acc : Bits} (hne : suffix ≠ []) (hcw : acc ++ suffix = e.2) (rest : Bits) (pos start : Nat)
    (out : List Symbol) :
    payloadLoop cm (suffix ++ rest) pos start acc out =
      payloadLoop cm rest (pos + suffix.length) (pos + suffix.length) [] (out ++ [e.1]) := by
  induction suffix generalizing acc pos with
  | nil => exact absurd rfl hne
  | cons b suffix ih =>
    obtain ⟨hmem, hres⟩ := he
    rw [List.cons_append, payloadLoop]
    by_cases hlast : suffix = []
    · subst hlast
      rw [hcw, find?_codeword hnd hmem]
      rfl
    · have hnone : ∀ f ∈ cm, f.2 ≠ acc ++ [b] := by
        intro f hf heq
        have hpre : f.2 <+: e.2 := ⟨suffix, by rw [heq, ← hcw]; simp⟩
        have hlen := congrArg List.length ((hres f hf hpre).trans hcw.symm)
        have hpos := List.length_pos_iff.2 hlast
        rw [heq] at hlen
        simp only [List.length_append, List.length_cons, List.length_nil] at hlen
        omega
      rw [find?_codeword_eq_none hnone]
      have := ih hlast (acc := acc ++ [b]) (by simpa using hcw) (pos + 1)
      simp only [List.length_cons]
      rw [this, Nat.add_assoc, Nat.add_comm 1]

theorem payloadLoop_codewords {cm : CodeMap} (hnd : (cm.map Prod.snd).Nodup) (hne : ∀ f ∈ cm, f.2 ≠ []) {es : CodeMap}
    (hes : ∀ e ∈ es, Resolves cm e) (rest : Bits) (pos : Nat) (out : List Symbol) :
    payloadLoop cm (es.flatMap Prod.snd ++ rest) pos pos [] out =
      payloadLoop cm rest (pos + (es.flatMap Prod.snd).length) (pos + (es.flatMap Prod.snd).length) []
        (out ++ es.map Prod.fst) := by
  induction es generalizing pos out with
  | nil => simp
  | cons e es ih =>
    obtain ⟨he, hes⟩ := List.forall_mem_cons.1 hes
    have hcode : e.2 ≠ [] := by
      obtain ⟨hmem, -⟩ := he
      exact hne e hmem
    rw [List.flatMap_cons, List.append_assoc, payloadLoop_codeword hnd he hcode (List.nil_append _), ih hes,
      List.length_append, List.map_cons, Nat.add_assoc, List.append_assoc, List.singleton_append]

/-- R213: bits left that no codeword resolves are reported where the pending codeword starts. -/
theorem payloadLoop_unresolved {cm : CodeMap} {tail acc : Bits} (pos start : Nat) (out : List Symbol)
    (h : ∀ f ∈ cm, ¬f.2 <+: acc ++ tail) (hne : acc ++ tail ≠ []) :
    payloadLoop cm tail pos start acc out = .error ⟨.malformedTable, start⟩ := by
  induction tail generalizing acc pos with
  | nil =>
    rw [List.append_nil] at hne
    exact if_neg hne
  | cons b tail ih =>
    have hnone : ∀ f ∈ cm, f.2 ≠ acc ++ [b] := fun f hf heq => h f hf ⟨tail, by rw [heq]; simp⟩
    rw [payloadLoop, find?_codeword_eq_none hnone]
    exact ih _ (by simpa using h) (by simp)

/-- R213: PayloadDec of the codewords of entries up to the end of the buffer. -/
theorem payloadDecode_codewords {cm es : CodeMap} (hnd : (cm.map Prod.snd).Nodup) (hne : ∀ f ∈ cm, f.2 ≠ [])
    (hes : ∀ e ∈ es, Resolves cm e) {bs : Bits} {i : Nat} (h : bs.drop i = es.flatMap Prod.snd) :
    payloadDecode ⟨bs, i⟩ cm = .ok (es.map Prod.fst) := by
  have hloop := payloadLoop_codewords hnd hne hes [] i []
  rw [List.append_nil, ← h] at hloop
  rw [payloadDecode, hloop]
  rfl

theorem payloadDecode_unresolved {cm es : CodeMap} {tail : Bits} (hnd : (cm.map Prod.snd).Nodup)
    (hne : ∀ f ∈ cm, f.2 ≠ []) (hes : ∀ e ∈ es, Resolves cm e) (htail : tail ≠ []) (hnone : ∀ f ∈ cm, ¬f.2 <+: tail)
    {bs : Bits} {i : Nat} (h : bs.drop i = es.flatMap Prod.snd ++ tail) :
    payloadDecode ⟨bs, i⟩ cm = .error ⟨.malformedTable, i + (es.flatMap Prod.snd).length⟩ := by
  rw [payloadDecode, h, payloadLoop_codewords hnd hne hes]
  exact payloadLoop_unresolved (acc := []) _ _ _ hnone htail

end Sys2Proof.Machine
end

section
/-! PROOF. HUF_DEC: the header, the table and the payload of an artifact (46_container.md R213 to R216). -/
namespace Sys2Proof.Machine
open Sys2Proof.Safety

theorem huffHeader_length (m : Mode) (x L : Nat) : (huffHeader m x L).length = 9 + 8 * x := by
  simp [huffHeader]
  omega

theorem drop_header (m : Mode) (x : Nat) (tail : Bits) : (bits m.bit 1 ++ bits x 8 ++ tail).drop 9 = tail :=
  List.drop_left' (by simp)

theorem drop_huffHeader (m : Mode) (x L : Nat) (tail : Bits) : (huffHeader m x L ++ tail).drop (9 + 8 * x) = tail :=
  List.drop_left' (huffHeader_length m x L)

/-- R214: HuffDec after the fields `mode`, `X` and `L`. -/
theorem huffDecode_of_header {cap : Nat} {bs tail : Bits} {m : Mode} {x L : Nat} (hx : x ≤ 255) (hL : L < 2 ^ (8 * x))
    (hbs : bs = huffHeader m x L ++ tail) :
    huffDecode cap ⟨bs, 0⟩ =
      if tail.length < L then .error ⟨.insufficientBits, 9 + 8 * x⟩
      else tableDes ⟨bs, 9 + 8 * x⟩ m (9 + 8 * x + L) >>= fun cB => payloadDecode cB.2 cB.1 >>= fun syms =>
        if cap < symsTotal m syms then .error ⟨.capacityExceeded, 0⟩
        else .ok ⟨m, slice bs (9 + 8 * x) (9 + 8 * x + L), cB.1, syms, detok m syms⟩ := by
  have hlen : bs.length = 9 + 8 * x + tail.length := by rw [hbs, List.length_append, huffHeader_length]
  have hhead : bs = bits m.bit 1 ++ bits x 8 ++ (bits L (8 * x) ++ tail) := by rw [hbs, huffHeader, List.append_assoc]
  obtain ⟨hmode, hX⟩ := readBits_header hx hhead
  have hfield : bits L (8 * x) <+: bs.drop 9 := by rw [hhead, drop_header]; exact List.prefix_append _ _
  have hread : readBits ⟨bs, 9⟩ (8 * x) = .ok (L, ⟨bs, 9 + 8 * x⟩) := readBits_bits_of_prefix hfield (by omega) hL
  have hrem : remaining ⟨bs, 9 + 8 * x⟩ = tail.length := by simp only [remaining]; omega
  rw [huffDecode, modeW, hmode]
  simp only [ok_bind, xlenW, hX, hread, hrem, modeOf_bit]
  rfl

/-- R214: HuffDec of an artifact whose table is acceptable. -/
theorem huffDecode_of_table {cap : Nat} {bs payload : Bits} {m : Mode} {x : Nat} {cm : CodeMap} (hx : x ≤ 255)
    (hfit : TableFits m cm) (hL : (tableBits m cm).length < 2 ^ (8 * x))
    (hbs : bs = huffHeader m x (tableBits m cm).length ++ tableBits m cm ++ payload) :
    huffDecode cap ⟨bs, 0⟩ =
      (payloadDecode ⟨bs, 9 + 8 * x + (tableBits m cm).length⟩ cm >>= fun syms =>
        if cap < symsTotal m syms then .error ⟨.capacityExceeded, 0⟩
        else .ok ⟨m, tableBits m cm, cm, syms, detok m syms⟩)
      ∧ bs.drop (9 + 8 * x + (tableBits m cm).length) = payload := by
  have hhead := huffHeader_length m x (tableBits m cm).length
  have hpre : tableBits m cm <+: bs.drop (9 + 8 * x) := by
    rw [hbs, List.append_assoc, drop_huffHeader]; exact List.prefix_append _ _
  have hseg : slice bs (9 + 8 * x) (9 + 8 * x + (tableBits m cm).length) = tableBits m cm := by
    rw [hbs, ← hhead]; exact slice_append_mid _ _ _
  constructor
  · rw [huffDecode_of_header hx hL (hbs.trans (List.append_assoc ..)), if_neg (by simp), tableDes_tableBits hfit hpre,
      ok_bind, hseg]
  · rw [hbs]
    exact List.drop_left' (by rw [List.length_append, hhead])

theorem symsTotal_map_fst (m : Mode) (es : CodeMap) :
    symsTotal m (es.map Prod.fst) = (es.map fun e => outLen m e.1).sum := by
  rw [symsTotal, List.map_map]
  rfl

theorem codewords_of_tableFits {m : Mode} {cm : CodeMap} (h : TableFits m cm) :
    (cm.map Prod.snd).Nodup ∧ ∀ f ∈ cm, f.2 ≠ [] := by
  obtain ⟨-, hnd, hlen⟩ := h
  exact ⟨hnd, fun f hf => List.ne_nil_of_length_pos (hlen f hf).1⟩

/-- R215, R244: what HuffDec raises is recorded, and nothing else changes. -/
theorem exec_hufDec_of_error {s : State} {kind : ErrKind} {info : Nat} (h : s.err = none)
    (hdec : huffDecode s.cfg.txtCap.val ⟨s.bb0.bits, 0⟩ = .error ⟨kind, info⟩) :
    exec .hufDec s = .next (failed s kind info) := by
  have hbody : hufDecBody s = .error ⟨kind, info⟩ := bind_eq_error.2 (.inl hdec)
  exact command_of_error h hbody

/-- Settles O55: the fields of the header, the entries and the codewords are read back in turn. -/
theorem hufDecReadsEveryArtifact : Obligations.HufDecReadsEveryArtifact := by
  refine ⟨decode_encode (i := .hufDec) rfl, fun s m x cm es h hx hfit hL hes hbits => ?_⟩
  obtain ⟨hnd, hne⟩ := codewords_of_tableFits hfit
  obtain ⟨hdec, hdrop⟩ := huffDecode_of_table (cap := s.cfg.txtCap.val) hx hfit hL hbits
  rw [payloadDecode_codewords hnd hne hes hdrop, ok_bind, symsTotal_map_fst] at hdec
  refine ⟨fun hcap => ?_, fun hover => ?_⟩
  · rw [if_neg (Nat.not_lt.2 hcap)] at hdec
    exact command_of_ok h (hufDecBody_eq_ok.2 ⟨_, hdec, rfl⟩)
  · exact exec_hufDec_of_error h (hdec.trans (if_pos hover))

/-- Settles O57: each field is tested where it stands, the table's presence before its contents. -/
theorem hufDecReportsShortArtifacts : Obligations.HufDecReportsShortArtifacts := by
  intro s h
  refine ⟨fun hempty => ?_, fun hone hnine => ?_, fun m x tail hx hbits hshort => ?_,
    fun m x L tail hx hL hbits hshort => ?_, fun m x segment payload kind pos hx hL hbad hbits => ?_,
    fun m x cm es tail hx hfit hL hes htail hnone hbits => ?_⟩ <;> refine exec_hufDec_of_error h ?_
  · rw [hempty]
    rfl
  · obtain ⟨hempty, -⟩ | ⟨-, v, hmode, hX⟩ := readBits_short_header hnine
    · simp [hempty] at hone
    · rw [huffDecode, modeW, hmode, ok_bind]
      exact bind_eq_error.2 (.inl hX)
  · obtain ⟨hmode, hX⟩ := readBits_header hx hbits
    have hlen : s.bb0.bits.length = 9 + tail.length := by rw [hbits]; simp; omega
    have hread : readBits ⟨s.bb0.bits, 9⟩ (8 * x) = .error ⟨.insufficientBits, 9⟩ :=
      readLim_eq_error.2 ⟨show s.bb0.bits.length - 9 < 8 * x by omega, rfl⟩
    rw [huffDecode, modeW, hmode]
    simp only [ok_bind, xlenW, hX, hread]
    rfl
  · rw [huffDecode_of_header hx hL hbits, if_pos hshort]
  · have hpre : segment <+: s.bb0.bits.drop (9 + 8 * x) := by
      rw [hbits, List.append_assoc, drop_huffHeader]; exact List.prefix_append _ _
    rw [huffDecode_of_header hx hL (hbits.trans (List.append_assoc ..)), if_neg (by simp), tableDes_badTable hbad hpre,
      error_bind]
  · obtain ⟨hnd, hne⟩ := codewords_of_tableFits hfit
    obtain ⟨hdec, hdrop⟩ := huffDecode_of_table (cap := s.cfg.txtCap.val) hx hfit hL
      (hbits.trans (List.append_assoc ..))
    rw [hdec, payloadDecode_unresolved hnd hne hes htail hnone hdrop, error_bind]

/-! ### The map of a frequency table is acceptable, and its codewords resolve (R149) -/

theorem nodup_of_prefixFree {cm : CodeMap} (h : PrefixFree cm) : (cm.map Prod.snd).Nodup :=
  List.pairwise_map.2 (h.imp fun {a b} hab (heq : a.2 = b.2) => hab.1 (heq ▸ List.prefix_refl a.2))

theorem eq_of_prefixFree {cm : CodeMap} (h : PrefixFree cm) {e f : Symbol × Bits} (he : e ∈ cm) (hf : f ∈ cm)
    (hpre : f.2 <+: e.2) : f = e := by
  have : Std.Symm fun a b : Symbol × Bits => ¬a.2 <+: b.2 ∧ ¬b.2 <+: a.2 := ⟨fun _ _ hab => ⟨hab.2, hab.1⟩⟩
  by_contra hne
  exact (List.Pairwise.forall h hf he hne).1 hpre

theorem freqTable_symbols_nodup (ys : List Symbol) : ((freqTable ys).map Prod.fst).Nodup := by
  rw [freqTable_symbols]
  exact nodup_eraseDups ys

theorem symbolsFit_freqTable {m : Mode} {ys : List Symbol} (h : SymbolsFit m ys) :
    SymbolsFit m ((freqTable ys).map Prod.fst) := by
  rw [freqTable_symbols]
  exact fun hm y hy => h hm y (List.mem_eraseDups.1 hy)

theorem symbolsFit_huffBuild (cfg : Config) {m : Mode} {ft : FreqTab} (hnd : (ft.map Prod.fst).Nodup)
    (h : SymbolsFit m (ft.map Prod.fst)) : SymbolsFit m ((huffBuild cfg ft).map Prod.fst) := by
  obtain ⟨hperm, -⟩ := builtCodeIsPrefixFree cfg ft hnd
  exact fun hm y hy => h hm y (hperm.mem_iff.1 hy)

theorem tableFits_huffBuild {cfg : Config} {m : Mode} {ys : List Symbol} (h : SymbolsFit m ys)
    (hshort : ∀ e ∈ huffBuild cfg (freqTable ys), e.2.length ≤ 255) : TableFits m (huffBuild cfg (freqTable ys)) := by
  have hnd := freqTable_symbols_nodup ys
  obtain ⟨-, hne, hfree, -⟩ := builtCodeIsPrefixFree cfg _ hnd
  exact ⟨symbolsFit_huffBuild cfg hnd (symbolsFit_freqTable h), nodup_of_prefixFree hfree,
    fun e he => ⟨List.length_pos_iff.2 (hne e he), hshort e he⟩⟩

/-- R211: the entries whose codewords make up the payload. -/
def payloadEntries (cm : CodeMap) (syms : List Symbol) : CodeMap := syms.map fun y => (y, codeOf cm y)

theorem payloadEntries_symbols (cm : CodeMap) (syms : List Symbol) : (payloadEntries cm syms).map Prod.fst = syms := by
  rw [payloadEntries, List.map_map]
  exact List.map_id syms

theorem payloadEntries_codewords (cm : CodeMap) (syms : List Symbol) :
    (payloadEntries cm syms).flatMap Prod.snd = syms.flatMap (codeOf cm) := by
  rw [payloadEntries, List.flatMap_map]

/-- R149, R211: the codeword of each symbol of the text resolves to its entry of the map. -/
theorem payloadEntries_resolve (cfg : Config) (ys : List Symbol) :
    ∀ e ∈ payloadEntries (huffBuild cfg (freqTable ys)) ys, Resolves (huffBuild cfg (freqTable ys)) e := by
  have hnd := freqTable_symbols_nodup ys
  obtain ⟨hperm, -, hfree, -⟩ := builtCodeIsPrefixFree cfg _ hnd
  intro e he
  obtain ⟨y, hy, rfl⟩ := List.mem_map.1 he
  have hsym : y ∈ (huffBuild cfg (freqTable ys)).map Prod.fst := by
    rw [hperm.mem_iff, freqTable_symbols]
    exact List.mem_eraseDups.2 hy
  obtain ⟨e, hmem, rfl⟩ := List.mem_map.1 hsym
  rw [codeOf_of_mem (hperm.nodup_iff.2 hnd) hmem]
  exact ⟨hmem, fun f hf hpre => congrArg Prod.snd (eq_of_prefixFree hfree hmem hf hpre)⟩

/-! ### Round trip (R216) -/

/-- R210: X bytes hold L. -/
theorem lt_two_pow_xOf (L : Nat) : L < 2 ^ (8 * xOf L) := (xOf_le_iff (one_le_xOf L)).1 le_rfl

/-- Settles O56: the artifact is made of an acceptable table and of codewords that resolve to the text's symbols. -/
theorem huffmanRoundTrip : Obligations.HuffmanRoundTrip := by
  intro s t cs h htxt hexec ht hcap
  obtain ⟨u, hu, rfl⟩ := exec_completed h hexec ht
  obtain ⟨r, hr, -, rfl⟩ := hufEncBody_eq_ok.1 hu
  obtain ⟨cs', hcs, seg, hser, hwide, rfl⟩ := huffEncode_eq_ok.1 hr
  obtain rfl : cs' = cs := Except.ok.inj (hcs.symm.trans (htxt ▸ validate_map_chrByte cs))
  obtain ⟨hshort, rfl⟩ := tableSerFrom_eq_ok.1 hser
  have hfit := tableFits_huffBuild (symbolsFit_tokenize s.mode cs') hshort
  obtain ⟨-, hdec⟩ := hufDecReadsEveryArtifact
  obtain ⟨hok, -⟩ := hdec _ s.mode _ _ _ ht (Nat.not_lt.1 hwide) hfit (lt_two_pow_xOf _)
    (payloadEntries_resolve s.cfg (tokenize s.mode cs'))
    (by rw [payloadEntries_codewords]; exact containerBits_eq _ _ _ _)
  rw [← symsTotal_map_fst, payloadEntries_symbols, ← detok_length] at hok
  exact hok hcap

end Sys2Proof.Machine
end

section
/-! PROOF. What every step keeps, from what a register write, an error and a command's pseudocode keep
(70_reset_and_hazards.md R278, 60_exceptions.md R243). -/
namespace Sys2Proof.Machine
open Sys2Proof.Safety

/-- What a property of the state needs for every step to keep it. -/
structure StepInvariant (P : State → Prop) : Prop where
  /-- It does not look at the model's own record of the run. -/
  run : ∀ (s : State) (pending : List HostEvent) (replies : List Word), P s →
    P { s with pending := pending, replies := replies }
  reset : ∀ s, P (applyReset s)
  write : ∀ r v s, P s → P (writeReg r v s)
  record : ∀ r s, P s → P (recordError r s)
  completes : ∀ {i s u}, s.err = none → P s → pseudocode i s = .ok u → P (complete u)

section
variable {P : State → Prop} (hP : StepInvariant P)
include hP

theorem StepInvariant.of_exec {i : Instr} {s t : State} (h : P s) (ht : exec i s = .next t) : P t := by
  rw [exec_eq_command] at ht
  obtain ⟨-, rfl⟩ | ⟨herr, u, hu, rfl⟩ | ⟨-, r, -, rfl⟩ := command_cases ht
  · exact h
  · exact hP.completes herr h hu
  · exact hP.record r s h

theorem StepInvariant.of_issue {c : Word} {s t : State} (h : P s) (ht : issue c s = .next t) : P t := by
  cases hdec : decode c with
  | ok i => exact hP.of_exec h (issue_of_decode s hdec ▸ ht)
  | error e =>
    by_cases herr : s.err = none
    · simp only [Machine.issue, herr, hdec] at ht
      cases ht
      exact hP.record _ s h
    · rw [issue_of_err herr] at ht
      cases ht
      exact h

theorem StepInvariant.of_writeOffset {off : Nat} {v : Word} {s t : State} (h : P s)
    (ht : writeOffset off v s = .next t) : P t := by
  obtain hw | ⟨r, hw⟩ | hw := writeOffset_cases off v s <;> rw [hw] at ht
  · exact hP.of_issue h ht
  · cases ht
    exact hP.write r v s h
  · cases ht
    exact h

theorem StepInvariant.of_perform {e : HostEvent} {s t : State} (h : P s) (ht : perform e s = .next t) : P t := by
  cases e with
  | reset =>
    cases ht
    exact hP.reset s
  | read addr =>
    obtain ⟨-, ha⟩ | ⟨-, -, -, ha⟩ | ⟨-, -, -, ha⟩ := access_cases s.cfg.base addr fun off =>
      .next { s with replies := s.replies ++ [readOffset s off] }
    all_goals cases ha.symm.trans ht
    exact hP.run s s.pending _ h
  | write addr v =>
    obtain ⟨-, ha⟩ | ⟨-, -, -, ha⟩ | ⟨-, -, -, ha⟩ := access_cases s.cfg.base addr fun off => writeOffset off v s
    · cases ha.symm.trans ht
    · cases ha.symm.trans ht
    · exact hP.of_writeOffset h (ha.symm.trans ht)
  | subWord addr => cases ht

theorem StepInvariant.of_step {s t : State} (h : P s) (ht : step s = .next t) : P t := by
  cases hp : s.pending with
  | nil =>
    rw [step_idle hp] at ht
    cases ht
    exact h
  | cons e rest =>
    rw [step_event hp] at ht
    exact hP.of_perform (hP.run s rest s.replies h) ht

end

end Sys2Proof.Machine
end

section
/-! PROOF. What the decoders give when they reach their end (45_ascii.md R202, 44_rle.md R183, 46_container.md R214). -/
namespace Sys2Proof.Machine
open Sys2Proof.Safety

/-- R202: each character is 7 bits of the buffer. -/
theorem readChars_length {f : Nat} {B : BitBuf} {t cs : List Chr} (h : readChars f B t = .ok cs) :
    7 * cs.length ≤ 7 * t.length + (B.bits.length - B.cur) := by
  induction f generalizing B t with
  | zero =>
    cases h
    omega
  | succ f ih =>
    rw [readChars] at h
    split at h
    · obtain ⟨⟨v, B'⟩, hr, h⟩ := bind_eq_ok.1 h
      obtain ⟨hbits, hcur, hle⟩ := readLim_cur hr
      simp only [charW] at hcur hle
      simp only at h
      split at h
      · simp at h
      · have := ih h
        rw [hbits, List.length_append, List.length_singleton] at this
        omega
    · cases h
      omega

theorem length_of_asciiDecode {bs : Bits} {cs : List Chr} (h : asciiDecode ⟨bs, 0⟩ = .ok cs) :
    bs.length % 7 = 0 ∧ 7 * cs.length ≤ bs.length := by
  rw [asciiDecode] at h
  split at h
  · cases h
  next hwhole => exact ⟨not_not.1 hwhole, by simpa using readChars_length h⟩

/-- R183: the runs read up to the end of the buffer fit the width and the mode. -/
theorem runsFit_of_readRuns {m : Mode} {width i : Nat} {bs : Bits} {rl : RunList} (hi : i ≤ bs.length)
    (h : readRuns m width (bs.length - i) ⟨bs, i⟩ [] = .ok rl) : RunsFit m width rl := by
  obtain ⟨rl', hfit, hrl⟩ | ⟨kind, pos, hbad⟩ := runs_cases (runsFit_nil m width) (bs.drop i)
  · rw [readRuns_whole hi hfit hrl] at h
    cases h
    exact hfit
  · rw [readRuns_badRuns hbad rfl hi] at h
    cases h

/-- R102: a read ends inside the buffer. -/
theorem cursor_le_of_readBits {B B' : BitBuf} {n v : Nat} (hB : B.cur ≤ B.bits.length)
    (h : readBits B n = .ok (v, B')) : B'.cur ≤ B'.bits.length := by
  obtain ⟨hbits, hcur, hle⟩ := readLim_cur h
  rw [hbits]
  omega

/-- R183: what RleDec gives. -/
theorem fits_of_rleDecode {cap : Nat} {bs : Bits} {r : RleDecoded} (h : rleDecode cap ⟨bs, 0⟩ = .ok r) :
    SymbolsFit r.mode (r.rl.map Prod.fst) ∧ r.syms = expandRuns r.rl ∧ r.txt.length ≤ cap := by
  obtain ⟨⟨mb, B1⟩, h1, h⟩ := bind_eq_ok.1 h
  obtain ⟨⟨width, B2⟩, h2, h⟩ := bind_eq_ok.1 h
  obtain ⟨rl, hrl, h⟩ := bind_eq_ok.1 h
  obtain ⟨hover, rfl⟩ := ite_raise_eq_ok.1 h
  have hB2 := cursor_le_of_readBits (cursor_le_of_readBits (Nat.zero_le _) h1) h2
  obtain ⟨-, hfit⟩ := runsFit_of_readRuns hB2 hrl
  refine ⟨hfit, rfl, ?_⟩
  rw [detok_length, symsTotal_expandRuns]
  exact not_lt.1 hover

/-- R164: a table read inside the buffer is acceptable. -/
theorem tableFits_of_tableDes {m : Mode} {bs : Bits} {i lim : Nat} {cm : CodeMap} {B : BitBuf} (hi : i ≤ lim)
    (hlim : lim ≤ bs.length) (h : tableDes ⟨bs, i⟩ m lim = .ok (cm, B)) : TableFits m cm := by
  have hpre : (bs.drop i).take (lim - i) <+: bs.drop i := List.take_prefix _ _
  have hend : i + ((bs.drop i).take (lim - i)).length = lim := by
    rw [List.length_take, List.length_drop]
    omega
  obtain ⟨cm', hfit, hcm⟩ | ⟨kind, pos, hbad⟩ := segment_cases (tableFits_nil m) ((bs.drop i).take (lim - i))
  · have hcm : (bs.drop i).take (lim - i) = tableBits m cm' := hcm
    have hdes := tableDes_tableBits hfit (hcm ▸ hpre)
    rw [← hcm, hend, h] at hdes
    obtain ⟨rfl, -⟩ := Prod.mk.inj (Except.ok.inj hdes)
    exact hfit
  · have hbad : BadTable m ((bs.drop i).take (lim - i)) kind pos := hbad
    have hdes := tableDes_badTable hbad hpre
    rw [hend, h] at hdes
    cases hdes

/-- R213: the symbols found are symbols of the table. -/
theorem payloadLoop_symbols {cm : CodeMap} {t acc : Bits} {pos start : Nat} {out ys : List Symbol}
    (hout : ∀ y ∈ out, y ∈ cm.map Prod.fst) (h : payloadLoop cm t pos start acc out = .ok ys) :
    ∀ y ∈ ys, y ∈ cm.map Prod.fst := by
  induction t generalizing acc pos start out with
  | nil =>
    rw [payloadLoop] at h
    split at h <;> cases h
    exact hout
  | cons b t ih =>
    rw [payloadLoop] at h
    split at h
    next e hfind =>
      refine ih (List.forall_mem_append.2 ⟨hout, ?_⟩) h
      simpa using ⟨_, List.mem_of_find?_eq_some hfind⟩
    next => exact ih hout h

/-- R214: what HuffDec gives. -/
theorem fits_of_huffDecode {cap : Nat} {bs : Bits} {r : HuffDecoded} (h : huffDecode cap ⟨bs, 0⟩ = .ok r) :
    TableFits r.mode r.cm ∧ (∀ y ∈ r.syms, y ∈ r.cm.map Prod.fst) ∧ r.seg.length ≤ bs.length
      ∧ r.txt.length ≤ cap := by
  obtain ⟨⟨mb, B1⟩, h1, h⟩ := bind_eq_ok.1 h
  obtain ⟨⟨x, B2⟩, h2, h⟩ := bind_eq_ok.1 h
  obtain ⟨⟨L, B3⟩, h3, h⟩ := bind_eq_ok.1 h
  simp only at h
  split at h
  · cases h
  next hpresent =>
    obtain ⟨⟨cm, B4⟩, hcm, h⟩ := bind_eq_ok.1 h
    obtain ⟨syms, hsyms, h⟩ := bind_eq_ok.1 h
    obtain ⟨hover, rfl⟩ := ite_raise_eq_ok.1 h
    have hend : B3.cur + L ≤ B3.bits.length := by
      have := cursor_le_of_readBits (cursor_le_of_readBits (cursor_le_of_readBits (Nat.zero_le _) h1) h2) h3
      rw [remaining] at hpresent
      omega
    refine ⟨tableFits_of_tableDes (Nat.le_add_right _ _) hend hcm, payloadLoop_symbols (by simp) hsyms, ?_, ?_⟩
    · exact ((List.take_sublist _ _).trans (List.drop_sublist _ _)).length_le
    · rw [detok_length]
      exact not_lt.1 hover

end Sys2Proof.Machine
end

section
/-! PROOF. The capacities, the cursors and the error registers (10_state.md R28, R29; 60_exceptions.md R243, R244). -/
namespace Sys2Proof.Machine
open Sys2Proof.Safety

theorem errorRegsInv_of_err_none {s : State} (hinfo : s.errInfo = 0) (herr : s.err = none) : ErrorRegsInv s :=
  ⟨fun _ => hinfo, fun h => absurd herr h⟩

/-- R28, R29: every command's pseudocode keeps the text and the buffers within their capacities. -/
theorem pseudocode_keeps_wf {i : Instr} {s u : State} (h : Memory.wf s = true) (hu : pseudocode i s = .ok u) :
    Memory.wf u = true := by
  obtain ⟨-, h0, h1⟩ := (Memory.wf_iff s).1 h
  cases i
  case nop | freq | runs | huffBuild =>
    cases hu
    exact h
  case bbClear b =>
    cases hu
    exact Memory.wf_setBB h (BitBuf.wf_empty _)
  case bbRewind b =>
    cases hu
    exact Memory.wf_setBB h (BitBuf.wf_rewind (Memory.wf_bb h b))
  case bbAppend b width =>
    obtain ⟨B, hB, rfl⟩ := bbAppendBody_eq_ok.1 hu
    exact Memory.wf_setBB h (appendBits_wf (Memory.wf_bb h b) hB)
  case bbAppendl b =>
    obtain ⟨B, hB, rfl⟩ := bbAppendlBody_eq_ok.1 hu
    exact Memory.wf_setBB h (appendLiteral_wf (Memory.wf_bb h b) hB)
  case bbRead b count =>
    obtain ⟨v, B, hB, rfl⟩ := bbReadBody_eq_ok.1 hu
    exact Memory.wf_setBB h (readBits_wf (Memory.wf_bb h b) hB)
  case txtClear =>
    cases hu
    exact Memory.wf_setTxt h (Nat.zero_le _)
  case txtPut v =>
    obtain ⟨hcap, rfl⟩ := txtPutBody_eq_ok.1 hu
    exact Memory.wf_setTxt h (by simpa using hcap)
  case tokenize =>
    obtain ⟨t, -, rfl⟩ := tokenizeBody_eq_ok.1 hu
    exact h
  case detok =>
    obtain ⟨hcap, rfl⟩ := detokBody_eq_ok.1 hu
    exact Memory.wf_setTxt h hcap
  case tblSer =>
    obtain ⟨seg, -, hcap, rfl⟩ := tblSerBody_eq_ok.1 hu
    exact Memory.wf_setBB (b := .b1) h (BitBuf.wf_fresh hcap)
  case tblDes =>
    obtain ⟨cm, B, -, rfl⟩ := tblDesBody_eq_ok.1 hu
    exact Memory.wf_setBB (b := .b1) h (BitBuf.wf_atEnd h1)
  case rleEnc =>
    obtain ⟨r, -, hcap, rfl⟩ := rleEncBody_eq_ok.1 hu
    exact Memory.wf_setBB (b := .b0) h (BitBuf.wf_fresh hcap)
  case rleDec =>
    obtain ⟨r, hr, rfl⟩ := rleDecBody_eq_ok.1 hu
    obtain ⟨-, -, hcap⟩ := fits_of_rleDecode hr
    exact (Memory.wf_iff _).2 ⟨hcap, BitBuf.wf_atEnd h0, h1⟩
  case ascEnc =>
    obtain ⟨out, -, hcap, rfl⟩ := ascEncBody_eq_ok.1 hu
    exact Memory.wf_setBB (b := .b0) h (BitBuf.wf_fresh hcap)
  case ascDec =>
    obtain ⟨hover, t, ht, rfl⟩ := ascDecBody_eq_ok.1 hu
    obtain ⟨hwhole, hlen⟩ := length_of_asciiDecode ht
    simp only [charW] at hover
    have hcap : (t.map chrByte).length ≤ s.cfg.txtCap.val := by
      rw [List.length_map]
      omega
    exact (Memory.wf_iff _).2 ⟨hcap, BitBuf.wf_atEnd h0, h1⟩
  case hufEnc =>
    obtain ⟨r, hr, hcap, rfl⟩ := hufEncBody_eq_ok.1 hu
    obtain ⟨cs, -, seg, -, -, rfl⟩ := huffEncode_eq_ok.1 hr
    have hseg := (seg_length_le_containerBits _ _ _).trans hcap
    exact Memory.wf_setBB (b := .b0) (Memory.wf_setBB (b := .b1) h (BitBuf.wf_fresh hseg)) (BitBuf.wf_fresh hcap)
  case hufDec =>
    obtain ⟨r, hr, rfl⟩ := hufDecBody_eq_ok.1 hu
    obtain ⟨-, -, hseg, hcap⟩ := fits_of_huffDecode hr
    exact (Memory.wf_iff _).2 ⟨hcap, BitBuf.wf_atEnd h0, BitBuf.wf_fresh (hseg.trans h0.1)⟩

theorem errorRegsInv_writeReg {r : Reg} {v : Word} {s : State} (h : ErrorRegsInv s) :
    ErrorRegsInv (writeReg r v s) := by
  cases r
  case err => exact errorRegsInv_of_err_none rfl rfl
  all_goals exact h

theorem stepInvariant_registers : StepInvariant fun s => Memory.wf s = true ∧ ErrorRegsInv s where
  run _ _ _ h := h
  reset s := ⟨Memory.wf_applyReset s, errorRegsInv_of_err_none rfl rfl⟩
  write r v s h := ⟨(Memory.wf_writeReg r v s).trans h.1, errorRegsInv_writeReg h.2⟩
  record _ _ h := ⟨h.1, nofun, fun _ => rfl⟩
  completes herr h hu := by
    obtain ⟨hwf, hregs⟩ := h
    obtain ⟨herr', hinfo'⟩ := pseudocode_keeps_errorRegs hu
    have hwf' := pseudocode_keeps_wf hwf hu
    exact ⟨hwf', errorRegsInv_of_err_none (hinfo'.trans (hregs.1 herr)) (herr'.trans herr)⟩

/-- Settles O58: no command's pseudocode passes a capacity, and ERRINFO and DONE change only with ERR. -/
theorem stepKeepsCapacitiesAndErrorRegisters : Obligations.StepKeepsCapacitiesAndErrorRegisters :=
  fun _ _ hwf hregs ht => stepInvariant_registers.of_step ⟨hwf, hregs⟩ ht

end Sys2Proof.Machine
end

section
/-! PROOF. The mode invariant and the invariants of FT and CM (10_state.md R31, R32, R35). -/
namespace Sys2Proof.Machine
open Sys2Proof.Safety

theorem freqTabInv_freqTable (ys : List Symbol) : FreqTabInv (freqTable ys) := by
  refine ⟨freqTable_symbols_nodup ys, fun e he => ?_⟩
  obtain ⟨hy, hn⟩ := mem_freqTable.1 he
  exact hn ▸ List.count_pos_iff.2 hy

theorem codeMapInv_huffBuild (cfg : Config) {ft : FreqTab} (hnd : (ft.map Prod.fst).Nodup) :
    CodeMapInv (huffBuild cfg ft) := by
  obtain ⟨-, hne, hfree, -⟩ := builtCodeIsPrefixFree cfg ft hnd
  exact ⟨nodup_of_prefixFree hfree, hne⟩

theorem symbolsFit_of_subset {m : Mode} {ys zs : List Symbol} (h : SymbolsFit m zs) (hsub : ∀ y ∈ ys, y ∈ zs) :
    SymbolsFit m ys :=
  fun hm y hy => h hm y (hsub y hy)

theorem mem_of_mem_expandRuns {rl : RunList} {y : Symbol} (h : y ∈ expandRuns rl) : y ∈ rl.map Prod.fst := by
  obtain ⟨e, he, hy⟩ := List.mem_flatMap.1 h
  exact (List.eq_of_mem_replicate hy) ▸ List.mem_map_of_mem he

/-- R31, R32, R35: every command's pseudocode keeps the tables as the spec says they are between commands. -/
theorem pseudocode_keeps_tablesInv {i : Instr} {s u : State} (h : TablesInv s) (hu : pseudocode i s = .ok u) :
    TablesInv u := by
  obtain ⟨⟨hsyms, hft, hcm, hrl⟩, hfreq, hcode⟩ := id h
  cases i
  case nop | txtClear =>
    cases hu
    exact h
  case bbClear b | bbRewind b =>
    cases hu
    cases b <;> exact h
  case bbAppend b width =>
    obtain ⟨B, -, rfl⟩ := bbAppendBody_eq_ok.1 hu
    cases b <;> exact h
  case bbAppendl b =>
    obtain ⟨B, -, rfl⟩ := bbAppendlBody_eq_ok.1 hu
    cases b <;> exact h
  case bbRead b count =>
    obtain ⟨v, B, -, rfl⟩ := bbReadBody_eq_ok.1 hu
    cases b <;> exact h
  case txtPut v =>
    obtain ⟨-, rfl⟩ := txtPutBody_eq_ok.1 hu
    exact h
  case tokenize =>
    obtain ⟨t, -, rfl⟩ := tokenizeBody_eq_ok.1 hu
    exact ⟨⟨symbolsFit_tokenize _ _, hft, hcm, hrl⟩, hfreq, hcode⟩
  case freq =>
    cases hu
    exact ⟨⟨hsyms, symbolsFit_freqTable hsyms, hcm, hrl⟩, freqTabInv_freqTable _, hcode⟩
  case runs =>
    cases hu
    exact ⟨⟨hsyms, hft, hcm, symbolsFit_runsOf hsyms⟩, hfreq, hcode⟩
  case detok =>
    obtain ⟨-, rfl⟩ := detokBody_eq_ok.1 hu
    exact h
  case huffBuild =>
    cases hu
    exact ⟨⟨hsyms, hft, symbolsFit_huffBuild _ hfreq.1 hft, hrl⟩, hfreq, codeMapInv_huffBuild _ hfreq.1⟩
  case tblSer =>
    obtain ⟨seg, -, -, rfl⟩ := tblSerBody_eq_ok.1 hu
    exact h
  case tblDes =>
    obtain ⟨cm, B, hdes, rfl⟩ := tblDesBody_eq_ok.1 hu
    have hfit := tableFits_of_tableDes (Nat.zero_le _) le_rfl hdes
    exact ⟨⟨hsyms, hft, hfit.1, hrl⟩, hfreq, codewords_of_tableFits hfit⟩
  case rleEnc =>
    obtain ⟨r, hr, -, rfl⟩ := rleEncBody_eq_ok.1 hu
    obtain ⟨cs, -, -, rfl⟩ := rleEncode_eq_ok.1 hr
    have hys := symbolsFit_tokenize s.mode cs
    exact ⟨⟨hys, hft, hcm, symbolsFit_runsOf hys⟩, hfreq, hcode⟩
  case rleDec =>
    obtain ⟨r, hr, rfl⟩ := rleDecBody_eq_ok.1 hu
    obtain ⟨hrl', hsyms', -⟩ := fits_of_rleDecode hr
    have hys := symbolsFit_of_subset hrl' fun y hy => mem_of_mem_expandRuns (hsyms' ▸ hy)
    exact ⟨⟨hys, nofun, nofun, hrl'⟩, ⟨.nil, nofun⟩, .nil, nofun⟩
  case ascEnc =>
    obtain ⟨out, -, -, rfl⟩ := ascEncBody_eq_ok.1 hu
    exact h
  case ascDec =>
    obtain ⟨-, t, -, rfl⟩ := ascDecBody_eq_ok.1 hu
    exact h
  case hufEnc =>
    obtain ⟨r, hr, -, rfl⟩ := hufEncBody_eq_ok.1 hu
    obtain ⟨cs, -, seg, -, -, rfl⟩ := huffEncode_eq_ok.1 hr
    have hys := symbolsFit_tokenize s.mode cs
    have hnd := freqTable_symbols_nodup (tokenize s.mode cs)
    have hfts := symbolsFit_freqTable hys
    exact ⟨⟨hys, hfts, symbolsFit_huffBuild _ hnd hfts, hrl⟩, freqTabInv_freqTable _, codeMapInv_huffBuild _ hnd⟩
  case hufDec =>
    obtain ⟨r, hr, rfl⟩ := hufDecBody_eq_ok.1 hu
    obtain ⟨hfit, hmem, -, -⟩ := fits_of_huffDecode hr
    exact ⟨⟨symbolsFit_of_subset hfit.1 hmem, nofun, hfit.1, nofun⟩, ⟨.nil, nofun⟩, codewords_of_tableFits hfit⟩

theorem tablesInv_writeReg {r : Reg} {v : Word} {s : State} (h : TablesInv s) : TablesInv (writeReg r v s) := by
  cases r
  case mode => exact tablesInv_of_empty rfl rfl rfl rfl
  all_goals exact h

theorem stepInvariant_tablesInv : StepInvariant TablesInv where
  run _ _ _ h := h
  reset _ := tablesInv_of_empty rfl rfl rfl rfl
  write _ _ _ h := tablesInv_writeReg h
  record _ _ h := h
  completes _ h hu := (pseudocode_keeps_tablesInv h hu :)

/-- Settles O59: a command that writes a table writes it as the spec says, and a new MODE empties the four tables. -/
theorem stepKeepsTheTablesInvariant : Obligations.StepKeepsTheTablesInvariant :=
  fun _ _ h ht => stepInvariant_tablesInv.of_step h ht

end Sys2Proof.Machine
end
